-- ==== Sys2Proof/Word.lean ====
section
/-! DEFINITION. The word types of the CompressedVec core (00_scope.md R6, R7, R10; 30_encoding.md R81). -/

namespace Sys2Proof

/-- A Value, an index, a length, a count or one packet word: 32 unsigned bits (R6 `VBITS`, `XBITS`; R81). -/
abbrev Word := BitVec 32

/-- A `u8`: a width operand of a header, or one byte of a payload or of the block RAM (R10, R82, R84). -/
abbrev Byte := BitVec 8

/-- A whole packet, word 0 first; its length is known to the receiver (R81). -/
abbrev Packet := List Word

end Sys2Proof
end

