-- ==== Sys2Proof/Syntax.lean ====
section
/-! DEFINITION. The 23 commands of 30_encoding.md R87, one constructor per row of the opcode table. A command plays the
part an instruction plays in an ISA. The count `n` of a Value payload and the length `L` of a byte payload are the lengths
of the lists (R93: "not written: the assembler takes them from the bracketed or braced sequence"). -/

namespace Sys2Proof

/-- The name of a row of the opcode map (R87). -/
inductive Op where
  | bits | maxr | enc | dec1 | deca | wr1 | rpk
  | idx | get | len | isemp | bytelen | binfo
  | new | push | pop | build
  | copen | cnext | cclose | cstat
  | exportImage | importImage
  deriving DecidableEq, Repr

/-- A command with its operands, in the operand order of the assembler syntax (R93). -/
inductive Instr where
  /-- `BITS v` (R123). -/
  | bits (v : Word)
  /-- `MAXR w` (R124). -/
  | maxr (w : Byte)
  /-- `ENC w, [v0, v1, ...]` (R150). -/
  | enc (w : Byte) (vs : List Word)
  /-- `DEC1 w, i, {b0 b1 ...}` (R151). -/
  | dec1 (w : Byte) (i : Word) (bs : List Byte)
  /-- `DECA w, n, {b0 b1 ...}` (R152). -/
  | deca (w : Byte) (n : Word) (bs : List Byte)
  /-- `WR1 w, i, v, {b0 b1 ...}` (R153). -/
  | wr1 (w : Byte) (i v : Word) (bs : List Byte)
  /-- `RPK old_w, new_w, n, {b0 b1 ...}` (R154). -/
  | rpk (oldW newW : Byte) (n : Word) (bs : List Byte)
  /-- `IDX i` (R182). -/
  | idx (i : Word)
  /-- `GET i` (R183). -/
  | get (i : Word)
  /-- `LEN` (R184). -/
  | len
  /-- `ISEMP` (R185). -/
  | isemp
  /-- `BYTELEN` (R186). -/
  | bytelen
  /-- `BINFO b` (R187). -/
  | binfo (b : Word)
  /-- `NEW` (R201). -/
  | new
  /-- `PUSH v` (R202). -/
  | push (v : Word)
  /-- `POP` (R204). -/
  | pop
  /-- `BUILD [v0, v1, ...]` (R206). -/
  | build (vs : List Word)
  /-- `COPEN.REF` (`own = false`) and `COPEN.OWN` (`own = true`) (R233). -/
  | copen (own : Bool)
  /-- `CNEXT` (R234). -/
  | cnext
  /-- `CCLOSE` (R236). -/
  | cclose
  /-- `CSTAT` (R237). -/
  | cstat
  /-- `EXPORT` (R262). -/
  | exportImage
  /-- `IMPORT {b0 b1 ...}` (R263). -/
  | importImage (bs : List Byte)
  deriving DecidableEq, Repr

/-- The opcode-table row a command belongs to. -/
def Instr.op : Instr → Op
  | .bits _ => .bits
  | .maxr _ => .maxr
  | .enc _ _ => .enc
  | .dec1 _ _ _ => .dec1
  | .deca _ _ _ => .deca
  | .wr1 _ _ _ _ => .wr1
  | .rpk _ _ _ _ => .rpk
  | .idx _ => .idx
  | .get _ => .get
  | .len => .len
  | .isemp => .isemp
  | .bytelen => .bytelen
  | .binfo _ => .binfo
  | .new => .new
  | .push _ => .push
  | .pop => .pop
  | .build _ => .build
  | .copen _ => .copen
  | .cnext => .cnext
  | .cclose => .cclose
  | .cstat => .cstat
  | .exportImage => .exportImage
  | .importImage _ => .importImage

end Sys2Proof
end

