-- ==== Sys2Proof/WellFormed.lean ====
section
/-! DEFINITION. Which terms of `Instr` a packet can carry: a count or a length is one 32-bit operand word
(30_encoding.md R83 to R85), so a payload has fewer than `2^32` elements. Operand values (a width above 32, a count above a
limit, an index out of range) are no matter of well-formedness: they are checked at execution (R88, R285). -/

namespace Sys2Proof

/-- A Value payload whose count fits its operand word (R85). -/
abbrev valuesFit (vs : List Word) : Prop := vs.length < 2 ^ 32

/-- A byte payload whose length fits its operand word (R84). -/
abbrev bytesFit (bs : List Byte) : Prop := bs.length < 2 ^ 32

/-- The command can be written as a packet (R81 to R86). -/
def Instr.WellFormed : Instr → Prop
  | .bits _ => True
  | .maxr _ => True
  | .enc _ vs => valuesFit vs
  | .dec1 _ _ bs => bytesFit bs
  | .deca _ _ bs => bytesFit bs
  | .wr1 _ _ _ bs => bytesFit bs
  | .rpk _ _ _ bs => bytesFit bs
  | .idx _ => True
  | .get _ => True
  | .len => True
  | .isemp => True
  | .bytelen => True
  | .binfo _ => True
  | .new => True
  | .push _ => True
  | .pop => True
  | .build vs => valuesFit vs
  | .copen _ => True
  | .cnext => True
  | .cclose => True
  | .cstat => True
  | .exportImage => True
  | .importImage bs => bytesFit bs

end Sys2Proof
end

