-- ==== Sys2Proof/Decode.lean ====
section
/-! DEFINITION. The packet decoder and encoder (30_encoding.md R82 to R90) and the byte payload's byte order (R84). -/

namespace Sys2Proof

/-- The eight formats (R86). -/
inductive Format where
  | n | a | f | x | v | b | xb | xxb
  deriving DecidableEq, Repr

/-- A row of the opcode map: a header `h` selects it when `h & mask = pat` (R87). -/
structure Row where
  op : Op
  fmt : Format
  pat : Word
  mask : Word
  deriving DecidableEq, Repr

/-- The two decode failures (R88): a header that selects no row, and a packet of the wrong length or padding. -/
inductive DecodeFail where
  /-- `E_OPCODE` (R90, R291): answered by a response, the machine goes on; safe. -/
  | opcode
  /-- `E_FORMAT` (R292): answered by a response, the machine goes on; safe. -/
  | format
  deriving DecidableEq, Repr

/-- The opcode number (R87). -/
def Op.code : Op → Byte
  | .bits => 0x01#8
  | .maxr => 0x02#8
  | .enc => 0x10#8
  | .dec1 => 0x11#8
  | .deca => 0x12#8
  | .wr1 => 0x13#8
  | .rpk => 0x14#8
  | .idx => 0x20#8
  | .get => 0x21#8
  | .len => 0x22#8
  | .isemp => 0x23#8
  | .bytelen => 0x24#8
  | .binfo => 0x25#8
  | .new => 0x30#8
  | .push => 0x31#8
  | .pop => 0x32#8
  | .build => 0x33#8
  | .copen => 0x40#8
  | .cnext => 0x41#8
  | .cclose => 0x42#8
  | .cstat => 0x43#8
  | .exportImage => 0x50#8
  | .importImage => 0x51#8

/-- The opcode map with its `match` and `mask` words (R87, opcode_table.json). -/
def opTable : List Row :=
  [ ⟨.bits, .x, 0x00000001#32, 0xFFFFFFFF#32⟩,
    ⟨.maxr, .a, 0x00000002#32, 0xFFFF00FF#32⟩,
    ⟨.enc, .v, 0x00000010#32, 0xFFFF00FF#32⟩,
    ⟨.dec1, .xb, 0x00000011#32, 0xFFFF00FF#32⟩,
    ⟨.deca, .xb, 0x00000012#32, 0xFFFF00FF#32⟩,
    ⟨.wr1, .xxb, 0x00000013#32, 0xFFFF00FF#32⟩,
    ⟨.rpk, .xb, 0x00000014#32, 0xFF0000FF#32⟩,
    ⟨.idx, .x, 0x00000020#32, 0xFFFFFFFF#32⟩,
    ⟨.get, .x, 0x00000021#32, 0xFFFFFFFF#32⟩,
    ⟨.len, .n, 0x00000022#32, 0xFFFFFFFF#32⟩,
    ⟨.isemp, .n, 0x00000023#32, 0xFFFFFFFF#32⟩,
    ⟨.bytelen, .n, 0x00000024#32, 0xFFFFFFFF#32⟩,
    ⟨.binfo, .x, 0x00000025#32, 0xFFFFFFFF#32⟩,
    ⟨.new, .n, 0x00000030#32, 0xFFFFFFFF#32⟩,
    ⟨.push, .x, 0x00000031#32, 0xFFFFFFFF#32⟩,
    ⟨.pop, .n, 0x00000032#32, 0xFFFFFFFF#32⟩,
    ⟨.build, .v, 0x00000033#32, 0xFFFFFFFF#32⟩,
    ⟨.copen, .f, 0x00000040#32, 0xFEFFFFFF#32⟩,
    ⟨.cnext, .n, 0x00000041#32, 0xFFFFFFFF#32⟩,
    ⟨.cclose, .n, 0x00000042#32, 0xFFFFFFFF#32⟩,
    ⟨.cstat, .n, 0x00000043#32, 0xFFFFFFFF#32⟩,
    ⟨.exportImage, .n, 0x00000050#32, 0xFFFFFFFF#32⟩,
    ⟨.importImage, .b, 0x00000051#32, 0xFFFFFFFF#32⟩ ]

/-- `h & mask = pat` (R87). -/
def Row.selects (r : Row) (h : Word) : Bool := h &&& r.mask == r.pat

/-- The row a header selects (R88). -/
def rowOf (h : Word) : Option Row := opTable.find? (fun r => r.selects h)

/-- The opcode field `h[7:0]` (R82). -/
def fieldOp (h : Word) : Byte := h.extractLsb' 0 8

/-- The first width operand `h[15:8]` (R82, R89). -/
def fieldA (h : Word) : Byte := h.extractLsb' 8 8

/-- The second width operand `h[23:16]` (R82, R89). -/
def fieldB (h : Word) : Byte := h.extractLsb' 16 8

/-- The flag operand `h[24]` (R82, R89). -/
def fieldF (h : Word) : Bool := h.getLsbD 24

/-- How many fixed operand words a format has after the header (R88 `fw`). -/
def Format.fixedWords : Format → Nat
  | .n => 0
  | .a => 0
  | .f => 0
  | .x => 1
  | .v => 1
  | .b => 1
  | .xb => 2
  | .xxb => 3

/-- How many payload words follow the fixed words when the count word holds `cnt` (R84, R85, R86). -/
def Format.payloadWords (fmt : Format) (cnt : Nat) : Nat :=
  match fmt with
  | .n => 0
  | .a => 0
  | .f => 0
  | .x => 0
  | .v => cnt
  | .b => (cnt + 3) / 4
  | .xb => (cnt + 3) / 4
  | .xxb => (cnt + 3) / 4

/-- Does the format carry a byte payload (R86)? -/
def Format.hasBytes : Format → Bool
  | .n => false
  | .a => false
  | .f => false
  | .x => false
  | .v => false
  | .b => true
  | .xb => true
  | .xxb => true

/-- The four bytes of a payload word, byte 0 its least significant (R84). -/
def wordBytes (w : Word) : List Byte :=
  [w.extractLsb' 0 8, w.extractLsb' 8 8, w.extractLsb' 16 8, w.extractLsb' 24 8]

/-- Every byte position of a byte payload's words, pad bytes included (R84). -/
def unpackBytes (ws : List Word) : List Byte := ws.flatMap wordBytes

/-- A byte sequence as payload words, little-endian within a word, the unused high bytes of the last word 0 (R84). -/
def packBytes : List Byte → List Word
  | [] => []
  | [a] => [0#8 ++ 0#8 ++ 0#8 ++ a]
  | [a, b] => [0#8 ++ 0#8 ++ b ++ a]
  | [a, b, c] => [0#8 ++ c ++ b ++ a]
  | a :: b :: c :: d :: rest => (d ++ c ++ b ++ a) :: packBytes rest

/-- Are the pad bytes of a payload of length `l` all 0 (R84, R88)? -/
def padZero (l : Nat) (payload : List Word) : Bool := ((unpackBytes payload).drop l).all (· == 0#8)

/-- The command a packet of the right form stands for: header `h`, operand words `ws`, count `cnt`, payload words
`payload` (R83, R88, R89). -/
def assemble (op : Op) (h : Word) (ws : List Word) (cnt : Nat) (payload : List Word) : Instr :=
  let bytes := (unpackBytes payload).take cnt
  match op with
  | .bits => .bits (ws.getD 0 0)
  | .maxr => .maxr (fieldA h)
  | .enc => .enc (fieldA h) payload
  | .dec1 => .dec1 (fieldA h) (ws.getD 0 0) bytes
  | .deca => .deca (fieldA h) (ws.getD 0 0) bytes
  | .wr1 => .wr1 (fieldA h) (ws.getD 0 0) (ws.getD 1 0) bytes
  | .rpk => .rpk (fieldB h) (fieldA h) (ws.getD 0 0) bytes
  | .idx => .idx (ws.getD 0 0)
  | .get => .get (ws.getD 0 0)
  | .len => .len
  | .isemp => .isemp
  | .bytelen => .bytelen
  | .binfo => .binfo (ws.getD 0 0)
  | .new => .new
  | .push => .push (ws.getD 0 0)
  | .pop => .pop
  | .build => .build payload
  | .copen => .copen (fieldF h)
  | .cnext => .cnext
  | .cclose => .cclose
  | .cstat => .cstat
  | .exportImage => .exportImage
  | .importImage => .importImage bytes

/-- The count word `pkt[fw]` of a packet whose words after the header are `ws` (R88 `cnt`; unused in the formats `N`, `A`,
`F`, `X`). -/
def countWord (fmt : Format) (ws : List Word) : Nat := (ws.getD (fmt.fixedWords - 1) 0).toNat

/-- The length and padding checks of R88, once the header has selected row `r`. -/
def decodeRow (r : Row) (h : Word) (ws : List Word) : Except DecodeFail Instr :=
  let fw := r.fmt.fixedWords
  if ws.length < fw then .error .format
  else
    let cnt := countWord r.fmt ws
    let payload := ws.drop fw
    if ws.length ≠ fw + r.fmt.payloadWords cnt then .error .format
    else if r.fmt.hasBytes && !padZero cnt payload then .error .format
    else .ok (assemble r.op h ws cnt payload)

/-- The total decoder (R88): every packet is exactly one command or one of two decode failures; it looks at no state. -/
def decode : Packet → Except DecodeFail Instr
  | [] => .error .format
  | h :: ws =>
    match rowOf h with
    | none => .error .opcode
    | some r => decodeRow r h ws

/-- A header word from its fields (R82). -/
def headerWord (op : Op) (a b : Byte) (f : Bool) : Word :=
  0#7 ++ BitVec.ofBool f ++ b ++ a ++ op.code

/-- A count or length operand word (R83). -/
def lengthWord (n : Nat) : Word := BitVec.ofNat 32 n

/-- The packet of a command (R82 to R86); `RPK` puts `new_w` in `A` and `old_w` in `B` (R93). -/
def encode : Instr → Packet
  | .bits v => [headerWord .bits 0 0 false, v]
  | .maxr w => [headerWord .maxr w 0 false]
  | .enc w vs => headerWord .enc w 0 false :: lengthWord vs.length :: vs
  | .dec1 w i bs => headerWord .dec1 w 0 false :: i :: lengthWord bs.length :: packBytes bs
  | .deca w n bs => headerWord .deca w 0 false :: n :: lengthWord bs.length :: packBytes bs
  | .wr1 w i v bs => headerWord .wr1 w 0 false :: i :: v :: lengthWord bs.length :: packBytes bs
  | .rpk oldW newW n bs => headerWord .rpk newW oldW false :: n :: lengthWord bs.length :: packBytes bs
  | .idx i => [headerWord .idx 0 0 false, i]
  | .get i => [headerWord .get 0 0 false, i]
  | .len => [headerWord .len 0 0 false]
  | .isemp => [headerWord .isemp 0 0 false]
  | .bytelen => [headerWord .bytelen 0 0 false]
  | .binfo b => [headerWord .binfo 0 0 false, b]
  | .new => [headerWord .new 0 0 false]
  | .push v => [headerWord .push 0 0 false, v]
  | .pop => [headerWord .pop 0 0 false]
  | .build vs => headerWord .build 0 0 false :: lengthWord vs.length :: vs
  | .copen own => [headerWord .copen 0 0 own]
  | .cnext => [headerWord .cnext 0 0 false]
  | .cclose => [headerWord .cclose 0 0 false]
  | .cstat => [headerWord .cstat 0 0 false]
  | .exportImage => [headerWord .exportImage 0 0 false]
  | .importImage bs => headerWord .importImage 0 0 false :: lengthWord bs.length :: packBytes bs

/-- The pseudo-command `EXTEND [v0, ..., v(n-1)]`: the packets `PUSH v0`, ..., `PUSH v(n-1)` in that order (R94). -/
def expandExtend (vs : List Word) : List Packet := vs.map (fun v => encode (.push v))

/-- The first `k` words of the number `w`, word 0 its low 32 bits. -/
def wordsOfNat (k w : Nat) : List Word := (List.range k).map (fun j => BitVec.ofNat 32 (w >>> (32 * j)))

/-- The words `ws`, lengthened with zero words to at least `k` words. -/
def zeroExtendWords (k : Nat) (ws : List Word) : List Word := ws ++ List.replicate (k - ws.length) 0#32

/-- The packet whose bits, from the first word's least significant bit on, are the low `nbits` bits of `w`, every operand
word the number does not reach being 0 (log 17). -/
def tablePacket (nbits w : Nat) : Packet :=
  let given := wordsOfNat (max 1 ((nbits + 31) / 32)) (w % 2 ^ nbits)
  match rowOf (given.getD 0 0) with
  | none => given
  | some r =>
    let fw := r.fmt.fixedWords
    let withOperands := zeroExtendWords (1 + fw) given
    zeroExtendWords (1 + fw + r.fmt.payloadWords (countWord r.fmt (withOperands.drop 1))) withOperands

/-- The command the decoder reads from an opcode-table row's bits `w`. -/
def decodeTableWord (nbits w : Nat) : Option Instr :=
  match decode (tablePacket nbits w) with
  | .ok i => some i
  | .error _ => none

end Sys2Proof
end

