-- ==== Sys2Proof/Config.lean ====
section
/-! DEFINITION. What a build of the core fixes and the spec leaves open: the parameter `NB_MAX` (00_scope.md R6,
decision D8) and the values of unspecified cache entries (44_cursor.md R232, R236). Both are opaque and have no body,
so nothing proved about the model leans on a value of them. The closed parameters of R6 (`C` = 256, `W_MAX` = 32,
`SLOT_BYTES` = 1024, `HDR_BYTES` = 3, the codec limits 256 and 1024) stand as the numerals the spec's pseudocode writes. -/

namespace Sys2Proof.Config

/-- An unconstrained number; `nbMax` brings it into the range R6 gives. -/
opaque nbMaxSeed : Nat

/-- `NB_MAX`, the number of block slots: some number with `1 ≤ NB_MAX ≤ 2^21` (00_scope.md R6, D8: OPEN; log 1). -/
def nbMax : Nat := nbMaxSeed % 2097152 + 1

/-- The value entry `k` of `CACHE` holds when it becomes unspecified for the `n`-th time (R232, R236; free value, log 9). -/
opaque freeCache (n k : Nat) : Word

end Sys2Proof.Config
end

