-- ==== Sys2Proof/Machine/State.lean ====
section
/-! DEFINITION. The state of the core as plain data (10_state.md R22), its stops, and the state after reset (R38). -/

namespace Sys2Proof.Machine

/-- Why the machine stops. The spec's own failures are statuses in a response and never stop it (60_exceptions.md R280);
these stops answer only states that break the invariants of 10_state.md R33 to R35, for which R36 and
93_implementation_defined.md U7 give no next state (log 10). -/
inductive Fault where
  /-- A read of the RAM byte at `addr`, which holds no specified value (R38, R52: "never read"). Raised by the commands
  that read a buffer; safe. -/
  | ramUnspecified (addr : Nat)
  /-- An access to an address at or above `NB_MAX * 1024`, which does not exist (R50). Raised by the commands that read
  or write a buffer; safe. -/
  | ramNoAddress (addr : Nat)
  /-- A descriptor outside `WIDTH ≤ 32`, `OCC ≤ 256` (R25, R26), or an occupancy of 0 where a live block must have an
  element (R33 (b)). Raised by the commands that read a buffer; safe. -/
  | badDescriptor (block : Nat)
  /-- A buffer larger than its slot of 1024 bytes (R51). Raised by the commands that write a buffer; safe. -/
  | slotOverflow (block : Nat)
  /-- `LEN` is not 0 and there is no last block (R23, R33 (d)). Raised by `POP`; safe. -/
  | noLastBlock
  /-- `C_POS` names no entry of `CACHE` (R30, R35 (b)). Raised by `CNEXT`; safe. -/
  | noCacheEntry (pos : Nat)
  deriving DecidableEq, Repr

/-- Why an instruction has no meaning. -/
inductive Refusal where
  /-- Raised by an arm of `exec` whose instruction has no meaning yet; safe. No arm does. -/
  | notModelled (mnemonic : String)
  deriving DecidableEq, Repr

/-- What the host does to the core (30_encoding.md R81, 70_reset_and_hazards.md R310). -/
inductive HostEvent where
  /-- A whole packet arrives at the command port. -/
  | packet (p : Packet)
  /-- A reset between commands. -/
  | reset
  /-- A reset while the packet `p` is in flight: `p` is the command being executed, or the words of it received so far
  (70_reset_and_hazards.md R312; log 13). -/
  | resetDuring (p : Packet)
  deriving DecidableEq, Repr

/-- The block RAM: the bytes that hold a specified value, by address, addresses strictly rising (20_memory.md R50). An
address that is not listed holds no specified value (R38, R52; log 7). -/
abbrev Memory := List Host.Cell

/-- The whole state: the table of 10_state.md R22, and four fields of the model's own (`nbMax`, `freeCtr`, `inQ`, `outQ`). -/
structure State where
  /-- The build's parameter `NB_MAX` (00_scope.md R6); no step writes it (log 1). -/
  nbMax : Nat
  /-- `NBLK` (R23). -/
  nblk : BitVec 22
  /-- `LEN` (R24). -/
  len : BitVec 32
  /-- `WIDTH[]` (R25), by block number; an entry that is not listed holds 0 (log 5). -/
  width : List (Nat × BitVec 6)
  /-- `OCC[]` (R26), by block number; an entry that is not listed holds 0 (log 5). -/
  occ : List (Nat × BitVec 9)
  /-- `RAM[]` (R27). -/
  ram : Memory
  /-- `C_OPEN` (R28). -/
  cOpen : Bool
  /-- `C_OWN` (R28). -/
  cOwn : Bool
  /-- `C_BLK` (R29). -/
  cBlk : BitVec 22
  /-- `C_CNT` (R29). -/
  cCnt : BitVec 9
  /-- `C_POS` (R29). -/
  cPos : BitVec 9
  /-- `C_BITOFF` (R29). -/
  cBitoff : BitVec 14
  /-- `CACHE[]` (R30). -/
  cache : Vector Word 256
  /-- How many times cache entries have become unspecified (log 9). -/
  freeCtr : Nat
  /-- The host's events the core has not taken yet, oldest first (R81, R60; log 2). -/
  inQ : List HostEvent
  /-- The responses produced, oldest first (R61, R91; log 2). -/
  outQ : List Packet
  deriving DecidableEq, Repr

/-- The state after reset of a build with `n` block slots (R38, R310): no block, no cursor, all counters 0. The values of
`WIDTH`, `OCC` and `CACHE` are the model's (logs 5, 6). -/
def State.resetOf (n : Nat) : State where
  nbMax := n
  nblk := 0
  len := 0
  width := []
  occ := []
  ram := []
  cOpen := false
  cOwn := false
  cBlk := 0
  cCnt := 0
  cPos := 0
  cBitoff := 0
  cache := Vector.replicate 256 0
  freeCtr := 0
  inQ := []
  outQ := []

/-- The machine right after reset, of a build with an arbitrary `NB_MAX` (R6, R38). -/
def State.reset : State := State.resetOf Config.nbMax

end Sys2Proof.Machine
end

