-- ==== Sys2Proof/Machine/Flags.lean ====
section
/-! DEFINITION. The core has no condition codes: a command's outcome is the status of its response (60_exceptions.md R281,
R283), and the only persistent flags are `C_OPEN` and `C_OWN` (10_state.md R28). This file holds the statuses, the response
header, the lifecycle gates computed from the two flags, the flag word of `CSTAT` and the reader's state (44_cursor.md R235). -/

namespace Sys2Proof.Machine

/-- The statuses of a response (R283). -/
inductive Status where
  | ok | none | eRange | eIndex | eMalformed | eOpcode | eFormat | eWidth | eBounds | eLimit | eFull | eBorrowed | eMoved
  | eNoCursor | eCBusy
  deriving DecidableEq, Repr

/-- The status numbers (R283). -/
def Status.code : Status → Byte
  | .ok => 0x00#8
  | .none => 0x01#8
  | .eRange => 0x10#8
  | .eIndex => 0x11#8
  | .eMalformed => 0x12#8
  | .eOpcode => 0x20#8
  | .eFormat => 0x21#8
  | .eWidth => 0x22#8
  | .eBounds => 0x23#8
  | .eLimit => 0x24#8
  | .eFull => 0x25#8
  | .eBorrowed => 0x26#8
  | .eMoved => 0x27#8
  | .eNoCursor => 0x28#8
  | .eCBusy => 0x29#8

/-- The status of a packet the decoder rejects (R291, R292). -/
def failStatus : DecodeFail → Status
  | .opcode => .eOpcode
  | .format => .eFormat

/-- The response header: `ST` in `[7:0]`, the echoed `OP` in `[15:8]`, the rest 0 (30_encoding.md R91). -/
def rspHeader (ope : Byte) (st : Status) : Word := 0#16 ++ ope ++ st.code

/-- The read gate: what refuses a store read (42_index_access.md R188). -/
def readGate (s : State) : Option Status :=
  if s.cOpen && s.cOwn then some .eMoved else Option.none

/-- The mutation gate: what refuses a store-changing command (43_store_mutation.md R200). -/
def mutationGate (s : State) : Option Status :=
  if s.cOpen && s.cOwn then some .eMoved
  else if s.cOpen then some .eBorrowed
  else Option.none

/-- `C_OPEN | (C_OWN << 1)`, the first body word of `CSTAT` (30_encoding.md R92, 44_cursor.md R237). -/
def cursorFlags (s : State) : Word :=
  (BitVec.ofBool s.cOpen).setWidth 32 ||| ((BitVec.ofBool s.cOwn).setWidth 32 <<< 1)

/-- The states of the reader (44_cursor.md R235). -/
inductive ReaderState where
  | closed | serving | blockEnd | exhausted
  deriving DecidableEq, Repr

/-- The reader's state is a function of its registers and of `NBLK` (R235). An open cursor with `C_POS > C_CNT`, which R35 (b)
rules out, is in no state of R235's table: that it counts as `BLOCK_END` or `EXHAUSTED` here is the model's choice (DESIGN
CHOICE, unsafe, log 10), and `CNEXT` follows its own pseudocode (R234), not this classification. -/
def readerState (s : State) : ReaderState :=
  if s.cOpen = false then .closed
  else if s.cPos.toNat < s.cCnt.toNat then .serving
  else if s.cBlk.toNat + 1 < s.nblk.toNat then .blockEnd
  else .exhausted

end Sys2Proof.Machine
end

