-- ==== Sys2Proof/Machine/Operands.lean ====
section
/-! DEFINITION. Operand forms that more than one command uses: the index split and bit offset of unit U3
(42_index_access.md R180, R181) and the access window of a field (20_memory.md R56, 41_codec.md R141). The operand words,
the width fields and the byte payload of a packet are assembled by `Sys2Proof.assemble` (30_encoding.md R89). -/

namespace Sys2Proof.Machine

/-- `ceil(bits / 8)`: the whole bytes that hold that many bits (00_scope.md R8). -/
def bytesFor (bits : Nat) : Nat := (bits + 7) / 8

/-- `block(i) = i div 256` (R180). -/
def blockIndex (i : Word) : Nat := i.toNat / 256

/-- `offset(i) = i mod 256` (R180). -/
def blockOffset (i : Word) : Nat := i.toNat % 256

/-- `o = i * w`, the stream bit a field starts at, over the integers (R8, R181). -/
def fieldBit (i w : Nat) : Nat := i * w

/-- `first = o div 8`, the first byte a field touches (R141). -/
def fieldFirst (i w : Nat) : Nat := fieldBit i w / 8

/-- `sh = o mod 8`, where the field starts in that byte (R141). -/
def fieldShift (i w : Nat) : Nat := fieldBit i w % 8

/-- `nb = ceil((sh + w) / 8)`, the bytes a field touches, 0 to 5 (R56, R141). -/
def fieldBytes (i w : Nat) : Nat := bytesFor (fieldShift i w + w)

/-- `in_bounds` for a sequence of `l` bytes: the field lies inside it (R141). -/
def inBounds (l i w : Nat) : Bool := decide ((i + 1) * w ≤ 8 * l)

/-- `N(bs)`: the bytes read as one little-endian number (20_memory.md R53, R55). -/
def leNum : List Byte → Nat
  | [] => 0
  | x :: xs => x.toNat + 256 * leNum xs

/-- The low `n` bytes of a number, least significant first (R55). -/
def leBytes : Nat → Nat → List Byte
  | 0, _ => []
  | n + 1, v => BitVec.ofNat 8 v :: leBytes n (v / 256)

/-- Stream bit `p` of a packed byte sequence: bit `p mod 8` of byte `p div 8` (R53). -/
def streamBit (bs : List Byte) (p : Nat) : Bool := (bs.getD (p / 8) 0).getLsbD (p % 8)

/-- `zeros(n)` (00_scope.md R9). -/
def zeros (n : Nat) : List Byte := List.replicate n 0#8

end Sys2Proof.Machine
end

