-- ==== Sys2Proof/Machine/Ops.lean ====
section
/-! DEFINITION. The named operations over the state: answering a command (30_encoding.md R91), `raise`, which is all that
"taking an exception" is on this core (60_exceptions.md R280, R282, R302: a status in the response, no state saved, nothing to
return from), the descriptor table, the block RAM and its slots (20_memory.md R50 to R56), the store's counters, the cursor
registers, the command port and reset (70_reset_and_hazards.md R310). -/

namespace Sys2Proof.Machine

/-! ### Answering a command -/

/-- The response packet `[ST | OPE << 8] ++ body` joins the responses, last (R61, R91). -/
def respond (ope : Byte) (st : Status) (body : List Word) (s : State) : State :=
  { s with outQ := s.outQ ++ [rspHeader ope st :: body] }

/-- `raise E`: the command ends, no other state changes, the response is the header alone (R282). -/
def raise (op : Op) (e : Status) (s : State) : Host.Outcome State Fault Refusal := .next (respond op.code e [] s)

/-- The result `NONE`: no state changes, the response is the header alone (R282, R287). -/
def answerNone (op : Op) (s : State) : Host.Outcome State Fault Refusal := .next (respond op.code .none [] s)

/-- `respond OK, body` (00_scope.md R9). -/
def answerOk (op : Op) (body : List Word) (s : State) : Host.Outcome State Fault Refusal := .next (respond op.code .ok body s)

/-- The end of a command whose effect reads the block RAM: its answer, or the stop of a state outside the invariants. -/
def finish (op : Op) (r : Except Fault (State × List Word)) : Host.Outcome State Fault Refusal :=
  match r with
  | .ok (s, body) => answerOk op body s
  | .error f => .fault f

/-- A byte sequence in a response body: its length word, then its payload words (R92). -/
def bytesBody (bs : List Byte) : List Word := lengthWord bs.length :: packBytes bs

/-- A Value sequence in a response body: its count word, then the Values (R92). -/
def valuesBody (vs : List Word) : List Word := lengthWord vs.length :: vs

/-! ### Tables by index -/

/-- The entry listed under a key. -/
def cellAt {α : Type} : List (Nat × α) → Nat → Option α
  | [], _ => none
  | (k, x) :: t, a => if k = a then some x else cellAt t a

/-- The value of a table at a key; an entry that is not listed holds `d`. -/
def tableGet {α : Type} (d : α) (t : List (Nat × α)) (k : Nat) : α := (cellAt t k).getD d

/-- The table with `x` at key `k`; a value equal to `d` is not listed. -/
def tableSet {α : Type} [DecidableEq α] (d : α) (t : List (Nat × α)) (k : Nat) (x : α) : List (Nat × α) :=
  t.filter (fun c => c.1 < k) ++ ((if x = d then [] else [(k, x)]) ++ t.filter (fun c => k < c.1))

/-- The keys rise strictly. -/
def keysRise {α : Type} : List (Nat × α) → Bool
  | [] => true
  | c :: t => t.all (fun c' => c.1 < c'.1) && keysRise t

/-- The canonical form of a table: keys strictly rising, no listed entry equal to `d`. -/
def tableWf {α : Type} [DecidableEq α] (d : α) (t : List (Nat × α)) : Bool :=
  keysRise t && t.all (fun c => c.2 ≠ d)

/-! ### The descriptor table (R25, R26) -/

/-- `WIDTH[b]`. -/
def widthAt (s : State) (b : Nat) : Nat := (tableGet 0 s.width b).toNat

/-- `OCC[b]`. -/
def occAt (s : State) (b : Nat) : Nat := (tableGet 0 s.occ b).toNat

/-- `WIDTH[b] <- w`. -/
def setWidth (b w : Nat) (s : State) : State := { s with width := tableSet 0 s.width b (BitVec.ofNat 6 w) }

/-- `OCC[b] <- k`. -/
def setOcc (b k : Nat) (s : State) : State := { s with occ := tableSet 0 s.occ b (BitVec.ofNat 9 k) }

/-- `NBLK <- n` (R23). -/
def setNblk (n : Nat) (s : State) : State := { s with nblk := BitVec.ofNat 22 n }

/-- `LEN <- n` (R24). -/
def setLen (n : Nat) (s : State) : State := { s with len := BitVec.ofNat 32 n }

/-- `BLEN(b) = ceil(OCC[b] * WIDTH[b] / 8)` (10_state.md R32). -/
def blen (s : State) (b : Nat) : Nat := bytesFor (occAt s b * widthAt s b)

/-! ### The block RAM (20_memory.md R50 to R56) -/

/-- The canonical form of the block RAM: addresses strictly rising. An unlisted address reads as no value, so no listed
byte equals it (log 7). -/
def Memory.wf (m : Memory) : Bool := keysRise m

/-- One byte of the block RAM (R50). -/
def ramByte (s : State) (a : Nat) : Except Fault Byte :=
  if s.nbMax ≤ a / 1024 then .error (.ramNoAddress a)
  else
    match cellAt s.ram a with
    | some x => .ok x
    | none => .error (.ramUnspecified a)

/-- The `n` bytes at addresses `a .. a+n-1`. -/
def ramBytes (s : State) (a : Nat) : Nat → Except Fault (List Byte)
  | 0 => .ok []
  | n + 1 => do
    let x ← ramByte s a
    let xs ← ramBytes s (a + 1) n
    return x :: xs

/-- `MemRead(addr, n)`: those bytes as one little-endian number (00_scope.md R9, R56). -/
def memRead (s : State) (a n : Nat) : Except Fault Nat := do
  let xs ← ramBytes s a n
  return leNum xs

/-- Bytes laid at consecutive addresses from `a` on. -/
def cellsFrom : Nat → List Byte → List Host.Cell
  | _, [] => []
  | a, x :: xs => (a, x) :: cellsFrom (a + 1) xs

/-- The block RAM after the slot of block `b` is written with a buffer: byte `k` at `b*1024 + k` (R51), the slot's bytes
above the buffer unspecified, that is, no longer listed (R52; log 8), every byte outside the slot as before. -/
def slotWrite (m : Memory) (b : Nat) (bs : List Byte) : Memory :=
  m.filter (fun c => c.1 < b * 1024) ++ (cellsFrom (b * 1024) bs ++ m.filter (fun c => b * 1024 + 1024 ≤ c.1))

/-- `BUF[b] <- bs` (R52). -/
def storeBuf (b : Nat) (bs : List Byte) (s : State) : Except Fault State :=
  if s.nbMax ≤ b then .error (.ramNoAddress (b * 1024))
  else if 1024 < bs.length then .error (.slotOverflow b)
  else .ok { s with ram := slotWrite s.ram b bs }

/-- `BUF[b]`, the first `BLEN(b)` bytes of the slot (R52). -/
def buf (s : State) (b : Nat) : Except Fault (List Byte) :=
  if 32 < widthAt s b ∨ 256 < occAt s b then .error (.badDescriptor b)
  else ramBytes s (b * 1024) (blen s b)

/-- A block's width, occupancy and buffer, as a value outside the state (R263: "a list of (w, occ, bs), outside the
state"). -/
structure Block where
  width : Nat
  occ : Nat
  buf : List Byte
  deriving DecidableEq, Repr

/-- `WIDTH[b], OCC[b], BUF[b] <- block` (R206, R263). -/
def storeBlock (b : Nat) (blk : Block) (s : State) : Except Fault State := do
  let s1 ← storeBuf b blk.buf s
  return setOcc b blk.occ (setWidth b blk.width s1)

/-- The blocks go to the slots `b`, `b+1`, ... in order (R206, R263). -/
def storeBlocks : Nat → List Block → State → Except Fault State
  | _, [], s => .ok s
  | b, blk :: rest, s => do
    let s1 ← storeBlock b blk s
    storeBlocks (b + 1) rest s1

/-- `Σ occ` over a list of blocks (R263). -/
def totalOcc : List Block → Nat
  | [] => 0
  | blk :: rest => blk.occ + totalOcc rest

/-- The store becomes exactly these blocks: slots `0 ..` written, then `NBLK` and `LEN` (R206, R263). -/
def replaceStore (blocks : List Block) (s : State) : Except Fault State := do
  let s1 ← storeBlocks 0 blocks s
  return setLen (totalOcc blocks) (setNblk blocks.length s1)

/-- `NBLK <- 0; LEN <- 0`: no block is live; descriptors and RAM keep their bits (R201, R236). -/
def emptyStore (s : State) : State := setLen 0 (setNblk 0 s)

/-! ### The cursor registers (R28 to R30) -/

/-- `C_BLK, C_CNT, C_POS, C_BITOFF` all written (R232, R233, R236). -/
def setCounters (blk cnt pos bitoff : Nat) (s : State) : State :=
  { s with
    cBlk := BitVec.ofNat 22 blk
    cCnt := BitVec.ofNat 9 cnt
    cPos := BitVec.ofNat 9 pos
    cBitoff := BitVec.ofNat 14 bitoff }

/-- `C_OPEN, C_OWN` (R28). -/
def setCursor (isOpen own : Bool) (s : State) : State := { s with cOpen := isOpen, cOwn := own }

/-- `CACHE` after its first entries are the Values `vs` and every other entry becomes unspecified: a free value (R232, R236;
log 9). -/
def cacheWith (vs : List Word) (n : Nat) : Vector Word 256 :=
  ⟨⟨(List.range 256).map (fun k => vs.getD k (Config.freeCache n k))⟩, by simp⟩

/-- `CACHE[0 .. len(vs)-1] <- vs`, the entries above unspecified (R232). -/
def setCache (vs : List Word) (s : State) : State :=
  { s with cache := cacheWith vs s.freeCtr, freeCtr := s.freeCtr + 1 }

/-! ### The command port and reset -/

/-- The oldest event the host has presented, and the state without it (30_encoding.md R81, 20_memory.md R60). -/
def takeEvent (s : State) : Option (HostEvent × State) :=
  match s.inQ with
  | [] => none
  | e :: rest => some (e, { s with inQ := rest })

/-- The opcode a response echoes: the header's low byte, or 0 for an empty packet (R91). -/
def echoOf : Packet → Byte
  | [] => 0
  | h :: _ => fieldOp h

/-- A packet the decoder rejects is answered with the failure's status and changes no state (R88, R90, R91). -/
def rejectPacket (p : Packet) (e : DecodeFail) (s : State) : Host.Outcome State Fault Refusal :=
  .next (respond (echoOf p) (failStatus e) [] s)

/-- A reset (R310, R312): the state of R38. The build's `NB_MAX`, the events the host presents afterwards, the responses it
has already had and the count of free values are not the core's to reset (log 13). -/
def applyReset (s : State) : State :=
  { State.resetOf s.nbMax with freeCtr := s.freeCtr, inQ := s.inQ, outQ := s.outQ }

/-- A packet in flight when reset occurs is abandoned: taken, not answered, and whatever of it was done is wiped by the reset
state (R312, decision D27; `Sys2Proof.Machine.applyReset_wipes`). -/
def abandonPacket (_inFlight : Packet) (s : State) : State := applyReset s

end Sys2Proof.Machine
end

