-- ==== Sys2Proof/Machine/BitWidth.lean ====
section
/-! DEFINITION. Unit U1, the bit-width calculator, and its commands `BITS` and `MAXR` (40_bitwidth.md). -/

namespace Sys2Proof.Machine

/-- The zero bits of `v` from bit `n-1` downward, up to the first one bit. -/
def zerosFrom (v : Word) : Nat → Nat
  | 0 => 0
  | n + 1 => if v.getLsbD n then 0 else zerosFrom v n + 1

/-- `clz32(v)`: the zero bits of `v` from bit 31 downward; `clz32(0) = 32` (R121). -/
def clz32 (v : Word) : Nat := zerosFrom v 32

/-- `bits_needed(v)` (R122). -/
def bitsNeeded (v : Word) : Nat := if v = 0 then 0 else 32 - clz32 v

/-- `max_representable(w) = 2^w - 1` (R125). -/
def maxRepresentable (w : Nat) : Nat := 2 ^ w - 1

/-- `fits(v, w)`: `v ≤ max_representable(w)` (R126). -/
def fits (v : Word) (w : Nat) : Bool := decide (v.toNat ≤ maxRepresentable w)

/-- The largest of a sequence of Values, 0 for none (R127 (d), R206). -/
def maxValue (vs : List Word) : Word := vs.foldr (fun v m => if m.toNat ≤ v.toNat then v else m) 0

/-- One stage of the reference circuit: if the top `n` bits of `p.2` are zero, count `n` and shift them out (R128). -/
def clzStage (n : Nat) (p : Nat × Word) : Nat × Word :=
  if p.2 >>> (32 - n) = 0 then (p.1 + n, p.2 <<< n) else p

/-- The reference circuit `clz32_ref`: five stages of a binary search (R128, not normative). -/
def clz32Ref (v : Word) : Nat :=
  if v = 0 then 32
  else (clzStage 1 (clzStage 2 (clzStage 4 (clzStage 8 (clzStage 16 (0, v)))))).1

/-- `BITS v` (R123). -/
def execBits (v : Word) (s : State) : Host.Outcome State Fault Refusal :=
  answerOk .bits [BitVec.ofNat 32 (bitsNeeded v)] s

/-- `MAXR w` (R124). -/
def execMaxr (w : Byte) (s : State) : Host.Outcome State Fault Refusal :=
  if 32 < w.toNat then raise .maxr .eWidth s
  else answerOk .maxr [BitVec.ofNat 32 (maxRepresentable w.toNat)] s

end Sys2Proof.Machine
end

