-- ==== Sys2Proof/Machine/Codec.lean ====
section
/-! DEFINITION. Unit U2, the block codec, and its commands `ENC`, `DEC1`, `DECA`, `WR1`, `RPK` (41_codec.md). -/

namespace Sys2Proof.Machine

/-! ### The functions (R142 to R148) -/

/-- `Σ_k values[k] << (k*w)` (R142). -/
def packNum (w : Nat) : List Word → Nat
  | [] => 0
  | v :: vs => v.toNat + packNum w vs * 2 ^ w

/-- `encode_all(values, w)` (R142), of at most 4 bytes a Value (R149 (e)). -/
def encodeAll (vs : List Word) (w : Nat) : List Byte := leBytes (bytesFor (vs.length * w)) (packNum w vs)

/-- The window of at most five bytes a field lies in, as a number below `2^40` (R56, R144). -/
def windowOf (bs : List Byte) : BitVec 40 := BitVec.ofNat 40 (leNum bs)

/-- The mask `M = max_representable(w)` over the 40 bits of a window (R141). -/
def fieldMask (w : Nat) : BitVec 40 := BitVec.ofNat 40 (maxRepresentable w)

/-- `(win >> sh) & M` (R144). -/
def extractField (win : BitVec 40) (sh w : Nat) : Word := ((win >>> sh) &&& fieldMask w).setWidth 32

/-- `(win & ~(M << sh)) | (v << sh)`, over 40 bits (R147). -/
def insertField (win : BitVec 40) (sh w : Nat) (v : Word) : BitVec 40 :=
  (win &&& ~~~(fieldMask w <<< sh)) ||| (v.setWidth 40 <<< sh)

/-- `decode_one(bs, i, w)` (R144). -/
def decodeOne (bs : List Byte) (i w : Nat) : Word :=
  extractField (windowOf ((bs.drop (fieldFirst i w)).take (fieldBytes i w))) (fieldShift i w) w

/-- `decode_all(bs, count, w)` (R146), the inverse of `encode_all` on Values that fit (R149 (a)). -/
def decodeAll (bs : List Byte) (count w : Nat) : List Word := (List.range count).map (fun k => decodeOne bs k w)

/-- `write_one(bs, i, w, v)` (R147). -/
def writeOne (bs : List Byte) (i w : Nat) (v : Word) : List Byte :=
  let first := fieldFirst i w
  let nb := fieldBytes i w
  let win := windowOf ((bs.drop first).take nb)
  bs.take first ++ (leBytes nb (insertField win (fieldShift i w) w v).toNat ++ bs.drop (first + nb))

/-- `repack(old, old_count, old_w, new_w)` (R148), which keeps the decoded Values when they fit the new width (R149 (c)). -/
def repack (old : List Byte) (count oldW newW : Nat) : List Byte := encodeAll (decodeAll old count oldW) newW

/-- The canonical form of `bs` for `(n, w)`: its first `ceil(n*w/8)` bytes with the padding bits cleared; `bs` is canonical when
it is its own (R149 (b), R148 with `new_w = old_w`). -/
def canonicalForm (bs : List Byte) (n w : Nat) : List Byte := repack bs n w w

/-- `g = ceil((n+1)*w/8) - ceil(n*w/8)`: the bytes a packed sequence of `n` elements grows by for one more (R149 (d), R203). -/
def growBytes (n w : Nat) : Nat := bytesFor ((n + 1) * w) - bytesFor (n * w)

/-- Append by grow-and-write: the bytes lengthened with zeros, then field `n` written (R149 (d), R203). -/
def growAndWrite (bs : List Byte) (n w : Nat) (v : Word) : List Byte := writeOne (bs ++ zeros (growBytes n w)) n w v

/-- Every Value fits the width (R143). -/
def allFit (vs : List Word) (w : Nat) : Bool := vs.all (fun v => fits v w)

/-! ### The commands (R150 to R154) -/

/-- `ENC w, [v0 .. v(n-1)]` (R150). -/
def execEnc (w : Byte) (vs : List Word) (s : State) : Host.Outcome State Fault Refusal :=
  if 32 < w.toNat then raise .enc .eWidth s
  else if 256 < vs.length then raise .enc .eLimit s
  else if !allFit vs w.toNat then raise .enc .eRange s
  else answerOk .enc (bytesBody (encodeAll vs w.toNat)) s

/-- `DEC1 w, i, {bytes}` (R151). -/
def execDec1 (w : Byte) (i : Word) (bs : List Byte) (s : State) : Host.Outcome State Fault Refusal :=
  if 32 < w.toNat then raise .dec1 .eWidth s
  else if 1024 < bs.length then raise .dec1 .eLimit s
  else if !inBounds bs.length i.toNat w.toNat then raise .dec1 .eBounds s
  else answerOk .dec1 [decodeOne bs i.toNat w.toNat] s

/-- `DECA w, n, {bytes}` (R152). -/
def execDeca (w : Byte) (n : Word) (bs : List Byte) (s : State) : Host.Outcome State Fault Refusal :=
  if 32 < w.toNat then raise .deca .eWidth s
  else if 256 < n.toNat ∨ 1024 < bs.length then raise .deca .eLimit s
  else if 8 * bs.length < n.toNat * w.toNat then raise .deca .eBounds s
  else answerOk .deca (valuesBody (decodeAll bs n.toNat w.toNat)) s

/-- `WR1 w, i, v, {bytes}` (R153). -/
def execWr1 (w : Byte) (i v : Word) (bs : List Byte) (s : State) : Host.Outcome State Fault Refusal :=
  if 32 < w.toNat then raise .wr1 .eWidth s
  else if 1024 < bs.length then raise .wr1 .eLimit s
  else if !inBounds bs.length i.toNat w.toNat then raise .wr1 .eBounds s
  else if !fits v w.toNat then raise .wr1 .eRange s
  else answerOk .wr1 (bytesBody (writeOne bs i.toNat w.toNat v)) s

/-- `RPK old_w, new_w, n, {bytes}` (R154). -/
def execRpk (oldW newW : Byte) (n : Word) (bs : List Byte) (s : State) : Host.Outcome State Fault Refusal :=
  if 32 < newW.toNat ∨ 32 < oldW.toNat then raise .rpk .eWidth s
  else if 256 < n.toNat ∨ 1024 < bs.length then raise .rpk .eLimit s
  else if 8 * bs.length < n.toNat * oldW.toNat then raise .rpk .eBounds s
  else if !allFit (decodeAll bs n.toNat oldW.toNat) newW.toNat then raise .rpk .eRange s
  else answerOk .rpk (bytesBody (repack bs n.toNat oldW.toNat newW.toNat)) s

end Sys2Proof.Machine
end

