-- ==== Sys2Proof/Machine/Cursor.lean ====
section
/-! DEFINITION. Unit U4, the buffered sequential reader, and its commands `COPEN`, `CNEXT`, `CCLOSE`, `CSTAT`
(44_cursor.md). -/

namespace Sys2Proof.Machine

/-- `fill(b)`: decode the whole block once into the cache (R232). -/
def fill (b : Nat) (s : State) : Except Fault State := do
  let bs ← buf s b
  return setCounters b (occAt s b) 0 0 (setCache (decodeAll bs (occAt s b) (widthAt s b)) s)

/-- Serve `CACHE[C_POS]` and advance (R234). -/
def serve (s : State) : Except Fault (State × List Word) :=
  if h : s.cPos.toNat < 256 then
    .ok (setCounters s.cBlk.toNat s.cCnt.toNat (s.cPos.toNat + 1) (s.cBitoff.toNat + widthAt s s.cBlk.toNat) s,
      [s.cache[s.cPos.toNat]])
  else .error (.noCacheEntry s.cPos.toNat)

/-- The reader's registers at a construction: the first block decoded, or all counters 0 on an empty store (R233). -/
def openReader (s : State) : Except Fault State :=
  if 0 < s.nblk.toNat then fill 0 s else .ok (setCounters 0 0 0 0 s)

/-- `COPEN.REF` / `COPEN.OWN` (R233). -/
def execCopen (own : Bool) (s : State) : Host.Outcome State Fault Refusal :=
  if s.cOpen then raise .copen .eCBusy s
  else
    finish .copen do
      let s1 ← openReader (setCursor true own s)
      return (s1, [])

/-- `CNEXT` (R234). -/
def execCnext (s : State) : Host.Outcome State Fault Refusal :=
  if s.cOpen = false then raise .cnext .eNoCursor s
  else if s.cPos = s.cCnt then
    if s.cBlk.toNat + 1 < s.nblk.toNat then
      finish .cnext do
        let s1 ← fill (s.cBlk.toNat + 1) s
        serve s1
    else answerNone .cnext s
  else finish .cnext (serve s)

/-- `CCLOSE` (R236). -/
def execCclose (s : State) : Host.Outcome State Fault Refusal :=
  if s.cOpen = false then raise .cclose .eNoCursor s
  else
    answerOk .cclose []
      (setCache [] (setCounters 0 0 0 0 (setCursor false false (if s.cOwn then emptyStore s else s))))

/-- `CSTAT` (R237). -/
def execCstat (s : State) : Host.Outcome State Fault Refusal :=
  answerOk .cstat
    [cursorFlags s, s.cBlk.setWidth 32, s.cPos.setWidth 32, s.cCnt.setWidth 32, s.cBitoff.setWidth 32] s

end Sys2Proof.Machine
end

