-- ==== Sys2Proof/Machine/Image.lean ====
section
/-! DEFINITION. The serialized block-store image and its commands `EXPORT` and `IMPORT` (45_image.md). -/

namespace Sys2Proof.Machine

/-- `record(b) = [ WIDTH[b], OCC[b] & 0xFF, OCC[b] >> 8 ] ++ BUF[b]` (R260). -/
def recordBytes (blk : Block) : List Byte :=
  BitVec.ofNat 8 blk.width :: BitVec.ofNat 8 blk.occ :: BitVec.ofNat 8 (blk.occ / 256) :: blk.buf

/-- Block `b` of the store as a value (R32). -/
def loadBlock (s : State) (b : Nat) : Except Fault Block := do
  let bs ← buf s b
  return ⟨widthAt s b, occAt s b, bs⟩

/-- The first `n` blocks of the store, in block order. -/
def loadBlocks (s : State) : Nat → Except Fault (List Block)
  | 0 => .ok []
  | n + 1 => do
    let before ← loadBlocks s n
    let blk ← loadBlock s n
    return before ++ [blk]

/-- `image = record(0) ++ ... ++ record(NBLK-1)` of a list of blocks (R260). -/
def imageOf (blocks : List Block) : List Byte := blocks.flatMap recordBytes

/-- The record loop of `IMPORT` on the bytes from `pos` on, `prev` being the occupancy of the record before, if there is one;
`none` is `E_MALFORMED` in one of the cases (a) to (f) of R263. A record has at least three bytes, so `fuel` equal to the
number of bytes is enough. -/
def parseRecords : (fuel : Nat) → (prev : Option Nat) → List Byte → Option (List Block)
  | _, _, [] => some []
  | 0, _, _ :: _ => none
  | fuel + 1, prev, w :: lo :: hi :: rest =>
    let width := w.toNat
    let occ := lo.toNat + 256 * hi.toNat
    let nbytes := bytesFor (occ * width)
    if 32 < width then none
    else if 256 < occ then none
    else if occ = 0 then none
    else if prev.any (· < 256) then none
    else if rest.length < nbytes then none
    else
      match parseRecords fuel (some occ) (rest.drop nbytes) with
      | none => none
      | some blocks => some (⟨width, occ, canonicalForm (rest.take nbytes) occ width⟩ :: blocks)
  | _ + 1, _, _ :: _ => none

/-- The blocks an image stands for, or `none` for a malformed one (R263). -/
def parseImage (d : List Byte) : Option (List Block) := parseRecords d.length none d

/-- `EXPORT` (R262). -/
def execExportImage (s : State) : Host.Outcome State Fault Refusal :=
  match readGate s with
  | some e => raise .exportImage e s
  | none =>
    finish .exportImage do
      let blocks ← loadBlocks s s.nblk.toNat
      return (s, bytesBody (imageOf blocks))

/-- `IMPORT {bytes}` (R263, R264, R265). -/
def execImportImage (d : List Byte) (s : State) : Host.Outcome State Fault Refusal :=
  match mutationGate s with
  | some e => raise .importImage e s
  | none =>
    match parseImage d with
    | none => raise .importImage .eMalformed s
    | some blocks =>
      if s.nbMax < blocks.length then raise .importImage .eFull s
      else
        finish .importImage do
          let s1 ← replaceStore blocks s
          return (s1, [])

end Sys2Proof.Machine
end

