-- ==== Sys2Proof/Machine/Index.lean ====
section
/-! DEFINITION. Unit U3, the block index and offset decoder, and the store reads `IDX`, `GET`, `LEN`, `ISEMP`, `BYTELEN`,
`BINFO` (42_index_access.md). -/

namespace Sys2Proof.Machine

/-- The element at in-block offset `k` of block `b`, through the access window at RAM address `b*1024 + first` (R181, R56,
R144). -/
def ramField (s : State) (b k : Nat) : Except Fault Word :=
  let w := widthAt s b
  if 32 < w then .error (.badDescriptor b)
  else do
    let win ← memRead s (b * 1024 + fieldFirst k w) (fieldBytes k w)
    return extractField (BitVec.ofNat 40 win) (fieldShift k w) w

/-- `Σ_{b<n} (HDR_BYTES + BLEN(b))`, `HDR_BYTES = 3` (R186). -/
def storeBytes (s : State) : Nat → Nat
  | 0 => 0
  | n + 1 => storeBytes s n + (3 + blen s n)

/-- `IDX i` (R182). -/
def execIdx (i : Word) (s : State) : Host.Outcome State Fault Refusal :=
  answerOk .idx [BitVec.ofNat 32 (blockIndex i), BitVec.ofNat 32 (blockOffset i)] s

/-- `GET i` (R183). -/
def execGet (i : Word) (s : State) : Host.Outcome State Fault Refusal :=
  match readGate s with
  | some e => raise .get e s
  | none =>
    if s.len.toNat ≤ i.toNat then raise .get .eIndex s
    else
      finish .get do
        let v ← ramField s (blockIndex i) (blockOffset i)
        return (s, [v])

/-- `LEN` (R184). -/
def execLen (s : State) : Host.Outcome State Fault Refusal :=
  match readGate s with
  | some e => raise .len e s
  | none => answerOk .len [s.len] s

/-- `ISEMP` (R185). -/
def execIsemp (s : State) : Host.Outcome State Fault Refusal :=
  match readGate s with
  | some e => raise .isemp e s
  | none => answerOk .isemp [if s.len = 0 then 1 else 0] s

/-- `BYTELEN` (R186). -/
def execBytelen (s : State) : Host.Outcome State Fault Refusal :=
  match readGate s with
  | some e => raise .bytelen e s
  | none => answerOk .bytelen [BitVec.ofNat 32 (storeBytes s s.nblk.toNat)] s

/-- `BINFO b` (R187). -/
def execBinfo (b : Word) (s : State) : Host.Outcome State Fault Refusal :=
  match readGate s with
  | some e => raise .binfo e s
  | none =>
    if s.nblk.toNat ≤ b.toNat then raise .binfo .eIndex s
    else answerOk .binfo [BitVec.ofNat 32 (widthAt s b.toNat), BitVec.ofNat 32 (occAt s b.toNat)] s

end Sys2Proof.Machine
end

