-- ==== Sys2Proof/Machine/Mutation.lean ====
section
/-! DEFINITION. The commands that change the store: `NEW`, `PUSH`, `POP`, `BUILD` (43_store_mutation.md). -/

namespace Sys2Proof.Machine

/-- `last = NBLK - 1`, meaningful only when `NBLK > 0` (R23, R32). -/
def lastBlock (s : State) : Nat := s.nblk.toNat - 1

/-- `NBLK = 0 or OCC[last] = 256`: a `PUSH` needs a new block (R202). -/
def needsBlock (s : State) : Bool := s.nblk.toNat = 0 || occAt s (lastBlock s) = 256

/-- `WIDTH[NBLK] <- 0; OCC[NBLK] <- 0; NBLK <- NBLK + 1` (R202). -/
def openBlock (s : State) : State :=
  setNblk (s.nblk.toNat + 1) (setOcc s.nblk.toNat 0 (setWidth s.nblk.toNat 0 s))

/-- The repack of block `b` when `required > WIDTH[b]` (R202). -/
def widenBlock (b required : Nat) (s : State) : Except Fault State :=
  if widthAt s b < required then do
    let bs ← buf s b
    let s1 ← storeBuf b (repack bs (occAt s b) (widthAt s b) required) s
    return setWidth b required s1
  else .ok s

/-- The append step: lengthen the buffer with zero bytes, write field `OCC[b]`, count it (R203, R202). -/
def appendValue (b : Nat) (v : Word) (s : State) : Except Fault State := do
  let k := occAt s b
  let w := widthAt s b
  let bs ← buf s b
  let s1 ← storeBuf b (growAndWrite bs k w v) s
  return setLen (s.len.toNat + 1) (setOcc b (k + 1) s1)

/-- What `PUSH v` does once a block with room is last: widen it, append (R202). -/
def pushLast (v : Word) (s : State) : Except Fault State := do
  let b := lastBlock s
  let s1 ← widenBlock b (bitsNeeded v) s
  appendValue b v s1

/-- What `POP` does on a store that is not empty: the Value and the state without it (R204, R205). -/
def popLast (s : State) : Except Fault (State × Word) :=
  if s.nblk.toNat = 0 then .error .noLastBlock
  else if occAt s (lastBlock s) = 0 then .error (.badDescriptor (lastBlock s))
  else do
    let b := lastBlock s
    let k := occAt s b - 1
    let w := widthAt s b
    let bs ← buf s b
    let s1 ← storeBuf b ((writeOne bs k w 0).take (bytesFor (k * w))) s
    let s2 := setLen (s.len.toNat - 1) (setOcc b k s1)
    return (if k = 0 then setNblk (s.nblk.toNat - 1) s2 else s2, decodeOne bs k w)

/-- The block built from a chunk of Values: its width is that of its own maximum (R206). -/
def blockOf (vs : List Word) : Block :=
  let w := bitsNeeded (maxValue vs)
  ⟨w, vs.length, encodeAll vs w⟩

/-- The `n` chunks `v(b*256) .. v(min(n, (b+1)*256) - 1)` of a sequence (R206). -/
def chunksOf : Nat → List Word → List (List Word)
  | 0, _ => []
  | n + 1, vs => vs.take 256 :: chunksOf n (vs.drop 256)

/-- The blocks of a sequence, 256 Values at a time (R206). -/
def blocksOf (vs : List Word) : List Block := (chunksOf ((vs.length + 255) / 256) vs).map blockOf

/-- `NEW` (R201). -/
def execNew (s : State) : Host.Outcome State Fault Refusal :=
  match mutationGate s with
  | some e => raise .new e s
  | none => answerOk .new [] (emptyStore s)

/-- `PUSH v` (R202, R203). -/
def execPush (v : Word) (s : State) : Host.Outcome State Fault Refusal :=
  match mutationGate s with
  | some e => raise .push e s
  | none =>
    if needsBlock s && s.nblk.toNat = s.nbMax then raise .push .eFull s
    else
      finish .push do
        let s1 ← pushLast v (if needsBlock s then openBlock s else s)
        return (s1, [])

/-- `POP` (R204, R205). -/
def execPop (s : State) : Host.Outcome State Fault Refusal :=
  match mutationGate s with
  | some e => raise .pop e s
  | none =>
    if s.len = 0 then answerNone .pop s
    else
      finish .pop do
        let (s1, v) ← popLast s
        return (s1, [v])

/-- `BUILD [v0 .. v(n-1)]` (R206). -/
def execBuild (vs : List Word) (s : State) : Host.Outcome State Fault Refusal :=
  match mutationGate s with
  | some e => raise .build e s
  | none =>
    if s.nbMax * 256 < vs.length then raise .build .eFull s
    else
      finish .build do
        let s1 ← replaceStore (blocksOf vs) s
        return (s1, [])

end Sys2Proof.Machine
end

