-- ==== Sys2Proof/Machine/Dispatch.lean ====
section
/-! DEFINITION. The meaning of every command (30_encoding.md R87). -/

namespace Sys2Proof.Machine

/-- One command, executed (20_memory.md R58, R60). -/
def exec (i : Instr) (s : State) : Host.Outcome State Fault Refusal :=
  match i with
  | .bits v => Sys2Proof.Machine.execBits v s
  | .maxr w => Sys2Proof.Machine.execMaxr w s
  | .enc w vs => Sys2Proof.Machine.execEnc w vs s
  | .dec1 w j bs => Sys2Proof.Machine.execDec1 w j bs s
  | .deca w n bs => Sys2Proof.Machine.execDeca w n bs s
  | .wr1 w j v bs => Sys2Proof.Machine.execWr1 w j v bs s
  | .rpk oldW newW n bs => Sys2Proof.Machine.execRpk oldW newW n bs s
  | .idx j => Sys2Proof.Machine.execIdx j s
  | .get j => Sys2Proof.Machine.execGet j s
  | .len => Sys2Proof.Machine.execLen s
  | .isemp => Sys2Proof.Machine.execIsemp s
  | .bytelen => Sys2Proof.Machine.execBytelen s
  | .binfo b => Sys2Proof.Machine.execBinfo b s
  | .new => Sys2Proof.Machine.execNew s
  | .push v => Sys2Proof.Machine.execPush v s
  | .pop => Sys2Proof.Machine.execPop s
  | .build vs => Sys2Proof.Machine.execBuild vs s
  | .copen own => Sys2Proof.Machine.execCopen own s
  | .cnext => Sys2Proof.Machine.execCnext s
  | .cclose => Sys2Proof.Machine.execCclose s
  | .cstat => Sys2Proof.Machine.execCstat s
  | .exportImage => Sys2Proof.Machine.execExportImage s
  | .importImage bs => Sys2Proof.Machine.execImportImage bs s

end Sys2Proof.Machine
end

