-- ==== Sys2Proof/Machine/Step.lean ====
section
/-! DEFINITION. One step of the machine: the oldest event the host has presented is taken and acted on (20_memory.md R60,
30_encoding.md R81, R88, R91, 70_reset_and_hazards.md R310). -/

namespace Sys2Proof.Machine

/-- A packet is decoded and executed, or answered with its decode failure; a reset resets the core, and one that comes while a
packet is in flight also drops that packet unanswered (70_reset_and_hazards.md R312); with nothing presented, nothing happens
(60_exceptions.md R301; log 3). -/
def step (s : State) : Host.Outcome State Fault Refusal :=
  match takeEvent s with
  | none => .next s
  | some (.reset, s1) => .next (applyReset s1)
  | some (.resetDuring p, s1) => .next (abandonPacket p s1)
  | some (.packet p, s1) =>
    match decode p with
    | .ok i => exec i s1
    | .error e => rejectPacket p e s1

/-- The packet of an opcode-table row's bits `w` is what the core takes next (log 4). -/
def State.withFetchWord (s : State) (nbits w : Nat) : State :=
  { s with inQ := .packet (tablePacket nbits w) :: s.inQ }

end Sys2Proof.Machine
end

