-- ==== Sys2Proof/Safety.lean ====
section
/-! DEFINITION. What claims about the core speak of: the values a store holds (10_state.md R32), the invariants that every
command keeps (R33, R35, R36), and which parts of two states agree. -/

namespace Sys2Proof.Machine

/-! ### Derived quantities (R32) -/

/-- `BUF[b]` of a live block; empty in a state outside the invariants whose buffer cannot be read. -/
def bufOf (s : State) (b : Nat) : List Byte :=
  match buf s b with
  | .ok bs => bs
  | .error _ => []

/-- `vals(b)` (R32). -/
def vals (s : State) (b : Nat) : List Word := decodeAll (bufOf s b) (occAt s b) (widthAt s b)

/-- `vals(0) ++ ... ++ vals(n-1)`. -/
def valsUpTo (s : State) : Nat → List Word
  | 0 => []
  | n + 1 => valsUpTo s n ++ vals s n

/-- `contents`, the logical vector (R32). -/
def contents (s : State) : List Word := valsUpTo s s.nblk.toNat

/-- `Σ_{b<n} OCC[b]` (R33 (d)). -/
def occUpTo (s : State) : Nat → Nat
  | 0 => 0
  | n + 1 => occUpTo s n + occAt s n

/-- Block `b` as a value (R32). -/
def blockAt (s : State) (b : Nat) : Block := ⟨widthAt s b, occAt s b, bufOf s b⟩

/-- The live blocks, in block order. -/
def blocks (s : State) : List Block := (List.range s.nblk.toNat).map (blockAt s)

/-! ### The invariants -/

/-- The model's data are in their canonical forms and inside the build's bounds (R6, R50). -/
structure DataInv (s : State) : Prop where
  nbMax_pos : 1 ≤ s.nbMax
  nbMax_le : s.nbMax ≤ 2 ^ 21
  ram_wf : Memory.wf s.ram = true
  ram_inside : ∀ c ∈ s.ram, c.1 < s.nbMax * 1024
  width_wf : tableWf 0 s.width = true
  width_inside : ∀ c ∈ s.width, c.1 < s.nbMax
  occ_wf : tableWf 0 s.occ = true
  occ_inside : ∀ c ∈ s.occ, c.1 < s.nbMax

/-- Store shape (R33 (a) to (e)). -/
structure StoreInv (s : State) : Prop where
  nblk_le : s.nblk.toNat ≤ s.nbMax
  occ_range : ∀ b, b < s.nblk.toNat → 1 ≤ occAt s b ∧ occAt s b ≤ 256
  width_le : ∀ b, b < s.nblk.toNat → widthAt s b ≤ 32
  full : ∀ b, b + 1 < s.nblk.toNat → occAt s b = 256
  len_sum : s.len.toNat = occUpTo s s.nblk.toNat
  canonical : ∀ b, b < s.nblk.toNat → buf s b = .ok (encodeAll (vals s b) (widthAt s b))

/-- The cursor's registers (R35, without the history of clause (c)). -/
structure CursorInv (s : State) : Prop where
  closed : s.cOpen = false → s.cOwn = false ∧ s.cBlk = 0 ∧ s.cCnt = 0 ∧ s.cPos = 0 ∧ s.cBitoff = 0
  openEmpty : s.cOpen = true → s.nblk = 0 → s.cBlk = 0 ∧ s.cCnt = 0 ∧ s.cPos = 0 ∧ s.cBitoff = 0
  openLive : s.cOpen = true → s.nblk ≠ 0 →
    s.cBlk.toNat < s.nblk.toNat ∧ s.cCnt.toNat = occAt s s.cBlk.toNat ∧ s.cPos.toNat ≤ s.cCnt.toNat ∧
      s.cBitoff.toNat = s.cPos.toNat * widthAt s s.cBlk.toNat ∧
      ∀ k (h : k < 256), k < s.cCnt.toNat → s.cache[k] = (vals s s.cBlk.toNat).getD k 0

/-- The invariants of 10_state.md R33 and R35, with the model's own of `DataInv`. -/
structure Inv (s : State) : Prop where
  data : DataInv s
  store : StoreInv s
  cursor : CursorInv s

/-! ### Parts of the state that agree -/

/-- The store is the same: the counters, every descriptor, every byte of the block RAM. -/
structure SameStore (s t : State) : Prop where
  nblk : t.nblk = s.nblk
  len : t.len = s.len
  width : ∀ b, widthAt t b = widthAt s b
  occ : ∀ b, occAt t b = occAt s b
  ram : ∀ a, ramByte t a = ramByte s a

/-- The cursor registers and the cache are the same. -/
structure SameCursor (s t : State) : Prop where
  cOpen : t.cOpen = s.cOpen
  cOwn : t.cOwn = s.cOwn
  cBlk : t.cBlk = s.cBlk
  cCnt : t.cCnt = s.cCnt
  cPos : t.cPos = s.cPos
  cBitoff : t.cBitoff = s.cBitoff
  cache : t.cache = s.cache

/-- Every block but `b` is the same, and so are the cursor and the build's bound: what a command that works on the slot of
block `b` leaves alone (41_codec.md R155: "a repack reads and writes one slot only"). -/
structure SameOutside (b : Nat) (s t : State) : Prop where
  nbMax : t.nbMax = s.nbMax
  width : ∀ j, j ≠ b → widthAt t j = widthAt s j
  occ : ∀ j, j ≠ b → occAt t j = occAt s j
  ram : ∀ a, a / 1024 ≠ b → ramByte t a = ramByte s a
  cursor : SameCursor s t

/-- The state `s` with one more response, and nothing else changed. -/
def answered (s : State) (rsp : Packet) : State := { s with outQ := s.outQ ++ [rsp] }

/-- An owning cursor is open (R188). -/
abbrev ownedByCursor (s : State) : Prop := s.cOpen = true ∧ s.cOwn = true

/-- `NBLK = 0 or OCC[last] = 256`: a `PUSH` appends a new block (R202). -/
abbrev pushOpensBlock (s : State) : Prop := s.nblk.toNat = 0 ∨ occAt s (s.nblk.toNat - 1) = 256

/-- Every live width is exactly what the block's largest Value needs (R34 (b)). -/
def minimalWidths (s : State) : Prop := ∀ b, b < s.nblk.toNat → widthAt s b = bitsNeeded (maxValue (vals s b))

/-! ### Sequences of commands, images, statuses -/

/-- Commands executed one after another (20_memory.md R60); `none` if one of them does not answer a next state. -/
def runAll : List Instr → State → Option State
  | [], s => some s
  | i :: is, s =>
    match exec i s with
    | .next t => runAll is t
    | .fault _ => none
    | .refused _ => none

/-- A list of records that `IMPORT` accepts (45_image.md R263 (b) to (f)): every width and occupancy in range, every buffer
of its length, every block but the last full. -/
def wellShaped : List Block → Prop
  | [] => True
  | blk :: rest =>
    (blk.width ≤ 32 ∧ 1 ≤ blk.occ ∧ blk.occ ≤ 256 ∧ blk.buf.length = bytesFor (blk.occ * blk.width)) ∧
      (rest ≠ [] → blk.occ = 256) ∧ wellShaped rest

/-- A record's block with the padding bits of its buffer cleared (R263 (g)). -/
def canonicalBlock (blk : Block) : Block :=
  ⟨blk.width, blk.occ, canonicalForm blk.buf blk.occ blk.width⟩

/-- Which statuses a command can return (60_exceptions.md R306). -/
def possibleStatuses : Op → List Status
  | .bits => [.ok]
  | .idx => [.ok]
  | .cstat => [.ok]
  | .maxr => [.ok, .eWidth]
  | .enc => [.ok, .eWidth, .eLimit, .eRange]
  | .dec1 => [.ok, .eWidth, .eLimit, .eBounds]
  | .deca => [.ok, .eWidth, .eLimit, .eBounds]
  | .wr1 => [.ok, .eWidth, .eLimit, .eBounds, .eRange]
  | .rpk => [.ok, .eWidth, .eLimit, .eBounds, .eRange]
  | .get => [.ok, .eMoved, .eIndex]
  | .binfo => [.ok, .eMoved, .eIndex]
  | .len => [.ok, .eMoved]
  | .isemp => [.ok, .eMoved]
  | .bytelen => [.ok, .eMoved]
  | .exportImage => [.ok, .eMoved]
  | .new => [.ok, .eMoved, .eBorrowed]
  | .push => [.ok, .eMoved, .eBorrowed, .eFull]
  | .build => [.ok, .eMoved, .eBorrowed, .eFull]
  | .pop => [.ok, .none, .eMoved, .eBorrowed]
  | .importImage => [.ok, .eMoved, .eBorrowed, .eMalformed, .eFull]
  | .copen => [.ok, .eCBusy]
  | .cnext => [.ok, .none, .eNoCursor]
  | .cclose => [.ok, .eNoCursor]

/-- The commands that use the header field `A` (30_encoding.md R87). -/
def usesA : Op → Bool
  | .maxr => true
  | .enc => true
  | .dec1 => true
  | .deca => true
  | .wr1 => true
  | .rpk => true
  | .bits => false
  | .idx => false
  | .get => false
  | .len => false
  | .isemp => false
  | .bytelen => false
  | .binfo => false
  | .new => false
  | .push => false
  | .pop => false
  | .build => false
  | .copen => false
  | .cnext => false
  | .cclose => false
  | .cstat => false
  | .exportImage => false
  | .importImage => false

end Sys2Proof.Machine
end

