-- ==== Sys2Proof/Certificates/Slice0/Obligations.lean ====
section
/-! DEFINITION. The statements about the core, each from the numbered rules it names. `answered s rsp` is `s` with the one
response `rsp` added and nothing else changed, so an equation `exec i s = .next (answered s rsp)` is a frame as well. Premises:
`Inv s` are the invariants of 10_state.md R33 and R35, which `Obligations.StepKeepsInvariants` says every step keeps and
`Obligations.ResetSatisfiesInvariants` says hold after reset. The spec has no model of its ports: that the packets not yet
taken stand in `inQ` and the responses in `outQ` is the model's form of R60, R61 and R81 (DESIGN CHOICE, log 2). -/

open Sys2Proof Sys2Proof.Machine

/-! ### Encoding (30_encoding.md) -/

/-- Decoding the packet of a well-formed command gives the command back, with every operand (R82 to R86, R88, R89). -/
def Obligations.DecodeUndoesEncode : Prop :=
  ∀ i : Instr, i.WellFormed → decode (encode i) = .ok i

/-- A packet that decodes is the packet of the command it decodes to: no bit of a packet is ignored (R84, R88, R90). -/
def Obligations.DecodedPacketIsItsEncoding : Prop :=
  ∀ (p : Packet) (i : Instr), decode p = .ok i → i.WellFormed ∧ encode i = p

/-- R291: the header selects no row exactly when `OP` is unknown, a reserved bit is set, or an unused `A`, `B` or `F` field is
non-zero; the packet is then answered `E_OPCODE` and nothing else changes. -/
def Obligations.OpcodeFailureConditions : Prop :=
  ∀ (h : Word) (ws : List Word),
    (decode (h :: ws) = .error .opcode ↔
      ((∀ op : Op, op.code ≠ fieldOp h) ∨ h.extractLsb' 25 7 ≠ 0 ∨
        ∃ op : Op, op.code = fieldOp h ∧
          ((usesA op = false ∧ fieldA h ≠ 0) ∨ (op ≠ .rpk ∧ fieldB h ≠ 0) ∨ (op ≠ .copen ∧ fieldF h = true)))) ∧
    (decode (h :: ws) = .error .opcode → ∀ (s : State) (rest : List HostEvent), s.inQ = .packet (h :: ws) :: rest →
      step s = .next (answered { s with inQ := rest } [0#16 ++ fieldOp h ++ 0x20#8]))

/-- R292: `E_FORMAT` is the answer exactly when the packet is empty, its length is not the one its header and count word
imply, or a pad byte of a byte payload is not zero; any command can get it. -/
def Obligations.FormatFailureConditions : Prop :=
  (∀ p : Packet, decode p = .error .format ↔
    p = [] ∨ ∃ h ws r, p = h :: ws ∧ rowOf h = some r ∧
      (ws.length < r.fmt.fixedWords ∨
        ws.length ≠ r.fmt.fixedWords + r.fmt.payloadWords (ws.getD (r.fmt.fixedWords - 1) 0).toNat ∨
        (r.fmt.hasBytes = true ∧ ∃ k, (ws.getD (r.fmt.fixedWords - 1) 0).toNat ≤ k ∧
          k < 4 * (ws.drop r.fmt.fixedWords).length ∧
          ((ws.drop r.fmt.fixedWords).getD (k / 4) 0).extractLsb' (8 * (k % 4)) 8 ≠ 0))) ∧
  (∀ op : Op, ∃ p : Packet, decode p = .error .format ∧ echoOf p = op.code) ∧
  (∀ (p : Packet) (s : State) (rest : List HostEvent), decode p = .error .format → s.inQ = .packet p :: rest →
    step s = .next (answered { s with inQ := rest } [0#16 ++ echoOf p ++ 0x21#8]))

/-- R84: a byte payload has `ceil(L/4)` words, byte `k` is bits `8*(k mod 4)` up of word `k div 4`, the unused high bytes of
the last word are 0. -/
def Obligations.BytePayloadLayout : Prop :=
  ∀ bs : List Byte,
    (packBytes bs).length = (bs.length + 3) / 4 ∧
    ∀ k, k < 4 * (packBytes bs).length →
      ((packBytes bs).getD (k / 4) 0).extractLsb' (8 * (k % 4)) 8 = if k < bs.length then bs.getD k 0 else 0

/-- Words written out from R82 to R87 and R95 decode to the commands they stand for, one of each family at least. -/
def Obligations.SpecWordsDecode : Prop :=
  decode [0x00000001#32, 0x000003E8#32] = .ok (.bits 1000) ∧
  decode [0x00000A02#32] = .ok (.maxr 10) ∧
  decode [0x00000A11#32, 0x00000003#32, 0x00000005#32, 0x00300801#32, 0x000000FA#32]
    = .ok (.dec1 10 3 [0x01, 0x08, 0x30, 0x00, 0xFA]) ∧
  decode [0x00020A14#32, 0x00000003#32, 0x00000001#32, 0x00000039#32] = .ok (.rpk 2 10 3 [0x39]) ∧
  decode [0x00000021#32, 0x00000003#32] = .ok (.get 3) ∧
  decode [0x00000031#32, 0x000003E8#32] = .ok (.push 1000) ∧
  decode [0x01000040#32] = .ok (.copen true) ∧
  decode [0x00000051#32, 0x00000003#32, 0x00000100#32] = .ok (.importImage [0x00, 0x01, 0x00])

/-! ### The step, responses, failures, reset -/

/-- A step takes the oldest packet; when it decodes, the step is the command executed on the state without that packet
(20_memory.md R60, 30_encoding.md R88), and the command is well-formed. -/
def Obligations.StepRunsDecodedCommand : Prop :=
  ∀ (s : State) (p : Packet) (rest : List HostEvent) (i : Instr), s.inQ = .packet p :: rest → decode p = .ok i →
    i.WellFormed ∧ step s = exec i { s with inQ := rest }

/-- A packet that does not decode is answered with the failure's status and the echoed opcode, and changes nothing else
(30_encoding.md R88, R91, 60_exceptions.md R282). -/
def Obligations.StepAnswersRejectedPacket : Prop :=
  ∀ (s : State) (p : Packet) (rest : List HostEvent) (e : DecodeFail), s.inQ = .packet p :: rest → decode p = .error e →
    step s = .next (answered { s with inQ := rest } [rspHeader (echoOf p) (failStatus e)])

/-- R61: every command, decodable or not, gets exactly one response, after the responses before it; a failing or empty answer
is the header alone. (A packet that a reset abandons, R312, is the other event `resetDuring`.) -/
def Obligations.EachPacketGetsOneResponse : Prop :=
  ∀ (s t : State) (p : Packet) (rest : List HostEvent), s.inQ = .packet p :: rest → step s = .next t →
    t.inQ = rest ∧
    ∃ (st : Status) (body : List Word), t.outQ = s.outQ ++ [rspHeader (echoOf p) st :: body] ∧ (st ≠ .ok → body = [])

/-- A reset, between commands or while a packet is in flight, gives the empty store with no cursor, whatever the state; the
packet in flight is taken and gets no response (70_reset_and_hazards.md R310, R312, 10_state.md R38). That a reset stands
among the packets of `inQ` is the model's choice (log 13). What it leaves in the descriptors, the RAM and the cache, which the
spec leaves unspecified, is not stated. -/
def Obligations.ResetEventEmptiesCore : Prop :=
  ∀ (s : State) (rest : List HostEvent), (s.inQ = .reset :: rest ∨ ∃ p, s.inQ = .resetDuring p :: rest) →
    ∃ t, step s = .next t ∧ t.nblk = 0 ∧ t.len = 0 ∧ t.cOpen = false ∧ t.cOwn = false ∧ t.cBlk = 0 ∧ t.cCnt = 0 ∧
      t.cPos = 0 ∧ t.cBitoff = 0 ∧ t.nbMax = s.nbMax ∧ t.inQ = rest ∧ t.outQ = s.outQ

/-- The registers R38 gives a reset value have it in the reset state. -/
def Obligations.ResetRegisters : Prop :=
  State.reset.nblk = 0 ∧ State.reset.len = 0 ∧ State.reset.cOpen = false ∧ State.reset.cOwn = false ∧
    State.reset.cBlk = 0 ∧ State.reset.cCnt = 0 ∧ State.reset.cPos = 0 ∧ State.reset.cBitoff = 0

/-- R311: the reset state satisfies every invariant. -/
def Obligations.ResetSatisfiesInvariants : Prop := Inv State.reset

/-- Every step from a state that satisfies the invariants ends in one that does, whether the command succeeds or fails
(10_state.md R36, for R33 and R35 (a), (b); the clauses of `DataInv` are the model's own, logs 1, 7). -/
def Obligations.StepKeepsInvariants : Prop :=
  ∀ s t : State, Inv s → step s = .next t → Inv t

/-- The core has no fatal state: from a state that satisfies the invariants every step answers a next state (60_exceptions.md
R284, 93_implementation_defined.md U7). The stops it rules out are the model's choice (log 10), and so is that a step with no
packet waiting changes nothing (log 3). -/
def Obligations.InvariantStatesNeverStop : Prop :=
  ∀ s : State, Inv s → ∃ t, step s = .next t

/-- No step changes the build's parameter (10_state.md R31; that it stands in the state is the model's choice, log 1). -/
def Obligations.StepKeepsBuildBound : Prop :=
  ∀ s t : State, step s = .next t → t.nbMax = s.nbMax

/-- R282: when the response's status is not `OK` it is the header alone, and every register, descriptor, RAM byte and cache
entry has the value it had before the command. -/
def Obligations.FailingCommandChangesNothing : Prop :=
  ∀ (s t : State) (p : Packet) (rest : List HostEvent) (st : Status) (body : List Word),
    s.inQ = .packet p :: rest → step s = .next t → t.outQ = s.outQ ++ [rspHeader (echoOf p) st :: body] → st ≠ .ok →
    body = [] ∧ t = answered { s with inQ := rest } [rspHeader (echoOf p) st]

/-- The status a command answers is one of those the table of R306 gives it. -/
def Obligations.StatusesOfEachCommand : Prop :=
  ∀ (i : Instr) (s t : State), exec i s = .next t →
    ∃ st ∈ possibleStatuses i.op, ∃ body, t.outQ = s.outQ ++ [rspHeader i.op.code st :: body]

/-! ### Unit U1, the bit-width calculator (40_bitwidth.md) -/

/-- R123 with R122: `BITS v` answers the minimal `w` with `v < 2^w`, which is `32 - clz32(v)`; nothing else changes. -/
def Obligations.BitsAnswersMinimalWidth : Prop :=
  ∀ (v : Word) (s : State),
    encode (.bits v) = [0x00000001#32, v] ∧
    ∃ w : Nat, w ≤ 32 ∧ v.toNat < 2 ^ w ∧ (∀ w', v.toNat < 2 ^ w' → w ≤ w') ∧ (v = 0 → w = 0) ∧
      (v ≠ 0 → w = 32 - clz32 v) ∧
      exec (.bits v) s = .next (answered s [0x00000100#32, BitVec.ofNat 32 w])

/-- R121: `clz32` counts the zero bits from bit 31 downward to the first one bit; `clz32(0) = 32`. -/
def Obligations.ClzCountsLeadingZeros : Prop :=
  clz32 0 = 32 ∧
  ∀ v : Word, v ≠ 0 → clz32 v < 32 ∧ v.getLsbD (31 - clz32 v) = true ∧
    (∀ j, 31 - clz32 v < j → v.getLsbD j = false) ∧ clz32 v = 32 - bitsNeeded v ∧ clz32 v = 31 - Nat.log2 v.toNat

/-- The reference circuit of R128 equals the count of R121 on every input. -/
def Obligations.ReferenceCircuitCountsLeadingZeros : Prop :=
  ∀ v : Word, clz32Ref v = clz32 v

/-- R126: `fits(v, w)` is `v ≤ max_representable(w)` and is equivalent to `bits_needed(v) ≤ w`. -/
def Obligations.FitTestIsWidthTest : Prop :=
  ∀ (v : Word) (w : Nat), w ≤ 32 →
    (fits v w = true ↔ v.toNat ≤ 2 ^ w - 1) ∧ (fits v w = true ↔ bitsNeeded v ≤ w)

/-- R127 (a) to (e). -/
def Obligations.BitWidthLaws : Prop :=
  (∀ u v : Word, u.toNat ≤ v.toNat → bitsNeeded u ≤ bitsNeeded v) ∧
  (∀ w, w ≤ 32 → bitsNeeded (BitVec.ofNat 32 (maxRepresentable w)) = w) ∧
  (∀ v : Word, v.toNat ≤ maxRepresentable (bitsNeeded v) ∧ (v ≠ 0 → maxRepresentable (bitsNeeded v - 1) < v.toNat)) ∧
  (∀ vs : List Word, vs ≠ [] →
    maxValue vs ∈ vs ∧ (∀ v ∈ vs, v.toNat ≤ (maxValue vs).toNat) ∧
    bitsNeeded (maxValue vs) = (vs.map bitsNeeded).foldr max 0 ∧
    bitsNeeded (maxValue vs) = bitsNeeded (vs.foldr (· ||| ·) 0)) ∧
  bitsNeeded (maxValue []) = 0 ∧
  (∀ w, 1 ≤ w → w ≤ 32 → maxRepresentable w = (maxRepresentable (w - 1) <<< 1) ||| 1)

/-- R124 with R125: `MAXR w` answers `2^w - 1` for `w ≤ 32` and `E_WIDTH` above. -/
def Obligations.MaxrAnswers : Prop :=
  ∀ (w : Byte) (s : State),
    encode (.maxr w) = [0#16 ++ w ++ 0x02#8] ∧
    (w.toNat ≤ 32 → 2 ^ w.toNat - 1 < 2 ^ 32 ∧
      exec (.maxr w) s = .next (answered s [0x00000200#32, BitVec.ofNat 32 (2 ^ w.toNat - 1)])) ∧
    (32 < w.toNat → exec (.maxr w) s = .next (answered s [0x00000222#32]))

/-! ### Unit U2, the block codec (41_codec.md) -/

/-- R142: `encode_all` places bit `j` of Value `k` at stream bit `k*w + j`, has `ceil(n*w/8)` bytes, and pads with zeros. -/
def Obligations.EncodeAllPlacesFields : Prop :=
  ∀ (vs : List Word) (w : Nat), w ≤ 32 → (∀ v ∈ vs, fits v w = true) →
    (encodeAll vs w).length = (vs.length * w + 7) / 8 ∧
    (∀ k j, k < vs.length → j < w → streamBit (encodeAll vs w) (k * w + j) = (vs.getD k 0).getLsbD j) ∧
    ∀ p, vs.length * w ≤ p → streamBit (encodeAll vs w) p = false

/-- R150: `ENC`. -/
def Obligations.EncAnswers : Prop :=
  ∀ (w : Byte) (vs : List Word) (s : State),
    encode (.enc w vs) = (0#16 ++ w ++ 0x10#8) :: BitVec.ofNat 32 vs.length :: vs ∧
    (32 < w.toNat → exec (.enc w vs) s = .next (answered s [0x00001022#32])) ∧
    (w.toNat ≤ 32 → 256 < vs.length → exec (.enc w vs) s = .next (answered s [0x00001024#32])) ∧
    (w.toNat ≤ 32 → vs.length ≤ 256 → (∃ v ∈ vs, 2 ^ w.toNat ≤ v.toNat) →
      exec (.enc w vs) s = .next (answered s [0x00001010#32])) ∧
    (w.toNat ≤ 32 → vs.length ≤ 256 → (∀ v ∈ vs, v.toNat < 2 ^ w.toNat) →
      exec (.enc w vs) s = .next (answered s
        (0x00001000#32 :: BitVec.ofNat 32 (encodeAll vs w.toNat).length :: packBytes (encodeAll vs w.toNat))))

/-- R144: `decode_one` is `(N(bs) >> (i*w)) mod 2^w`, the stream bits of field `i`, through a window of at most five bytes. -/
def Obligations.DecodeOneIsStreamField : Prop :=
  ∀ (bs : List Byte) (i w : Nat), w ≤ 32 → (i + 1) * w ≤ 8 * bs.length →
    (decodeOne bs i w).toNat = (leNum bs >>> (i * w)) % 2 ^ w ∧
    (∀ j, j < w → (decodeOne bs i w).getLsbD j = streamBit bs (i * w + j)) ∧
    fieldBytes i w ≤ 5 ∧ (w = 0 → fieldBytes i w = 0 ∧ decodeOne bs i w = 0)

/-- R151: `DEC1`. -/
def Obligations.Dec1Answers : Prop :=
  ∀ (w : Byte) (i : Word) (bs : List Byte) (s : State),
    encode (.dec1 w i bs) = (0#16 ++ w ++ 0x11#8) :: i :: BitVec.ofNat 32 bs.length :: packBytes bs ∧
    (32 < w.toNat → exec (.dec1 w i bs) s = .next (answered s [0x00001122#32])) ∧
    (w.toNat ≤ 32 → 1024 < bs.length → exec (.dec1 w i bs) s = .next (answered s [0x00001124#32])) ∧
    (w.toNat ≤ 32 → bs.length ≤ 1024 → 8 * bs.length < (i.toNat + 1) * w.toNat →
      exec (.dec1 w i bs) s = .next (answered s [0x00001123#32])) ∧
    (w.toNat ≤ 32 → bs.length ≤ 1024 → (i.toNat + 1) * w.toNat ≤ 8 * bs.length →
      exec (.dec1 w i bs) s = .next (answered s [0x00001100#32, decodeOne bs i.toNat w.toNat]))

/-- R152: `DECA`. -/
def Obligations.DecaAnswers : Prop :=
  ∀ (w : Byte) (n : Word) (bs : List Byte) (s : State),
    encode (.deca w n bs) = (0#16 ++ w ++ 0x12#8) :: n :: BitVec.ofNat 32 bs.length :: packBytes bs ∧
    (32 < w.toNat → exec (.deca w n bs) s = .next (answered s [0x00001222#32])) ∧
    (w.toNat ≤ 32 → (256 < n.toNat ∨ 1024 < bs.length) → exec (.deca w n bs) s = .next (answered s [0x00001224#32])) ∧
    (w.toNat ≤ 32 → n.toNat ≤ 256 → bs.length ≤ 1024 → 8 * bs.length < n.toNat * w.toNat →
      exec (.deca w n bs) s = .next (answered s [0x00001223#32])) ∧
    (w.toNat ≤ 32 → n.toNat ≤ 256 → bs.length ≤ 1024 → n.toNat * w.toNat ≤ 8 * bs.length →
      exec (.deca w n bs) s = .next (answered s
        (0x00001200#32 :: n :: (List.range n.toNat).map (fun k => decodeOne bs k w.toNat))))

/-- R147: `write_one` keeps the length, replaces the `w` stream bits of field `i` by the Value, and changes no other bit, so
field `i` decodes to the Value and every other field as before. -/
def Obligations.WriteOneReplacesOneField : Prop :=
  ∀ (bs : List Byte) (i w : Nat) (v : Word), w ≤ 32 → (i + 1) * w ≤ 8 * bs.length → fits v w = true →
    (writeOne bs i w v).length = bs.length ∧
    (∀ p, streamBit (writeOne bs i w v) p
      = if i * w ≤ p ∧ p < (i + 1) * w then v.getLsbD (p - i * w) else streamBit bs p) ∧
    decodeOne (writeOne bs i w v) i w = v ∧
    (∀ k, k ≠ i → decodeOne (writeOne bs i w v) k w = decodeOne bs k w) ∧
    (w = 0 → writeOne bs i w v = bs)

/-- R153: `WR1`. -/
def Obligations.Wr1Answers : Prop :=
  ∀ (w : Byte) (i v : Word) (bs : List Byte) (s : State),
    encode (.wr1 w i v bs) = (0#16 ++ w ++ 0x13#8) :: i :: v :: BitVec.ofNat 32 bs.length :: packBytes bs ∧
    (32 < w.toNat → exec (.wr1 w i v bs) s = .next (answered s [0x00001322#32])) ∧
    (w.toNat ≤ 32 → 1024 < bs.length → exec (.wr1 w i v bs) s = .next (answered s [0x00001324#32])) ∧
    (w.toNat ≤ 32 → bs.length ≤ 1024 → 8 * bs.length < (i.toNat + 1) * w.toNat →
      exec (.wr1 w i v bs) s = .next (answered s [0x00001323#32])) ∧
    (w.toNat ≤ 32 → bs.length ≤ 1024 → (i.toNat + 1) * w.toNat ≤ 8 * bs.length → 2 ^ w.toNat ≤ v.toNat →
      exec (.wr1 w i v bs) s = .next (answered s [0x00001310#32])) ∧
    (w.toNat ≤ 32 → bs.length ≤ 1024 → (i.toNat + 1) * w.toNat ≤ 8 * bs.length → v.toNat < 2 ^ w.toNat →
      exec (.wr1 w i v bs) s = .next (answered s
        (0x00001300#32 :: BitVec.ofNat 32 bs.length :: packBytes (writeOne bs i.toNat w.toNat v))))

/-- R154: `RPK`, which decodes at `old_w` (field `B`) and encodes at `new_w` (field `A`). -/
def Obligations.RpkAnswers : Prop :=
  ∀ (oldW newW : Byte) (n : Word) (bs : List Byte) (s : State),
    encode (.rpk oldW newW n bs) = (0#8 ++ oldW ++ newW ++ 0x14#8) :: n :: BitVec.ofNat 32 bs.length :: packBytes bs ∧
    ((32 < newW.toNat ∨ 32 < oldW.toNat) → exec (.rpk oldW newW n bs) s = .next (answered s [0x00001422#32])) ∧
    (newW.toNat ≤ 32 → oldW.toNat ≤ 32 → (256 < n.toNat ∨ 1024 < bs.length) →
      exec (.rpk oldW newW n bs) s = .next (answered s [0x00001424#32])) ∧
    (newW.toNat ≤ 32 → oldW.toNat ≤ 32 → n.toNat ≤ 256 → bs.length ≤ 1024 → 8 * bs.length < n.toNat * oldW.toNat →
      exec (.rpk oldW newW n bs) s = .next (answered s [0x00001423#32])) ∧
    (newW.toNat ≤ 32 → oldW.toNat ≤ 32 → n.toNat ≤ 256 → bs.length ≤ 1024 → n.toNat * oldW.toNat ≤ 8 * bs.length →
      (∃ k, k < n.toNat ∧ 2 ^ newW.toNat ≤ (decodeOne bs k oldW.toNat).toNat) →
      exec (.rpk oldW newW n bs) s = .next (answered s [0x00001410#32])) ∧
    (newW.toNat ≤ 32 → oldW.toNat ≤ 32 → n.toNat ≤ 256 → bs.length ≤ 1024 → n.toNat * oldW.toNat ≤ 8 * bs.length →
      (∀ k, k < n.toNat → (decodeOne bs k oldW.toNat).toNat < 2 ^ newW.toNat) →
      exec (.rpk oldW newW n bs) s = .next (answered s
        (0x00001400#32 :: BitVec.ofNat 32 ((n.toNat * newW.toNat + 7) / 8) ::
          packBytes (encodeAll (decodeAll bs n.toNat oldW.toNat) newW.toNat))))

/-- R149 (a) to (e): round trip, canonical form, repack, append by grow-and-write, size bound. -/
def Obligations.CodecLaws : Prop :=
  (∀ (vs : List Word) (w : Nat), w ≤ 32 → (∀ v ∈ vs, fits v w = true) → decodeAll (encodeAll vs w) vs.length w = vs) ∧
  (∀ (bs : List Byte) (n w : Nat), w ≤ 32 → n * w ≤ 8 * bs.length →
    ((encodeAll (decodeAll bs n w) w).length = (n * w + 7) / 8 ∧
      ∀ p, streamBit (encodeAll (decodeAll bs n w) w) p = if p < n * w then streamBit bs p else false) ∧
    (encodeAll (decodeAll bs n w) w = bs ↔
      bs.length = (n * w + 7) / 8 ∧ ∀ p, n * w ≤ p → streamBit bs p = false)) ∧
  (∀ (bs : List Byte) (n w w' : Nat), w ≤ 32 → w' ≤ 32 → n * w ≤ 8 * bs.length →
    (∀ v ∈ decodeAll bs n w, fits v w' = true) → decodeAll (repack bs n w w') n w' = decodeAll bs n w) ∧
  (∀ (vs : List Word) (v : Word) (w : Nat), w ≤ 32 → (∀ u ∈ vs, fits u w = true) → fits v w = true →
    encodeAll (vs ++ [v]) w
      = writeOne (encodeAll vs w ++ zeros (((vs.length + 1) * w + 7) / 8 - (vs.length * w + 7) / 8)) vs.length w v) ∧
  (∀ (vs : List Word) (w : Nat), w ≤ 32 →
    (encodeAll vs w).length ≤ 4 * vs.length ∧ (w = 32 → (encodeAll vs w).length = 4 * vs.length))

/-! ### Unit U3 and the store reads (42_index_access.md) -/

/-- R182 with R180: `IDX i` answers `i div 256` and `i mod 256`, in every state. -/
def Obligations.IdxAnswers : Prop :=
  ∀ (i : Word) (s : State),
    encode (.idx i) = [0x00000020#32, i] ∧
    exec (.idx i) s = .next (answered s [0x00002000#32, i >>> 8, i &&& 0xFF#32]) ∧
    i.toNat = (i >>> 8).toNat * 256 + (i &&& 0xFF#32).toNat

/-- R183 with R189 (a): `GET i` answers element `i` of `contents`, `E_INDEX` past the end, `E_MOVED` under an owning cursor.
-/
def Obligations.GetAnswersElement : Prop :=
  ∀ (i : Word) (s : State), Inv s →
    encode (.get i) = [0x00000021#32, i] ∧ (contents s).length = s.len.toNat ∧
    (ownedByCursor s → exec (.get i) s = .next (answered s [0x00002127#32])) ∧
    (¬ ownedByCursor s → s.len.toNat ≤ i.toNat → exec (.get i) s = .next (answered s [0x00002111#32])) ∧
    (¬ ownedByCursor s → i.toNat < s.len.toNat →
      exec (.get i) s = .next (answered s [0x00002100#32, (contents s).getD i.toNat 0]) ∧
      (contents s).getD i.toNat 0 = (vals s (i.toNat / 256)).getD (i.toNat % 256) 0)

/-- R184: `LEN`. -/
def Obligations.LenAnswers : Prop :=
  ∀ s : State,
    encode .len = [0x00000022#32] ∧
    (ownedByCursor s → exec .len s = .next (answered s [0x00002227#32])) ∧
    (¬ ownedByCursor s → exec .len s = .next (answered s [0x00002200#32, s.len]))

/-- R185: `ISEMP`. -/
def Obligations.IsempAnswers : Prop :=
  ∀ s : State,
    encode .isemp = [0x00000023#32] ∧
    (ownedByCursor s → exec .isemp s = .next (answered s [0x00002327#32])) ∧
    (¬ ownedByCursor s → s.len = 0 → exec .isemp s = .next (answered s [0x00002300#32, 1#32])) ∧
    (¬ ownedByCursor s → s.len ≠ 0 → exec .isemp s = .next (answered s [0x00002300#32, 0#32]))

/-- R186: `BYTELEN` answers the sum of `3 + BLEN(b)` over the live blocks, which is the length of the image and below
`2^32`. -/
def Obligations.BytelenAnswers : Prop :=
  ∀ s : State, Inv s →
    encode .bytelen = [0x00000024#32] ∧
    (ownedByCursor s → exec .bytelen s = .next (answered s [0x00002427#32])) ∧
    (¬ ownedByCursor s → ∃ n : Nat,
      n = ((List.range s.nblk.toNat).map (fun b => 3 + (occAt s b * widthAt s b + 7) / 8)).sum ∧
      n = (imageOf (blocks s)).length ∧ n < 2 ^ 32 ∧
      exec .bytelen s = .next (answered s [0x00002400#32, BitVec.ofNat 32 n]))

/-- R187: `BINFO b`. -/
def Obligations.BinfoAnswers : Prop :=
  ∀ (b : Word) (s : State),
    encode (.binfo b) = [0x00000025#32, b] ∧
    (ownedByCursor s → exec (.binfo b) s = .next (answered s [0x00002527#32])) ∧
    (¬ ownedByCursor s → s.nblk.toNat ≤ b.toNat → exec (.binfo b) s = .next (answered s [0x00002511#32])) ∧
    (¬ ownedByCursor s → b.toNat < s.nblk.toNat →
      exec (.binfo b) s = .next (answered s
        [0x00002500#32, BitVec.ofNat 32 (widthAt s b.toNat), BitVec.ofNat 32 (occAt s b.toNat)]))

/-- R188: the six store reads fail with `E_MOVED` exactly while an owning cursor is open, before any other check; `IDX` is
never gated. -/
def Obligations.OwningCursorRefusesReads : Prop :=
  ∀ (i : Instr) (s : State),
    (i.op = .get ∨ i.op = .len ∨ i.op = .isemp ∨ i.op = .bytelen ∨ i.op = .binfo ∨ i.op = .exportImage) →
    ((ownedByCursor s → exec i s = .next (answered s [0#16 ++ i.op.code ++ 0x27#8])) ∧
      (¬ ownedByCursor s → exec i s ≠ .next (answered s [0#16 ++ i.op.code ++ 0x27#8]))) ∧
    ∀ x : Word, exec (.idx x) s = .next (answered s [0x00002000#32, x >>> 8, x &&& 0xFF#32])

/-- The footprint is at most `NBLK*3 + LEN*4` bytes with `NBLK = ceil(LEN/256)`, so within CV's worst case (R189 (c), (d)). -/
def Obligations.FootprintBound : Prop :=
  ∀ s : State, Inv s →
    s.nblk.toNat = (s.len.toNat + 255) / 256 ∧ (s.len = 0 ↔ s.nblk = 0) ∧
    (imageOf (blocks s)).length ≤ s.nblk.toNat * 3 + s.len.toNat * 4 ∧
    (imageOf (blocks s)).length ≤ (s.len.toNat + 255) / 256 * 9 + s.len.toNat * 4

/-! ### Store mutation (43_store_mutation.md) -/

/-- R200: the five store-changing commands are refused while a cursor is open, with `E_MOVED` for an owning cursor and
`E_BORROWED` for a borrowing one, and change nothing. -/
def Obligations.OpenCursorRefusesMutation : Prop :=
  ∀ (i : Instr) (s : State),
    (i.op = .new ∨ i.op = .push ∨ i.op = .pop ∨ i.op = .build ∨ i.op = .importImage) → s.cOpen = true →
    (s.cOwn = true → exec i s = .next (answered s [0#16 ++ i.op.code ++ 0x27#8])) ∧
    (s.cOwn = false → exec i s = .next (answered s [0#16 ++ i.op.code ++ 0x26#8]))

/-- R201: `NEW` is refused by an open cursor; else it writes `NBLK` and `LEN` and nothing else. -/
def Obligations.NewAnswers : Prop :=
  ∀ s : State,
    encode .new = [0x00000030#32] ∧
    (s.cOpen = true → s.cOwn = true → exec .new s = .next (answered s [0x00003027#32])) ∧
    (s.cOpen = true → s.cOwn = false → exec .new s = .next (answered s [0x00003026#32])) ∧
    (s.cOpen = false → exec .new s = .next (answered { s with nblk := 0, len := 0 } [0x00003000#32]))

/-- R202 with R203 and R208: `PUSH v` is refused by an open cursor; on a store with no cursor it appends `v` to the last
block, or to a new block of width 0 when there is none or the last is full; the block's width grows to what `v` needs, its
earlier Values are kept, its buffer is canonical; no other block and no cursor register changes. With `NB_MAX` blocks, the
last full, it answers `E_FULL`. -/
def Obligations.PushAnswers : Prop :=
  ∀ (v : Word) (s : State), Inv s →
    encode (.push v) = [0x00000031#32, v] ∧
    (s.cOpen = true → s.cOwn = true → exec (.push v) s = .next (answered s [0x00003127#32])) ∧
    (s.cOpen = true → s.cOwn = false → exec (.push v) s = .next (answered s [0x00003126#32])) ∧
    (s.cOpen = false → pushOpensBlock s → s.nblk.toNat = s.nbMax → exec (.push v) s = .next (answered s [0x00003125#32])) ∧
    (s.cOpen = false → ¬ (pushOpensBlock s ∧ s.nblk.toNat = s.nbMax) →
      ∃ (t : State) (b w : Nat) (old : List Word),
        b = (if pushOpensBlock s then s.nblk.toNat else s.nblk.toNat - 1) ∧
        w = (if pushOpensBlock s then 0 else widthAt s b) ∧
        old = (if pushOpensBlock s then [] else vals s b) ∧
        exec (.push v) s = .next t ∧ t.outQ = s.outQ ++ [[0x00003100#32]] ∧ t.inQ = s.inQ ∧
        t.nblk.toNat = b + 1 ∧ t.len.toNat = s.len.toNat + 1 ∧
        occAt t b = old.length + 1 ∧ widthAt t b = max w (bitsNeeded v) ∧
        vals t b = old ++ [v] ∧ buf t b = .ok (encodeAll (old ++ [v]) (widthAt t b)) ∧ SameOutside b s t)

/-- `PUSH v` turns `contents` into `contents ++ [v]` (R207 (c), (e)). -/
def Obligations.PushAppendsToContents : Prop :=
  ∀ (v : Word) (s : State), Inv s → s.cOpen = false → ¬ (pushOpensBlock s ∧ s.nblk.toNat = s.nbMax) →
    ∃ t, exec (.push v) s = .next t ∧ contents t = contents s ++ [v]

/-- R204 with R205: `POP` is refused by an open cursor; on a store with no cursor it answers `NONE` when the store is empty;
else it answers the last Value, takes it off the last block, keeps the block's width, leaves the buffer canonical, removes a
block it empties, and changes no other block and no cursor register; `contents` loses exactly that Value. -/
def Obligations.PopAnswers : Prop :=
  ∀ s : State, Inv s →
    encode .pop = [0x00000032#32] ∧
    (s.cOpen = true → s.cOwn = true → exec .pop s = .next (answered s [0x00003227#32])) ∧
    (s.cOpen = true → s.cOwn = false → exec .pop s = .next (answered s [0x00003226#32])) ∧
    (s.cOpen = false → s.len = 0 → exec .pop s = .next (answered s [0x00003201#32])) ∧
    (s.cOpen = false → s.len ≠ 0 → ∃ (t : State) (v : Word) (b : Nat), b + 1 = s.nblk.toNat ∧
      exec .pop s = .next t ∧ t.outQ = s.outQ ++ [[0x00003200#32, v]] ∧ t.inQ = s.inQ ∧
      t.len.toNat + 1 = s.len.toNat ∧ occAt t b + 1 = occAt s b ∧ widthAt t b = widthAt s b ∧
      t.nblk.toNat = (if occAt t b = 0 then b else b + 1) ∧
      vals s b = vals t b ++ [v] ∧ buf t b = .ok (encodeAll (vals t b) (widthAt s b)) ∧
      contents s = contents t ++ [v] ∧ SameOutside b s t)

/-- `PUSH v; POP` answers `OK v` and restores `contents` and `LEN` (R207 (d)); where the push opened a block or did not widen,
it restores every live descriptor and buffer too. -/
def Obligations.PushThenPopRestores : Prop :=
  ∀ (v : Word) (s : State), Inv s → s.cOpen = false → ¬ (pushOpensBlock s ∧ s.nblk.toNat = s.nbMax) →
    ∃ t, runAll [.push v, .pop] s = some t ∧ t.outQ = s.outQ ++ [[0x00003100#32], [0x00003200#32, v]] ∧
      contents t = contents s ∧ t.len = s.len ∧ t.nblk = s.nblk ∧
      ((pushOpensBlock s ∨ bitsNeeded v ≤ widthAt s (s.nblk.toNat - 1)) → blocks t = blocks s)

/-- R206 with R207 (b): `BUILD` is refused by an open cursor; on a store with no cursor it answers `E_FULL` above `NB_MAX *
256` Values; else the store holds exactly the sequence, in full blocks but for the last, each block's width that of its own
maximum and its buffer canonical; slots at or above `ceil(n/256)` and the cursor do not change. -/
def Obligations.BuildAnswers : Prop :=
  ∀ (vs : List Word) (s : State), Inv s →
    encode (.build vs) = 0x00000033#32 :: BitVec.ofNat 32 vs.length :: vs ∧
    (s.cOpen = true → s.cOwn = true → exec (.build vs) s = .next (answered s [0x00003327#32])) ∧
    (s.cOpen = true → s.cOwn = false → exec (.build vs) s = .next (answered s [0x00003326#32])) ∧
    (s.cOpen = false → s.nbMax * 256 < vs.length → exec (.build vs) s = .next (answered s [0x00003325#32])) ∧
    (s.cOpen = false → vs.length ≤ s.nbMax * 256 → ∃ t, exec (.build vs) s = .next t ∧ t.outQ = s.outQ ++ [[0x00003300#32]] ∧
      t.inQ = s.inQ ∧ t.nbMax = s.nbMax ∧ t.nblk.toNat = (vs.length + 255) / 256 ∧ t.len.toNat = vs.length ∧
      (∀ b, b < t.nblk.toNat →
        widthAt t b = bitsNeeded (maxValue ((vs.drop (b * 256)).take 256)) ∧
        occAt t b = ((vs.drop (b * 256)).take 256).length ∧
        buf t b = .ok (encodeAll ((vs.drop (b * 256)).take 256) (widthAt t b))) ∧
      contents t = vs ∧ SameCursor s t ∧
      (∀ b, t.nblk.toNat ≤ b → widthAt t b = widthAt s b ∧ occAt t b = occAt s b) ∧
      (∀ a, t.nblk.toNat ≤ a / 1024 → ramByte t a = ramByte s a))

/-- `BUILD S` ends in exactly the store that `NEW` followed by `PUSH s` for each `s` of `S` ends in: same `NBLK`, `LEN`,
widths, occupancies and buffers (R207 (a)). -/
def Obligations.BuildEqualsPushes : Prop :=
  ∀ (vs : List Word) (s : State), Inv s → s.cOpen = false → vs.length ≤ s.nbMax * 256 →
    ∃ t u, runAll [.build vs] s = some t ∧ runAll (.new :: vs.map Instr.push) s = some u ∧
      t.nblk = u.nblk ∧ t.len = u.len ∧ blocks t = blocks u

/-- R34: in a state of the invariants every Value of a live block fits its width; the empty store has minimal widths, and
`NEW`, `PUSH` and `BUILD` keep every live width exactly what the block's largest Value needs. -/
def Obligations.PushAndBuildKeepMinimalWidths : Prop :=
  (∀ s : State, Inv s → ∀ b, b < s.nblk.toNat →
    (∀ v ∈ vals s b, bitsNeeded v ≤ widthAt s b) ∧ bitsNeeded (maxValue (vals s b)) ≤ widthAt s b) ∧
  (∀ s : State, s.nblk = 0 → minimalWidths s) ∧
  ∀ (i : Instr) (s t : State), Inv s → minimalWidths s →
    (i = .new ∨ (∃ v, i = .push v) ∨ ∃ vs, i = .build vs) → exec i s = .next t → minimalWidths t

/-! ### The buffered reader (44_cursor.md) -/

/-- R233: `COPEN` answers `E_CBUSY` while a cursor is open; else it opens one of the variant asked for on block 0, decoded
into the cache, with the counters at 0, or with all counters 0 on an empty store; the store does not change. -/
def Obligations.CopenAnswers : Prop :=
  ∀ (own : Bool) (s : State), Inv s →
    encode (.copen own) = [0#7 ++ BitVec.ofBool own ++ 0#16 ++ 0x40#8] ∧
    (s.cOpen = true → exec (.copen own) s = .next (answered s [0x00004029#32])) ∧
    (s.cOpen = false → ∃ t, exec (.copen own) s = .next t ∧ t.outQ = s.outQ ++ [[0x00004000#32]] ∧ t.inQ = s.inQ ∧
      t.cOpen = true ∧ t.cOwn = own ∧ t.cBlk = 0 ∧ t.cPos = 0 ∧ t.cBitoff = 0 ∧
      t.cCnt.toNat = (if s.nblk = 0 then 0 else occAt s 0) ∧
      (∀ k (h : k < 256), k < t.cCnt.toNat → t.cache[k] = (vals s 0).getD k 0) ∧ SameStore s t)

/-- R234: `CNEXT` answers `E_NOCURSOR` with no cursor, `NONE` when exhausted, and else the next Value: from the cache, or,
at the end of a block, from the next block decoded into the cache; it is also the field at the tracked bit offset,
`(N(BUF[C_BLK]) >> C_BITOFF) mod 2^WIDTH[C_BLK]`; position and bit offset advance by one element; the store does not change.
-/
def Obligations.CnextAnswers : Prop :=
  ∀ s : State, Inv s →
    encode .cnext = [0x00000041#32] ∧
    (s.cOpen = false → exec .cnext s = .next (answered s [0x00004128#32])) ∧
    (s.cOpen = true → s.cPos = s.cCnt → s.nblk.toNat ≤ s.cBlk.toNat + 1 →
      exec .cnext s = .next (answered s [0x00004101#32])) ∧
    (s.cOpen = true → s.cPos.toNat < s.cCnt.toNat → ∃ t v, exec .cnext s = .next t ∧
      t.outQ = s.outQ ++ [[0x00004100#32, v]] ∧ t.inQ = s.inQ ∧ s.cache[s.cPos.toNat]? = some v ∧
      v = (contents s).getD (s.cBlk.toNat * 256 + s.cPos.toNat) 0 ∧
      v.toNat = (leNum (bufOf s s.cBlk.toNat) >>> s.cBitoff.toNat) % 2 ^ widthAt s s.cBlk.toNat ∧
      t.cPos.toNat = s.cPos.toNat + 1 ∧ t.cBitoff.toNat = s.cBitoff.toNat + widthAt s s.cBlk.toNat ∧
      t.cBlk = s.cBlk ∧ t.cCnt = s.cCnt ∧ t.cache = s.cache ∧ t.cOpen = true ∧ t.cOwn = s.cOwn ∧ SameStore s t) ∧
    (s.cOpen = true → s.cPos = s.cCnt → s.cBlk.toNat + 1 < s.nblk.toNat → ∃ t v, exec .cnext s = .next t ∧
      t.outQ = s.outQ ++ [[0x00004100#32, v]] ∧ t.inQ = s.inQ ∧
      v = (contents s).getD ((s.cBlk.toNat + 1) * 256) 0 ∧
      v.toNat = leNum (bufOf s (s.cBlk.toNat + 1)) % 2 ^ widthAt s (s.cBlk.toNat + 1) ∧
      t.cPos = 1 ∧ t.cBitoff.toNat = widthAt s (s.cBlk.toNat + 1) ∧
      t.cBlk.toNat = s.cBlk.toNat + 1 ∧ t.cCnt.toNat = occAt s (s.cBlk.toNat + 1) ∧
      (∀ k (h : k < 256), k < t.cCnt.toNat → t.cache[k] = (vals s (s.cBlk.toNat + 1)).getD k 0) ∧
      t.cOpen = true ∧ t.cOwn = s.cOwn ∧ SameStore s t)

/-- `CCLOSE` answers `E_NOCURSOR` with no cursor; else the cursor registers become 0, and the store becomes empty when the
cursor owned it and stays as it was when it did not (R236). That descriptors and RAM, all of them dead then and unspecified by
R322 and D37, keep their bits also when an owning cursor closes is the model's reading (DEDUCED, log 12), not the spec's word.
What `CACHE` holds then is unspecified and not stated. -/
def Obligations.CcloseAnswers : Prop :=
  ∀ s : State,
    encode .cclose = [0x00000042#32] ∧
    (s.cOpen = false → exec .cclose s = .next (answered s [0x00004228#32])) ∧
    (s.cOpen = true → ∃ t, exec .cclose s = .next t ∧ t.outQ = s.outQ ++ [[0x00004200#32]] ∧ t.inQ = s.inQ ∧
      t.cOpen = false ∧ t.cOwn = false ∧ t.cBlk = 0 ∧ t.cCnt = 0 ∧ t.cPos = 0 ∧ t.cBitoff = 0 ∧
      (s.cOwn = true → t.nblk = 0 ∧ t.len = 0) ∧ (s.cOwn = false → t.nblk = s.nblk ∧ t.len = s.len) ∧
      (∀ b, widthAt t b = widthAt s b ∧ occAt t b = occAt s b) ∧ ∀ a, ramByte t a = ramByte s a)

/-- R237: `CSTAT` answers the flag word and the four counters, in every state, and changes nothing. -/
def Obligations.CstatAnswers : Prop :=
  ∀ s : State,
    encode .cstat = [0x00000043#32] ∧
    exec .cstat s = .next (answered s
      [0x00004300#32, BitVec.ofNat 32 (s.cOpen.toNat + 2 * s.cOwn.toNat), BitVec.ofNat 32 s.cBlk.toNat,
        BitVec.ofNat 32 s.cPos.toNat, BitVec.ofNat 32 s.cCnt.toNat, BitVec.ofNat 32 s.cBitoff.toNat])

/-- The transitions of the reader (R235). -/
def Obligations.ReaderTransitions : Prop :=
  ∀ s : State, Inv s →
    (readerState s = .closed → ∀ own, ∃ t, exec (.copen own) s = .next t ∧
      readerState t = if s.nblk = 0 then .exhausted else .serving) ∧
    (readerState s = .closed → exec .cnext s = .next (answered s [0x00004128#32]) ∧
      exec .cclose s = .next (answered s [0x00004228#32])) ∧
    (readerState s = .serving → ∃ t, exec .cnext s = .next t ∧ readerState t ≠ .closed) ∧
    (readerState s = .blockEnd → ∃ t, exec .cnext s = .next t ∧ readerState t ≠ .closed ∧
      t.cBlk.toNat = s.cBlk.toNat + 1) ∧
    (readerState s = .exhausted → exec .cnext s = .next (answered s [0x00004101#32])) ∧
    (readerState s ≠ .closed → ∀ own, exec (.copen own) s = .next (answered s [0x00004029#32])) ∧
    (readerState s ≠ .closed → ∃ t, exec .cclose s = .next t ∧ readerState t = .closed)

/-- R231: while a cursor is open the store does not change: whatever command runs, as long as the cursor is open after it. -/
def Obligations.StoreFixedWhileCursorOpen : Prop :=
  ∀ (i : Instr) (s t : State), s.cOpen = true → exec i s = .next t → t.cOpen = true → SameStore s t

/-- From `COPEN` on, the first `LEN` `CNEXT` commands answer `contents` in order, each what `GET` of its index would, and
every later one answers `NONE` (R238 (a), (b)). -/
def Obligations.CursorServesContents : Prop :=
  ∀ (own : Bool) (s : State) (n : Nat), Inv s → s.cOpen = false →
    ∃ t, runAll (.copen own :: List.replicate n .cnext) s = some t ∧
      t.outQ = s.outQ ++ [0x00004000#32] :: (List.range n).map (fun k =>
        if k < s.len.toNat then [0x00004100#32, (contents s).getD k 0] else [0x00004101#32])

/-! ### The image (45_image.md) -/

/-- R262 with R260: `EXPORT` answers the records of the live blocks, in block order; its length is what `BYTELEN` answers. -/
def Obligations.ExportAnswers : Prop :=
  ∀ s : State, Inv s →
    encode .exportImage = [0x00000050#32] ∧
    (ownedByCursor s → exec .exportImage s = .next (answered s [0x00005027#32])) ∧
    (¬ ownedByCursor s → ∃ d : List Byte,
      d = (List.range s.nblk.toNat).flatMap (fun b =>
        BitVec.ofNat 8 (widthAt s b) :: BitVec.ofNat 8 (occAt s b % 256) :: BitVec.ofNat 8 (occAt s b / 256) :: bufOf s b) ∧
      d.length < 2 ^ 32 ∧ exec .bytelen s = .next (answered s [0x00002400#32, BitVec.ofNat 32 d.length]) ∧
      exec .exportImage s = .next (answered s (0x00005000#32 :: BitVec.ofNat 32 d.length :: packBytes d)))

/-- The parser of `IMPORT` accepts exactly the concatenations of well-shaped records, and gives their blocks with the padding
bits cleared (R263, R264). -/
def Obligations.ImportAcceptsExactlyImages : Prop :=
  ∀ (d : List Byte) (out : List Block),
    parseImage d = some out ↔ ∃ recs : List Block, wellShaped recs ∧ d = imageOf recs ∧ out = recs.map canonicalBlock

/-- `IMPORT` is refused by an open cursor; on a store with no cursor a malformed image is answered `E_MALFORMED` and too
many records `E_FULL`, with the store exactly as before; else the store is exactly the image's blocks, and slots above them
and the cursor do not change (R263, R265). -/
def Obligations.ImportAnswers : Prop :=
  ∀ (d : List Byte) (s : State), Inv s →
    encode (.importImage d) = 0x00000051#32 :: BitVec.ofNat 32 d.length :: packBytes d ∧
    (s.cOpen = true → s.cOwn = true → exec (.importImage d) s = .next (answered s [0x00005127#32])) ∧
    (s.cOpen = true → s.cOwn = false → exec (.importImage d) s = .next (answered s [0x00005126#32])) ∧
    (s.cOpen = false → parseImage d = none → exec (.importImage d) s = .next (answered s [0x00005112#32])) ∧
    ∀ out, s.cOpen = false → parseImage d = some out →
      (s.nbMax < out.length → exec (.importImage d) s = .next (answered s [0x00005125#32])) ∧
      (out.length ≤ s.nbMax → ∃ t, exec (.importImage d) s = .next t ∧ t.outQ = s.outQ ++ [[0x00005100#32]] ∧
        t.inQ = s.inQ ∧ t.nbMax = s.nbMax ∧ t.nblk.toNat = out.length ∧ blocks t = out ∧
        t.len.toNat = (out.map Block.occ).sum ∧ SameCursor s t ∧
        (∀ b, out.length ≤ b → widthAt t b = widthAt s b ∧ occAt t b = occAt s b) ∧
        (∀ a, out.length ≤ a / 1024 → ramByte t a = ramByte s a))

/-- The bytes `EXPORT` answers for one store, imported into any store of the same build with no cursor, give the first store's
blocks and contents (R266 (a)). -/
def Obligations.ExportThenImportRestores : Prop :=
  ∀ s u : State, Inv s → Inv u → u.cOpen = false → u.nbMax = s.nbMax →
    ∃ t, exec (.importImage (imageOf (blocks s))) u = .next t ∧ t.outQ = u.outQ ++ [[0x00005100#32]] ∧
      blocks t = blocks s ∧ contents t = contents s ∧ t.len = s.len
end

