-- ==== Sys2Proof/Laws/Bytes.lean ====
section
/-! SUPPORT. Laws of little-endian byte sequences (20_memory.md R53 to R55). -/

namespace Sys2Proof.Machine

theorem bytesFor_le (n : Nat) : n ≤ 8 * bytesFor n := by unfold bytesFor; omega

theorem bytesFor_lt (n : Nat) : 8 * bytesFor n < n + 8 := by unfold bytesFor; omega

theorem bytesFor_mono {m n : Nat} (h : m ≤ n) : bytesFor m ≤ bytesFor n := by unfold bytesFor; omega

theorem bytesFor_le_of_le {n k : Nat} (h : n ≤ 8 * k) : bytesFor n ≤ k := by unfold bytesFor; omega

@[simp] theorem bytesFor_zero : bytesFor 0 = 0 := rfl

theorem pow256 (k : Nat) : 256 ^ k = 2 ^ (8 * k) := by rw [show 256 = 2 ^ 8 from rfl, ← Nat.pow_mul]

theorem leNum_lt (bs : List Byte) : leNum bs < 256 ^ bs.length := by
  induction bs with
  | nil => simp [leNum]
  | cons x xs ih =>
    have := x.isLt
    simp only [leNum, List.length_cons, Nat.pow_succ]
    omega

theorem leNum_append (as bs : List Byte) : leNum (as ++ bs) = leNum as + 256 ^ as.length * leNum bs := by
  induction as with
  | nil => simp [leNum]
  | cons x xs ih =>
    simp only [List.cons_append, leNum, ih, List.length_cons, Nat.pow_succ]
    ring

theorem leNum_zeros (n : Nat) : leNum (zeros n) = 0 := by
  induction n with
  | zero => rfl
  | succ n ih =>
    simp only [zeros] at ih
    simp only [zeros, List.replicate_succ, leNum, ih]
    rfl

@[simp] theorem zeros_length (n : Nat) : (zeros n).length = n := by simp [zeros]

@[simp] theorem leBytes_length (n v : Nat) : (leBytes n v).length = n := by
  induction n generalizing v with
  | zero => rfl
  | succ n ih => simp [leBytes, ih]

theorem leNum_leBytes (n v : Nat) : leNum (leBytes n v) = v % 256 ^ n := by
  induction n generalizing v with
  | zero => simp [leBytes, leNum, Nat.mod_one]
  | succ n ih =>
    have h : v % 256 ^ (n + 1) = v % 256 + 256 * (v / 256 % 256 ^ n) := by
      rw [Nat.pow_succ, Nat.mul_comm (256 ^ n) 256, Nat.mod_mul]
    simp only [leBytes, leNum, ih, BitVec.toNat_ofNat, h]

theorem leBytes_leNum (bs : List Byte) : leBytes bs.length (leNum bs) = bs := by
  induction bs with
  | nil => rfl
  | cons x xs ih =>
    have hx := x.isLt
    have h1 : (x.toNat + 256 * leNum xs) / 256 = leNum xs := by omega
    simp only [List.length_cons, leBytes, leNum, h1, ih]
    congr 1
    apply BitVec.eq_of_toNat_eq
    simp only [BitVec.toNat_ofNat]
    omega

/-- Byte sequences of one length are equal when their numbers are. -/
theorem leNum_inj {as bs : List Byte} (hl : as.length = bs.length) (h : leNum as = leNum bs) : as = bs := by
  rw [← leBytes_leNum as, ← leBytes_leNum bs, hl, h]

theorem leNum_drop (bs : List Byte) (k : Nat) : leNum (bs.drop k) = leNum bs / 256 ^ k := by
  induction k generalizing bs with
  | zero => simp
  | succ k ih =>
    cases bs with
    | nil => simp [leNum]
    | cons x xs =>
      have hx := x.isLt
      have h1 : (x.toNat + 256 * leNum xs) / 256 = leNum xs := by omega
      simp only [List.drop_succ_cons, ih, leNum, Nat.pow_succ]
      rw [Nat.mul_comm (256 ^ k) 256, ← Nat.div_div_eq_div_mul, h1]

theorem leNum_take (bs : List Byte) (k : Nat) : leNum (bs.take k) = leNum bs % 256 ^ k := by
  have h := leNum_lt (bs.take k)
  have hd := congrArg leNum (List.take_append_drop k bs)
  rw [leNum_append] at hd
  by_cases hk : k ≤ bs.length
  · have hl : (bs.take k).length = k := by simp [hk]
    rw [hl] at h hd
    rw [← hd, Nat.add_mul_mod_self_left, Nat.mod_eq_of_lt h]
  · have hk' : bs.length ≤ k := by omega
    rw [List.take_of_length_le hk', Nat.mod_eq_of_lt]
    exact lt_of_lt_of_le (leNum_lt bs) (Nat.pow_le_pow_right (by omega) hk')

/-- Stream bit `p` is bit `p` of the sequence's number (R53). -/
theorem streamBit_eq_testBit (bs : List Byte) (p : Nat) : streamBit bs p = (leNum bs).testBit p := by
  induction bs generalizing p with
  | nil => simp [streamBit, leNum]
  | cons x xs ih =>
    have hx := x.isLt
    by_cases hp : p < 8
    · have h0 : p / 8 = 0 := by omega
      have h1 : p % 8 = p := by omega
      have h2 : (leNum (x :: xs)).testBit p = x.toNat.testBit p := by
        have : x.toNat = leNum (x :: xs) % 2 ^ 8 := by simp only [leNum]; omega
        rw [this, Nat.testBit_mod_two_pow]
        simp [hp]
      simp [streamBit, h0, h1, h2, BitVec.getLsbD]
    · obtain ⟨q, rfl⟩ : ∃ q, p = q + 8 := ⟨p - 8, by omega⟩
      have h2 : (leNum (x :: xs)).testBit (q + 8) = (leNum xs).testBit q := by
        have : leNum xs = leNum (x :: xs) / 2 ^ 8 := by simp only [leNum]; omega
        rw [this, Nat.testBit_div_two_pow]
      rw [h2, ← ih]
      have h3 : (q + 8) / 8 = q / 8 + 1 := by omega
      simp [streamBit, h3]

end Sys2Proof.Machine
end

