-- ==== Sys2Proof/Laws/Codec.lean ====
section
/-! SUPPORT. Laws of the block codec (41_codec.md R142 to R149): what each function is on the number of a byte sequence. -/

namespace Sys2Proof.Machine

theorem fits_iff (v : Word) (w : Nat) : fits v w = true ↔ v.toNat < 2 ^ w := by
  have : 0 < 2 ^ w := Nat.two_pow_pos w
  unfold fits maxRepresentable
  rw [decide_eq_true_iff]
  omega

theorem allFit_iff (vs : List Word) (w : Nat) : allFit vs w = true ↔ ∀ v ∈ vs, v.toNat < 2 ^ w := by
  simp [allFit, fits_iff]

theorem fieldFirst_shift (i w : Nat) : 8 * fieldFirst i w + fieldShift i w = i * w := by
  unfold fieldFirst fieldShift fieldBit; omega

theorem fieldShift_lt (i w : Nat) : fieldShift i w < 8 := by unfold fieldShift; omega

theorem fieldBytes_covers (i w : Nat) : fieldShift i w + w ≤ 8 * fieldBytes i w := bytesFor_le _

theorem fieldBytes_le {i w : Nat} (hw : w ≤ 32) : fieldBytes i w ≤ 5 := by
  have := fieldShift_lt i w
  unfold fieldBytes bytesFor; omega

/-- The bytes of a field inside its sequence are bytes of the sequence (R141). -/
theorem fieldBytes_inside {l i w : Nat} (h : (i + 1) * w ≤ 8 * l) (_ : 0 < w) :
    fieldFirst i w + fieldBytes i w ≤ l := by
  have h1 := fieldFirst_shift i w
  rw [Nat.add_mul] at h
  unfold fieldBytes bytesFor
  omega

theorem fieldBytes_width_zero (i : Nat) : fieldBytes i 0 = 0 := by simp [fieldBytes, fieldShift, fieldBit]

theorem fieldFirst_width_zero (i : Nat) : fieldFirst i 0 = 0 := by simp [fieldFirst, fieldBit]

theorem fieldFirst_add_bytes_le {l i w : Nat} (h : (i + 1) * w ≤ 8 * l) : fieldFirst i w + fieldBytes i w ≤ l := by
  rcases Nat.eq_zero_or_pos w with rfl | hw
  · simp [fieldBytes_width_zero, fieldFirst_width_zero]
  · exact fieldBytes_inside h hw

/-! ### Fields of a window -/

theorem fieldMask_toNat {w : Nat} (hw : w ≤ 32) : (fieldMask w).toNat = 2 ^ w - 1 := by
  have h1 : 0 < 2 ^ w := Nat.two_pow_pos w
  have h2 : 2 ^ w ≤ 2 ^ 32 := Nat.pow_le_pow_right (by omega) hw
  simp only [fieldMask, maxRepresentable, BitVec.toNat_ofNat]
  exact Nat.mod_eq_of_lt (by omega)

theorem fieldMask_getLsbD {w : Nat} (hw : w ≤ 32) (j : Nat) : (fieldMask w).getLsbD j = decide (j < w) := by
  rw [BitVec.getLsbD, fieldMask_toNat hw, Nat.testBit_two_pow_sub_one]

theorem extractField_toNat (win : BitVec 40) (sh : Nat) {w : Nat} (hw : w ≤ 32) :
    (extractField win sh w).toNat = win.toNat / 2 ^ sh % 2 ^ w := by
  have h2 : 2 ^ w ≤ 2 ^ 32 := Nat.pow_le_pow_right (by omega) hw
  have h3 : win.toNat / 2 ^ sh % 2 ^ w < 2 ^ w := Nat.mod_lt _ (Nat.two_pow_pos w)
  simp only [extractField, BitVec.toNat_setWidth, BitVec.toNat_and, BitVec.toNat_ushiftRight, fieldMask_toNat hw,
    Nat.and_two_pow_sub_one_eq_mod, Nat.shiftRight_eq_div_pow]
  exact Nat.mod_eq_of_lt (by omega)

/-- The window after a write, as a number: the bits below the field, the field, the bits above it (R147). -/
theorem insertField_toNat (win : BitVec 40) {sh w : Nat} (v : Word) (hw : w ≤ 32) (hs : sh + w ≤ 40)
    (hv : v.toNat < 2 ^ w) :
    (insertField win sh w v).toNat
      = win.toNat % 2 ^ sh + 2 ^ sh * (v.toNat + 2 ^ w * (win.toNat / 2 ^ (sh + w))) := by
  have hwin := win.isLt
  have key : ∀ j, (win.toNat % 2 ^ sh + 2 ^ sh * (v.toNat + 2 ^ w * (win.toNat / 2 ^ (sh + w)))).testBit j
      = if j < sh then win.toNat.testBit j else if j < sh + w then v.toNat.testBit (j - sh) else win.toNat.testBit j := by
    intro j
    have hlow : win.toNat % 2 ^ sh < 2 ^ sh := Nat.mod_lt _ (Nat.two_pow_pos sh)
    rw [Nat.add_comm, Nat.testBit_two_pow_mul_add _ hlow]
    split
    · rename_i h; simp [h]
    · rename_i h
      rw [Nat.add_comm v.toNat, Nat.testBit_two_pow_mul_add _ hv]
      by_cases h2 : j < sh + w
      · have : j - sh < w := by omega
        simp [this, h2]
      · have : ¬ j - sh < w := by omega
        simp only [this, h2, if_false, Nat.testBit_div_two_pow]
        congr 1; omega
  apply Nat.eq_of_testBit_eq
  intro j
  rw [key, ← BitVec.getLsbD]
  by_cases hj : j < 40
  · simp only [insertField, BitVec.getLsbD_or, BitVec.getLsbD_and, BitVec.getLsbD_not, BitVec.getLsbD_shiftLeft,
      fieldMask_getLsbD hw, BitVec.getLsbD_setWidth, hj, decide_true, Bool.true_and]
    rcases Nat.lt_or_ge j sh with h | h
    · simp [h, BitVec.getLsbD]
    · by_cases h2 : j < sh + w
      · have h3 : ¬ j < sh := by omega
        have h4 : j - sh < w := by omega
        have h5 : j - sh < 40 := by omega
        simp [h3, h2, h4, h5, BitVec.getLsbD]
      · have h3 : ¬ j < sh := by omega
        have h4 : ¬ j - sh < w := by omega
        have h6 : v.toNat.testBit (j - sh) = false :=
          Nat.testBit_lt_two_pow (lt_of_lt_of_le hv (Nat.pow_le_pow_right (by omega) (by omega)))
        simp [h3, h2, h4, h6, BitVec.getLsbD]
  · have h1 : ¬ j < sh := by omega
    have h2 : ¬ j < sh + w := by omega
    have h3 : win.toNat.testBit j = false :=
      Nat.testBit_lt_two_pow (lt_of_lt_of_le hwin (Nat.pow_le_pow_right (by omega) (by omega)))
    simp only [h1, h2, if_false, h3]
    exact BitVec.getLsbD_of_ge _ _ (by omega)

theorem windowOf_toNat {bs : List Byte} (h : bs.length ≤ 5) : (windowOf bs).toNat = leNum bs := by
  have h1 := leNum_lt bs
  have h2 : 256 ^ bs.length ≤ 256 ^ 5 := Nat.pow_le_pow_right (by omega) h
  simp only [windowOf, BitVec.toNat_ofNat]
  exact Nat.mod_eq_of_lt (by omega)

/-! ### `decode_one` and `decode_all` (R144, R146) -/

/-- `decode_one(bs, i, w) = (N(bs) >> (i*w)) mod 2^w` (R144). -/
theorem decodeOne_toNat (bs : List Byte) (i : Nat) {w : Nat} (hw : w ≤ 32) :
    (decodeOne bs i w).toNat = leNum bs / 2 ^ (i * w) % 2 ^ w := by
  have hnb := fieldBytes_le (i := i) hw
  have hcov := fieldBytes_covers i w
  have hlen : ((bs.drop (fieldFirst i w)).take (fieldBytes i w)).length ≤ 5 := by
    simp only [List.length_take]; omega
  rw [decodeOne, extractField_toNat _ _ hw, windowOf_toNat hlen, leNum_take, leNum_drop, pow256, pow256,
    ← fieldFirst_shift i w, Nat.pow_add, ← Nat.div_div_eq_div_mul]
  generalize leNum bs / 2 ^ (8 * fieldFirst i w) = x
  obtain ⟨d, hd⟩ : ∃ d, 8 * fieldBytes i w = fieldShift i w + (w + d) :=
    ⟨8 * fieldBytes i w - (fieldShift i w + w), by omega⟩
  rw [hd, Nat.pow_add, Nat.mod_mul_right_div_self, Nat.pow_add, Nat.mod_mul_right_mod]

theorem decodeOne_lt (bs : List Byte) (i : Nat) {w : Nat} (hw : w ≤ 32) : (decodeOne bs i w).toNat < 2 ^ w := by
  rw [decodeOne_toNat bs i hw]; exact Nat.mod_lt _ (Nat.two_pow_pos w)

@[simp] theorem decodeAll_length (bs : List Byte) (n w : Nat) : (decodeAll bs n w).length = n := by simp [decodeAll]

theorem decodeAll_succ (bs : List Byte) (n w : Nat) :
    decodeAll bs (n + 1) w = decodeAll bs n w ++ [decodeOne bs n w] := by
  simp [decodeAll, List.range_succ]

theorem decodeAll_getElem (bs : List Byte) (n w k : Nat) (h : k < (decodeAll bs n w).length) :
    (decodeAll bs n w)[k] = decodeOne bs k w := by simp [decodeAll]

theorem decodeAll_fit {bs : List Byte} {n w : Nat} (hw : w ≤ 32) : ∀ v ∈ decodeAll bs n w, v.toNat < 2 ^ w := by
  intro v hv
  simp only [decodeAll, List.mem_map, List.mem_range] at hv
  obtain ⟨k, -, rfl⟩ := hv
  exact decodeOne_lt bs k hw

/-! ### `encode_all` (R142) -/

theorem packNum_append (w : Nat) (us vs : List Word) :
    packNum w (us ++ vs) = packNum w us + 2 ^ (us.length * w) * packNum w vs := by
  induction us with
  | nil => simp [packNum]
  | cons u us ih =>
    simp only [List.cons_append, packNum, ih, List.length_cons, Nat.add_mul, Nat.one_mul, Nat.pow_add]
    ring

theorem packNum_lt {w : Nat} {vs : List Word} (h : ∀ v ∈ vs, v.toNat < 2 ^ w) : packNum w vs < 2 ^ (vs.length * w) := by
  induction vs with
  | nil => simp [packNum]
  | cons v vs ih =>
    have h1 := h v (by simp)
    have h2 := ih (fun u hu => h u (by simp [hu]))
    simp only [packNum, List.length_cons, Nat.add_mul, Nat.one_mul, Nat.pow_add]
    calc v.toNat + packNum w vs * 2 ^ w < 2 ^ w + packNum w vs * 2 ^ w := by omega
      _ = (packNum w vs + 1) * 2 ^ w := by ring
      _ ≤ 2 ^ (vs.length * w) * 2 ^ w := Nat.mul_le_mul_right _ h2

@[simp] theorem encodeAll_length (vs : List Word) (w : Nat) : (encodeAll vs w).length = bytesFor (vs.length * w) := by
  simp [encodeAll]

/-- `N(encode_all(vs, w)) = Σ vs[k] << (k*w)` when every Value fits (R142). -/
theorem leNum_encodeAll {vs : List Word} {w : Nat} (h : ∀ v ∈ vs, v.toNat < 2 ^ w) :
    leNum (encodeAll vs w) = packNum w vs := by
  rw [encodeAll, leNum_leBytes, pow256, Nat.mod_eq_of_lt]
  exact lt_of_lt_of_le (packNum_lt h) (Nat.pow_le_pow_right (by omega) (bytesFor_le _))

/-- Field `k` of a packed number is Value `k` (R54). -/
theorem packNum_field {w : Nat} {vs : List Word} (h : ∀ v ∈ vs, v.toNat < 2 ^ w) (k : Nat) :
    packNum w vs / 2 ^ (k * w) % 2 ^ w = (vs.getD k 0).toNat := by
  induction vs generalizing k with
  | nil => simp [packNum]
  | cons v vs ih =>
    have h1 := h v (by simp)
    cases k with
    | zero =>
      rw [packNum, Nat.zero_mul, Nat.pow_zero, Nat.div_one, Nat.add_mul_mod_self_right, Nat.mod_eq_of_lt h1]
      rfl
    | succ k =>
      have h2 := ih (fun u hu => h u (by simp [hu])) k
      have h3 : (v.toNat + packNum w vs * 2 ^ w) / 2 ^ w = packNum w vs := by
        rw [Nat.add_mul_div_right _ _ (Nat.two_pow_pos w), Nat.div_eq_of_lt h1, Nat.zero_add]
      rw [packNum, Nat.add_mul, Nat.one_mul, Nat.add_comm (k * w), Nat.pow_add, ← Nat.div_div_eq_div_mul, h3, h2]
      rfl

theorem decodeOne_encodeAll {vs : List Word} {w : Nat} (hw : w ≤ 32) (h : ∀ v ∈ vs, v.toNat < 2 ^ w) (k : Nat) :
    decodeOne (encodeAll vs w) k w = vs.getD k 0 := by
  apply BitVec.eq_of_toNat_eq
  rw [decodeOne_toNat _ _ hw, leNum_encodeAll h, packNum_field h]

/-- Decoding what was encoded gives the Values back (R149 (a)). -/
theorem decodeAll_of_encodeAll {vs : List Word} {w : Nat} (hw : w ≤ 32) (h : ∀ v ∈ vs, v.toNat < 2 ^ w) :
    decodeAll (encodeAll vs w) vs.length w = vs := by
  apply List.ext_getElem (by simp)
  intro k h1 h2
  rw [decodeAll_getElem, decodeOne_encodeAll hw h]
  simp [List.getD, h2]

/-- `Σ_k decode_one(bs, k, w) << (k*w)` is the low `n*w` bits of `N(bs)`. -/
theorem packNum_decodeAll (bs : List Byte) (n : Nat) {w : Nat} (hw : w ≤ 32) :
    packNum w (decodeAll bs n w) = leNum bs % 2 ^ (n * w) := by
  induction n with
  | zero => simp [decodeAll, packNum, Nat.mod_one]
  | succ n ih =>
    rw [decodeAll_succ, packNum_append, ih, decodeAll_length]
    simp only [packNum, Nat.zero_mul, Nat.add_zero]
    rw [decodeOne_toNat _ _ hw, Nat.add_mul, Nat.one_mul, Nat.pow_add, Nat.mod_mul]

theorem leNum_canonical (bs : List Byte) (n : Nat) {w : Nat} (hw : w ≤ 32) :
    leNum (encodeAll (decodeAll bs n w) w) = leNum bs % 2 ^ (n * w) := by
  rw [leNum_encodeAll (decodeAll_fit hw), packNum_decodeAll _ _ hw]

theorem canonicalForm_eq (bs : List Byte) (n w : Nat) : canonicalForm bs n w = encodeAll (decodeAll bs n w) w := rfl

/-- A canonical form has exactly the bytes its elements need, and keeps their bits with every padding bit 0 (R149 (b)). -/
theorem canonicalForm_spec (bs : List Byte) (n : Nat) {w : Nat} (hw : w ≤ 32) :
    (canonicalForm bs n w).length = bytesFor (n * w) ∧ leNum (canonicalForm bs n w) = leNum bs % 2 ^ (n * w) :=
  ⟨by simp [canonicalForm_eq], leNum_canonical bs n hw⟩

/-- A sequence of exactly `ceil(n*w/8)` bytes whose padding bits are 0 is its own canonical form (R149 (b)). -/
theorem encodeAll_of_decodeAll {bs : List Byte} {n w : Nat} (hw : w ≤ 32) (hl : bs.length = bytesFor (n * w))
    (hp : leNum bs < 2 ^ (n * w)) : encodeAll (decodeAll bs n w) w = bs := by
  apply leNum_inj
  · simp [hl]
  · rw [leNum_canonical _ _ hw, Nat.mod_eq_of_lt hp]

/-! ### `write_one` (R147) -/

@[simp] theorem writeOne_length {bs : List Byte} {i w : Nat} (v : Word) (h : (i + 1) * w ≤ 8 * bs.length) :
    (writeOne bs i w v).length = bs.length := by
  have := fieldFirst_add_bytes_le h
  simp only [writeOne, List.length_append, List.length_take, leBytes_length, List.length_drop]
  omega

/-- `write_one` on the number of a sequence: the bits below field `i`, the Value, the bits above (R147). -/
theorem leNum_writeOne {bs : List Byte} {i w : Nat} {v : Word} (hw : w ≤ 32) (h : (i + 1) * w ≤ 8 * bs.length)
    (hv : v.toNat < 2 ^ w) :
    leNum (writeOne bs i w v)
      = leNum bs % 2 ^ (i * w) + 2 ^ (i * w) * (v.toNat + 2 ^ w * (leNum bs / 2 ^ ((i + 1) * w))) := by
  have hin := fieldFirst_add_bytes_le h
  have hnb := fieldBytes_le (i := i) hw
  have hcov := fieldBytes_covers i w
  have hsh := fieldShift_lt i w
  have hlen : ((bs.drop (fieldFirst i w)).take (fieldBytes i w)).length ≤ 5 := by
    simp only [List.length_take]; omega
  have hfs := fieldFirst_shift i w
  simp only [writeOne]
  generalize hX : leNum bs = X
  generalize fieldFirst i w = f at *
  generalize fieldShift i w = s at *
  generalize fieldBytes i w = nb at *
  have hwin : (windowOf ((bs.drop f).take nb)).toNat = X / 2 ^ (8 * f) % 2 ^ (8 * nb) := by
    rw [windowOf_toNat hlen, leNum_take, leNum_drop, hX, pow256, pow256]
  have hlt : leNum (bs.take f) = X % 2 ^ (8 * f) := by rw [leNum_take, hX, pow256]
  have hdr : leNum (bs.drop (f + nb)) = X / 2 ^ (8 * f) / 2 ^ (8 * nb) := by
    rw [leNum_drop, hX, pow256, Nat.mul_add, Nat.pow_add, Nat.div_div_eq_div_mul]
  have hins := insertField_toNat (windowOf ((bs.drop f).take nb)) v hw (by omega : s + w ≤ 40) hv
  have hlf : (bs.take f).length = f := by simp only [List.length_take]; omega
  rw [leNum_append, leNum_append, hlt, hlf, leBytes_length, leNum_leBytes, hdr, pow256, pow256, hins, hwin]
  have hY : X / 2 ^ (i * w) = X / 2 ^ (8 * f) / 2 ^ s := by rw [← hfs, Nat.pow_add, Nat.div_div_eq_div_mul]
  have e1 : X / 2 ^ ((i + 1) * w) = X / 2 ^ (8 * f) / 2 ^ s / 2 ^ w := by
    rw [Nat.add_mul, Nat.one_mul, Nat.pow_add, ← Nat.div_div_eq_div_mul, hY]
  have e2 : X % 2 ^ (i * w) = X % 2 ^ (8 * f) + 2 ^ (8 * f) * (X / 2 ^ (8 * f) % 2 ^ s) := by
    rw [← hfs, Nat.pow_add, Nat.mod_mul]
  rw [e1, e2]
  obtain ⟨d, hd⟩ : ∃ d, 8 * nb = s + w + d := ⟨8 * nb - (s + w), by omega⟩
  generalize X / 2 ^ (8 * f) = Y
  have e3 : Y % 2 ^ (8 * nb) % 2 ^ s = Y % 2 ^ s := by
    rw [hd, Nat.add_assoc, Nat.pow_add, Nat.mod_mul_right_mod]
  have e4 : Y % 2 ^ (8 * nb) / 2 ^ (s + w) = Y / 2 ^ s / 2 ^ w % 2 ^ d := by
    rw [hd, Nat.pow_add, Nat.mod_mul_right_div_self, Nat.pow_add, Nat.div_div_eq_div_mul]
  have e5 : Y / 2 ^ (8 * nb) = Y / 2 ^ s / 2 ^ w / 2 ^ d := by
    rw [hd, Nat.pow_add, Nat.pow_add, Nat.div_div_eq_div_mul, Nat.div_div_eq_div_mul, Nat.mul_assoc]
  rw [e3, e4, e5]
  generalize Y / 2 ^ s / 2 ^ w = Z
  have hYs : Y % 2 ^ s < 2 ^ s := Nat.mod_lt _ (Nat.two_pow_pos s)
  have hZd : Z % 2 ^ d < 2 ^ d := Nat.mod_lt _ (Nat.two_pow_pos d)
  have hmid : Y % 2 ^ s + 2 ^ s * (v.toNat + 2 ^ w * (Z % 2 ^ d)) < 2 ^ (8 * nb) := by
    have h1 : v.toNat + 2 ^ w * (Z % 2 ^ d) < 2 ^ (w + d) := by
      rw [Nat.pow_add]
      calc v.toNat + 2 ^ w * (Z % 2 ^ d) < 2 ^ w + 2 ^ w * (Z % 2 ^ d) := by omega
        _ = 2 ^ w * (Z % 2 ^ d + 1) := by ring
        _ ≤ 2 ^ w * 2 ^ d := Nat.mul_le_mul_left _ hZd
    rw [hd, Nat.add_assoc, Nat.pow_add]
    calc Y % 2 ^ s + 2 ^ s * (v.toNat + 2 ^ w * (Z % 2 ^ d))
        < 2 ^ s + 2 ^ s * (v.toNat + 2 ^ w * (Z % 2 ^ d)) := by omega
      _ = 2 ^ s * (v.toNat + 2 ^ w * (Z % 2 ^ d) + 1) := by ring
      _ ≤ 2 ^ s * 2 ^ (w + d) := Nat.mul_le_mul_left _ h1
  rw [Nat.mod_eq_of_lt hmid, ← hfs]
  have hz : Z = Z % 2 ^ d + 2 ^ d * (Z / 2 ^ d) := (Nat.mod_add_div Z (2 ^ d)).symm
  conv_rhs => rw [hz]
  rw [hd, Nat.pow_add, Nat.pow_add, Nat.pow_add]
  ring

theorem field_of_sum (a v c : Nat) {o w : Nat} (ha : a < 2 ^ o) (hv : v < 2 ^ w) :
    (a + 2 ^ o * (v + 2 ^ w * c)) / 2 ^ o % 2 ^ w = v := by
  rw [Nat.add_mul_div_left _ _ (Nat.two_pow_pos o), Nat.div_eq_of_lt ha, Nat.zero_add, Nat.add_mul_mod_self_left,
    Nat.mod_eq_of_lt hv]

/-! ### Growing, shrinking and widening a canonical buffer (R203, R205, R202) -/

theorem allFit_append {vs : List Word} {v : Word} {w : Nat} (h : ∀ u ∈ vs, u.toNat < 2 ^ w) (hv : v.toNat < 2 ^ w) :
    ∀ u ∈ vs ++ [v], u.toNat < 2 ^ w := by
  intro u hu
  rcases List.mem_append.mp hu with hu | hu
  · exact h u hu
  · rw [List.mem_singleton.mp hu]; exact hv

theorem leNum_encodeAll_snoc {vs : List Word} {v : Word} {w : Nat} (h : ∀ u ∈ vs, u.toNat < 2 ^ w)
    (hv : v.toNat < 2 ^ w) :
    leNum (encodeAll (vs ++ [v]) w) = packNum w vs + 2 ^ (vs.length * w) * v.toNat := by
  rw [leNum_encodeAll (allFit_append h hv), packNum_append]
  simp [packNum]

/-- The append step keeps a buffer canonical (R149 (d), R203). -/
theorem growAndWrite_encodeAll {vs : List Word} {v : Word} {w : Nat} (hw : w ≤ 32) (h : ∀ u ∈ vs, u.toNat < 2 ^ w)
    (hv : v.toNat < 2 ^ w) :
    growAndWrite (encodeAll vs w) vs.length w v = encodeAll (vs ++ [v]) w := by
  rw [growAndWrite, growBytes]
  have hmono : bytesFor (vs.length * w) ≤ bytesFor ((vs.length + 1) * w) :=
    bytesFor_mono (Nat.mul_le_mul_right _ (by omega))
  have hlen : (encodeAll vs w ++ zeros (bytesFor ((vs.length + 1) * w) - bytesFor (vs.length * w))).length
      = bytesFor ((vs.length + 1) * w) := by
    simp only [List.length_append, encodeAll_length, zeros_length]; omega
  have hb : (vs.length + 1) * w ≤ 8 * bytesFor ((vs.length + 1) * w) := bytesFor_le _
  apply leNum_inj
  · rw [writeOne_length _ (by rw [hlen]; exact hb), hlen]; simp
  · rw [leNum_writeOne hw (by rw [hlen]; exact hb) hv, leNum_append, leNum_zeros, leNum_encodeAll h,
      leNum_encodeAll_snoc h hv, Nat.mul_zero, Nat.add_zero]
    have hp := packNum_lt h
    have hp2 : packNum w vs < 2 ^ ((vs.length + 1) * w) :=
      lt_of_lt_of_le hp (Nat.pow_le_pow_right (by omega) (Nat.mul_le_mul_right _ (by omega)))
    rw [Nat.mod_eq_of_lt hp, Nat.div_eq_of_lt hp2, Nat.mul_zero, Nat.add_zero]

/-- The buffer after a pop is canonical (R205). -/
theorem take_writeOne_zero {vs : List Word} {v : Word} {w : Nat} (hw : w ≤ 32) (h : ∀ u ∈ vs, u.toNat < 2 ^ w)
    (hv : v.toNat < 2 ^ w) :
    (writeOne (encodeAll (vs ++ [v]) w) vs.length w 0).take (bytesFor (vs.length * w)) = encodeAll vs w := by
  have hlen : (encodeAll (vs ++ [v]) w).length = bytesFor ((vs.length + 1) * w) := by simp
  have hb : (vs.length + 1) * w ≤ 8 * (encodeAll (vs ++ [v]) w).length := by rw [hlen]; exact bytesFor_le _
  have hmono : bytesFor (vs.length * w) ≤ bytesFor ((vs.length + 1) * w) :=
    bytesFor_mono (Nat.mul_le_mul_right _ (by omega))
  have hp := packNum_lt h
  have hfull := packNum_lt (allFit_append h hv)
  rw [packNum_append] at hfull
  simp only [packNum, Nat.zero_mul, Nat.add_zero, List.length_append, List.length_singleton] at hfull
  apply leNum_inj
  · rw [List.length_take, writeOne_length _ hb, hlen, encodeAll_length]; omega
  · have h0 : (0 : Word).toNat = 0 := rfl
    rw [leNum_take, leNum_writeOne hw hb (by simp), leNum_encodeAll_snoc h hv, leNum_encodeAll h,
      Nat.add_mul_mod_self_left, Nat.mod_eq_of_lt hp, Nat.div_eq_of_lt hfull, h0, Nat.mul_zero, Nat.add_zero,
      Nat.mul_zero, Nat.add_zero, pow256, Nat.mod_eq_of_lt]
    exact lt_of_lt_of_le hp (Nat.pow_le_pow_right (by omega) (bytesFor_le _))

/-- A repack of a canonical buffer is the canonical buffer at the new width (R148, R149 (c)). -/
theorem repack_encodeAll {vs : List Word} {w w' : Nat} (hw : w ≤ 32) (h : ∀ u ∈ vs, u.toNat < 2 ^ w) :
    repack (encodeAll vs w) vs.length w w' = encodeAll vs w' := by
  rw [repack, decodeAll_of_encodeAll hw h]

/-- A repack whose Values fit the new width keeps them (R149 (c)). -/
theorem decodeAll_repack {bs : List Byte} {n w w' : Nat} (hw' : w' ≤ 32)
    (h : ∀ v ∈ decodeAll bs n w, v.toNat < 2 ^ w') : decodeAll (repack bs n w w') n w' = decodeAll bs n w := by
  have hd := decodeAll_of_encodeAll hw' h
  rwa [decodeAll_length] at hd

/-- An encoding has at most four bytes a Value, exactly four at width 32 (R149 (e)). -/
theorem encodeAll_length_bound (vs : List Word) {w : Nat} (hw : w ≤ 32) :
    (encodeAll vs w).length ≤ 4 * vs.length ∧ (w = 32 → (encodeAll vs w).length = 4 * vs.length) := by
  have hmul := Nat.mul_le_mul_left vs.length hw
  simp only [encodeAll_length, bytesFor]
  refine ⟨by omega, ?_⟩
  rintro rfl
  omega

end Sys2Proof.Machine
end

