-- ==== Sys2Proof/Laws/BitWidth.lean ====
section
/-! SUPPORT. Laws of the bit-width calculator (40_bitwidth.md R121, R122). -/

namespace Sys2Proof.Machine

theorem zerosFrom_le (v : Word) (n : Nat) : zerosFrom v n ≤ n := by
  induction n with
  | zero => simp [zerosFrom]
  | succ n ih => simp only [zerosFrom]; split <;> omega

/-- Above the leading one there are only zero bits. -/
theorem mod_lt_of_zerosFrom (v : Word) (n : Nat) : v.toNat % 2 ^ n < 2 ^ (n - zerosFrom v n) := by
  induction n with
  | zero => simp [zerosFrom, Nat.mod_one]
  | succ n ih =>
    have hle := zerosFrom_le v n
    simp only [zerosFrom]
    split
    · exact Nat.mod_lt _ (Nat.two_pow_pos _)
    · rename_i h
      have hb : v.toNat.testBit n = false := by simpa [BitVec.getLsbD] using h
      have h2 : v.toNat % 2 ^ (n + 1) = v.toNat % 2 ^ n := by
        rw [Nat.testBit_eq_decide_div_mod_eq] at hb
        have hm : v.toNat / 2 ^ n % 2 = 0 := by
          have := Nat.mod_two_eq_zero_or_one (v.toNat / 2 ^ n)
          simp at hb; omega
        rw [Nat.pow_succ, Nat.mod_mul, hm, Nat.mul_zero, Nat.add_zero]
      rw [h2]
      have : n + 1 - (zerosFrom v n + 1) = n - zerosFrom v n := by omega
      rw [this]; exact ih

/-- The bit below the leading zeros is one. -/
theorem testBit_of_zerosFrom (v : Word) {n : Nat} (h : zerosFrom v n < n) :
    v.toNat.testBit (n - zerosFrom v n - 1) = true := by
  induction n with
  | zero => omega
  | succ n ih =>
    simp only [zerosFrom] at h ⊢
    split at h
    · rename_i hb
      simp only [hb, if_true]
      exact hb
    · rename_i hb
      have h1 := ih (by omega)
      simp only [hb]
      have : n + 1 - (zerosFrom v n + 1) - 1 = n - zerosFrom v n - 1 := by omega
      simpa [this] using h1

theorem bitsNeeded_eq (v : Word) : bitsNeeded v = 32 - clz32 v := by
  unfold bitsNeeded
  split
  · rename_i h; subst h; rfl
  · rfl

theorem bitsNeeded_le (v : Word) : bitsNeeded v ≤ 32 := by rw [bitsNeeded_eq]; omega

/-- Every Value lies below the power of its width (R122). -/
theorem lt_two_pow_bitsNeeded (v : Word) : v.toNat < 2 ^ bitsNeeded v := by
  have h := mod_lt_of_zerosFrom v 32
  rw [Nat.mod_eq_of_lt v.isLt] at h
  rw [bitsNeeded_eq]; exact h

/-- A width whose power bounds the Value is no smaller than its width (R122: "minimal"). -/
theorem bitsNeeded_le_of_lt {v : Word} {w : Nat} (h : v.toNat < 2 ^ w) : bitsNeeded v ≤ w := by
  rw [bitsNeeded_eq]
  by_contra hc
  have hz : zerosFrom v 32 < 32 := by unfold clz32 at hc; omega
  have hb := testBit_of_zerosFrom v hz
  have hge : 2 ^ (32 - zerosFrom v 32 - 1) ≤ v.toNat := Nat.ge_two_pow_of_testBit hb
  have : 2 ^ w ≤ 2 ^ (32 - zerosFrom v 32 - 1) := Nat.pow_le_pow_right (by omega) (by unfold clz32 at hc; omega)
  omega

theorem lt_two_pow_of_bitsNeeded_le {v : Word} {w : Nat} (h : bitsNeeded v ≤ w) : v.toNat < 2 ^ w :=
  lt_of_lt_of_le (lt_two_pow_bitsNeeded v) (Nat.pow_le_pow_right (by omega) h)

/-- No Value of a sequence exceeds its maximum (R127 (d)). -/
theorem le_maxValue {vs : List Word} {v : Word} (h : v ∈ vs) : v.toNat ≤ (maxValue vs).toNat := by
  induction vs with
  | nil => simp at h
  | cons u us ih =>
    have hm : maxValue (u :: us) = if (maxValue us).toNat ≤ u.toNat then u else maxValue us := rfl
    rw [hm]
    rcases List.mem_cons.mp h with rfl | h
    · split <;> omega
    · have := ih h; split <;> omega

/-- The maximum of a non-empty sequence is one of its Values. -/
theorem maxValue_mem {vs : List Word} (h : vs ≠ []) : maxValue vs ∈ vs := by
  induction vs with
  | nil => exact absurd rfl h
  | cons u us ih =>
    have hm : maxValue (u :: us) = if (maxValue us).toNat ≤ u.toNat then u else maxValue us := rfl
    rw [hm]
    split
    · simp
    · rename_i hlt
      cases us with
      | nil => exact absurd (Nat.zero_le _) hlt
      | cons a as => exact List.mem_cons_of_mem _ (ih (by simp))

/-- Every Value fits the width of the sequence's maximum. -/
theorem fit_maxValue {vs : List Word} : ∀ v ∈ vs, v.toNat < 2 ^ bitsNeeded (maxValue vs) :=
  fun _ hv => lt_of_le_of_lt (le_maxValue hv) (lt_two_pow_bitsNeeded _)

end Sys2Proof.Machine
end

