-- ==== Sys2Proof/Laws/State.lean ====
section
/-! SUPPORT. What each named update of the state does to each field: one lemma per field per update. -/

namespace Sys2Proof.Machine

variable (s : State)

/-! ### `respond` -/

@[simp] theorem respond_nbMax (ope : Byte) (st : Status) (body : List Word) : (respond ope st body s).nbMax = s.nbMax := rfl
@[simp] theorem respond_nblk (ope : Byte) (st : Status) (body : List Word) : (respond ope st body s).nblk = s.nblk := rfl
@[simp] theorem respond_len (ope : Byte) (st : Status) (body : List Word) : (respond ope st body s).len = s.len := rfl
@[simp] theorem respond_width (ope : Byte) (st : Status) (body : List Word) : (respond ope st body s).width = s.width := rfl
@[simp] theorem respond_occ (ope : Byte) (st : Status) (body : List Word) : (respond ope st body s).occ = s.occ := rfl
@[simp] theorem respond_ram (ope : Byte) (st : Status) (body : List Word) : (respond ope st body s).ram = s.ram := rfl
@[simp] theorem respond_cOpen (ope : Byte) (st : Status) (body : List Word) : (respond ope st body s).cOpen = s.cOpen := rfl
@[simp] theorem respond_cOwn (ope : Byte) (st : Status) (body : List Word) : (respond ope st body s).cOwn = s.cOwn := rfl
@[simp] theorem respond_cBlk (ope : Byte) (st : Status) (body : List Word) : (respond ope st body s).cBlk = s.cBlk := rfl
@[simp] theorem respond_cCnt (ope : Byte) (st : Status) (body : List Word) : (respond ope st body s).cCnt = s.cCnt := rfl
@[simp] theorem respond_cPos (ope : Byte) (st : Status) (body : List Word) : (respond ope st body s).cPos = s.cPos := rfl
@[simp] theorem respond_cBitoff (ope : Byte) (st : Status) (body : List Word) : (respond ope st body s).cBitoff = s.cBitoff := rfl
@[simp] theorem respond_cache (ope : Byte) (st : Status) (body : List Word) : (respond ope st body s).cache = s.cache := rfl
@[simp] theorem respond_freeCtr (ope : Byte) (st : Status) (body : List Word) : (respond ope st body s).freeCtr = s.freeCtr := rfl
@[simp] theorem respond_inQ (ope : Byte) (st : Status) (body : List Word) : (respond ope st body s).inQ = s.inQ := rfl
@[simp] theorem respond_outQ (ope : Byte) (st : Status) (body : List Word) : (respond ope st body s).outQ = s.outQ ++ [rspHeader ope st :: body] := rfl

/-! ### `setWidth` -/

@[simp] theorem setWidth_nbMax (b w : Nat) : (setWidth b w s).nbMax = s.nbMax := rfl
@[simp] theorem setWidth_nblk (b w : Nat) : (setWidth b w s).nblk = s.nblk := rfl
@[simp] theorem setWidth_len (b w : Nat) : (setWidth b w s).len = s.len := rfl
@[simp] theorem setWidth_width (b w : Nat) : (setWidth b w s).width = tableSet 0 s.width b (BitVec.ofNat 6 w) := rfl
@[simp] theorem setWidth_occ (b w : Nat) : (setWidth b w s).occ = s.occ := rfl
@[simp] theorem setWidth_ram (b w : Nat) : (setWidth b w s).ram = s.ram := rfl
@[simp] theorem setWidth_cOpen (b w : Nat) : (setWidth b w s).cOpen = s.cOpen := rfl
@[simp] theorem setWidth_cOwn (b w : Nat) : (setWidth b w s).cOwn = s.cOwn := rfl
@[simp] theorem setWidth_cBlk (b w : Nat) : (setWidth b w s).cBlk = s.cBlk := rfl
@[simp] theorem setWidth_cCnt (b w : Nat) : (setWidth b w s).cCnt = s.cCnt := rfl
@[simp] theorem setWidth_cPos (b w : Nat) : (setWidth b w s).cPos = s.cPos := rfl
@[simp] theorem setWidth_cBitoff (b w : Nat) : (setWidth b w s).cBitoff = s.cBitoff := rfl
@[simp] theorem setWidth_cache (b w : Nat) : (setWidth b w s).cache = s.cache := rfl
@[simp] theorem setWidth_freeCtr (b w : Nat) : (setWidth b w s).freeCtr = s.freeCtr := rfl
@[simp] theorem setWidth_inQ (b w : Nat) : (setWidth b w s).inQ = s.inQ := rfl
@[simp] theorem setWidth_outQ (b w : Nat) : (setWidth b w s).outQ = s.outQ := rfl

/-! ### `setOcc` -/

@[simp] theorem setOcc_nbMax (b k : Nat) : (setOcc b k s).nbMax = s.nbMax := rfl
@[simp] theorem setOcc_nblk (b k : Nat) : (setOcc b k s).nblk = s.nblk := rfl
@[simp] theorem setOcc_len (b k : Nat) : (setOcc b k s).len = s.len := rfl
@[simp] theorem setOcc_width (b k : Nat) : (setOcc b k s).width = s.width := rfl
@[simp] theorem setOcc_occ (b k : Nat) : (setOcc b k s).occ = tableSet 0 s.occ b (BitVec.ofNat 9 k) := rfl
@[simp] theorem setOcc_ram (b k : Nat) : (setOcc b k s).ram = s.ram := rfl
@[simp] theorem setOcc_cOpen (b k : Nat) : (setOcc b k s).cOpen = s.cOpen := rfl
@[simp] theorem setOcc_cOwn (b k : Nat) : (setOcc b k s).cOwn = s.cOwn := rfl
@[simp] theorem setOcc_cBlk (b k : Nat) : (setOcc b k s).cBlk = s.cBlk := rfl
@[simp] theorem setOcc_cCnt (b k : Nat) : (setOcc b k s).cCnt = s.cCnt := rfl
@[simp] theorem setOcc_cPos (b k : Nat) : (setOcc b k s).cPos = s.cPos := rfl
@[simp] theorem setOcc_cBitoff (b k : Nat) : (setOcc b k s).cBitoff = s.cBitoff := rfl
@[simp] theorem setOcc_cache (b k : Nat) : (setOcc b k s).cache = s.cache := rfl
@[simp] theorem setOcc_freeCtr (b k : Nat) : (setOcc b k s).freeCtr = s.freeCtr := rfl
@[simp] theorem setOcc_inQ (b k : Nat) : (setOcc b k s).inQ = s.inQ := rfl
@[simp] theorem setOcc_outQ (b k : Nat) : (setOcc b k s).outQ = s.outQ := rfl

/-! ### `setNblk` -/

@[simp] theorem setNblk_nbMax (n : Nat) : (setNblk n s).nbMax = s.nbMax := rfl
@[simp] theorem setNblk_nblk (n : Nat) : (setNblk n s).nblk = BitVec.ofNat 22 n := rfl
@[simp] theorem setNblk_len (n : Nat) : (setNblk n s).len = s.len := rfl
@[simp] theorem setNblk_width (n : Nat) : (setNblk n s).width = s.width := rfl
@[simp] theorem setNblk_occ (n : Nat) : (setNblk n s).occ = s.occ := rfl
@[simp] theorem setNblk_ram (n : Nat) : (setNblk n s).ram = s.ram := rfl
@[simp] theorem setNblk_cOpen (n : Nat) : (setNblk n s).cOpen = s.cOpen := rfl
@[simp] theorem setNblk_cOwn (n : Nat) : (setNblk n s).cOwn = s.cOwn := rfl
@[simp] theorem setNblk_cBlk (n : Nat) : (setNblk n s).cBlk = s.cBlk := rfl
@[simp] theorem setNblk_cCnt (n : Nat) : (setNblk n s).cCnt = s.cCnt := rfl
@[simp] theorem setNblk_cPos (n : Nat) : (setNblk n s).cPos = s.cPos := rfl
@[simp] theorem setNblk_cBitoff (n : Nat) : (setNblk n s).cBitoff = s.cBitoff := rfl
@[simp] theorem setNblk_cache (n : Nat) : (setNblk n s).cache = s.cache := rfl
@[simp] theorem setNblk_freeCtr (n : Nat) : (setNblk n s).freeCtr = s.freeCtr := rfl
@[simp] theorem setNblk_inQ (n : Nat) : (setNblk n s).inQ = s.inQ := rfl
@[simp] theorem setNblk_outQ (n : Nat) : (setNblk n s).outQ = s.outQ := rfl

/-! ### `setLen` -/

@[simp] theorem setLen_nbMax (n : Nat) : (setLen n s).nbMax = s.nbMax := rfl
@[simp] theorem setLen_nblk (n : Nat) : (setLen n s).nblk = s.nblk := rfl
@[simp] theorem setLen_len (n : Nat) : (setLen n s).len = BitVec.ofNat 32 n := rfl
@[simp] theorem setLen_width (n : Nat) : (setLen n s).width = s.width := rfl
@[simp] theorem setLen_occ (n : Nat) : (setLen n s).occ = s.occ := rfl
@[simp] theorem setLen_ram (n : Nat) : (setLen n s).ram = s.ram := rfl
@[simp] theorem setLen_cOpen (n : Nat) : (setLen n s).cOpen = s.cOpen := rfl
@[simp] theorem setLen_cOwn (n : Nat) : (setLen n s).cOwn = s.cOwn := rfl
@[simp] theorem setLen_cBlk (n : Nat) : (setLen n s).cBlk = s.cBlk := rfl
@[simp] theorem setLen_cCnt (n : Nat) : (setLen n s).cCnt = s.cCnt := rfl
@[simp] theorem setLen_cPos (n : Nat) : (setLen n s).cPos = s.cPos := rfl
@[simp] theorem setLen_cBitoff (n : Nat) : (setLen n s).cBitoff = s.cBitoff := rfl
@[simp] theorem setLen_cache (n : Nat) : (setLen n s).cache = s.cache := rfl
@[simp] theorem setLen_freeCtr (n : Nat) : (setLen n s).freeCtr = s.freeCtr := rfl
@[simp] theorem setLen_inQ (n : Nat) : (setLen n s).inQ = s.inQ := rfl
@[simp] theorem setLen_outQ (n : Nat) : (setLen n s).outQ = s.outQ := rfl

/-! ### `emptyStore` -/

@[simp] theorem emptyStore_nbMax : (emptyStore s).nbMax = s.nbMax := rfl
@[simp] theorem emptyStore_nblk : (emptyStore s).nblk = 0 := rfl
@[simp] theorem emptyStore_len : (emptyStore s).len = 0 := rfl
@[simp] theorem emptyStore_width : (emptyStore s).width = s.width := rfl
@[simp] theorem emptyStore_occ : (emptyStore s).occ = s.occ := rfl
@[simp] theorem emptyStore_ram : (emptyStore s).ram = s.ram := rfl
@[simp] theorem emptyStore_cOpen : (emptyStore s).cOpen = s.cOpen := rfl
@[simp] theorem emptyStore_cOwn : (emptyStore s).cOwn = s.cOwn := rfl
@[simp] theorem emptyStore_cBlk : (emptyStore s).cBlk = s.cBlk := rfl
@[simp] theorem emptyStore_cCnt : (emptyStore s).cCnt = s.cCnt := rfl
@[simp] theorem emptyStore_cPos : (emptyStore s).cPos = s.cPos := rfl
@[simp] theorem emptyStore_cBitoff : (emptyStore s).cBitoff = s.cBitoff := rfl
@[simp] theorem emptyStore_cache : (emptyStore s).cache = s.cache := rfl
@[simp] theorem emptyStore_freeCtr : (emptyStore s).freeCtr = s.freeCtr := rfl
@[simp] theorem emptyStore_inQ : (emptyStore s).inQ = s.inQ := rfl
@[simp] theorem emptyStore_outQ : (emptyStore s).outQ = s.outQ := rfl

/-! ### `setCounters` -/

@[simp] theorem setCounters_nbMax (blk cnt pos bitoff : Nat) : (setCounters blk cnt pos bitoff s).nbMax = s.nbMax := rfl
@[simp] theorem setCounters_nblk (blk cnt pos bitoff : Nat) : (setCounters blk cnt pos bitoff s).nblk = s.nblk := rfl
@[simp] theorem setCounters_len (blk cnt pos bitoff : Nat) : (setCounters blk cnt pos bitoff s).len = s.len := rfl
@[simp] theorem setCounters_width (blk cnt pos bitoff : Nat) : (setCounters blk cnt pos bitoff s).width = s.width := rfl
@[simp] theorem setCounters_occ (blk cnt pos bitoff : Nat) : (setCounters blk cnt pos bitoff s).occ = s.occ := rfl
@[simp] theorem setCounters_ram (blk cnt pos bitoff : Nat) : (setCounters blk cnt pos bitoff s).ram = s.ram := rfl
@[simp] theorem setCounters_cOpen (blk cnt pos bitoff : Nat) : (setCounters blk cnt pos bitoff s).cOpen = s.cOpen := rfl
@[simp] theorem setCounters_cOwn (blk cnt pos bitoff : Nat) : (setCounters blk cnt pos bitoff s).cOwn = s.cOwn := rfl
@[simp] theorem setCounters_cBlk (blk cnt pos bitoff : Nat) : (setCounters blk cnt pos bitoff s).cBlk = BitVec.ofNat 22 blk := rfl
@[simp] theorem setCounters_cCnt (blk cnt pos bitoff : Nat) : (setCounters blk cnt pos bitoff s).cCnt = BitVec.ofNat 9 cnt := rfl
@[simp] theorem setCounters_cPos (blk cnt pos bitoff : Nat) : (setCounters blk cnt pos bitoff s).cPos = BitVec.ofNat 9 pos := rfl
@[simp] theorem setCounters_cBitoff (blk cnt pos bitoff : Nat) : (setCounters blk cnt pos bitoff s).cBitoff = BitVec.ofNat 14 bitoff := rfl
@[simp] theorem setCounters_cache (blk cnt pos bitoff : Nat) : (setCounters blk cnt pos bitoff s).cache = s.cache := rfl
@[simp] theorem setCounters_freeCtr (blk cnt pos bitoff : Nat) : (setCounters blk cnt pos bitoff s).freeCtr = s.freeCtr := rfl
@[simp] theorem setCounters_inQ (blk cnt pos bitoff : Nat) : (setCounters blk cnt pos bitoff s).inQ = s.inQ := rfl
@[simp] theorem setCounters_outQ (blk cnt pos bitoff : Nat) : (setCounters blk cnt pos bitoff s).outQ = s.outQ := rfl

/-! ### `setCursor` -/

@[simp] theorem setCursor_nbMax (isOpen own : Bool) : (setCursor isOpen own s).nbMax = s.nbMax := rfl
@[simp] theorem setCursor_nblk (isOpen own : Bool) : (setCursor isOpen own s).nblk = s.nblk := rfl
@[simp] theorem setCursor_len (isOpen own : Bool) : (setCursor isOpen own s).len = s.len := rfl
@[simp] theorem setCursor_width (isOpen own : Bool) : (setCursor isOpen own s).width = s.width := rfl
@[simp] theorem setCursor_occ (isOpen own : Bool) : (setCursor isOpen own s).occ = s.occ := rfl
@[simp] theorem setCursor_ram (isOpen own : Bool) : (setCursor isOpen own s).ram = s.ram := rfl
@[simp] theorem setCursor_cOpen (isOpen own : Bool) : (setCursor isOpen own s).cOpen = isOpen := rfl
@[simp] theorem setCursor_cOwn (isOpen own : Bool) : (setCursor isOpen own s).cOwn = own := rfl
@[simp] theorem setCursor_cBlk (isOpen own : Bool) : (setCursor isOpen own s).cBlk = s.cBlk := rfl
@[simp] theorem setCursor_cCnt (isOpen own : Bool) : (setCursor isOpen own s).cCnt = s.cCnt := rfl
@[simp] theorem setCursor_cPos (isOpen own : Bool) : (setCursor isOpen own s).cPos = s.cPos := rfl
@[simp] theorem setCursor_cBitoff (isOpen own : Bool) : (setCursor isOpen own s).cBitoff = s.cBitoff := rfl
@[simp] theorem setCursor_cache (isOpen own : Bool) : (setCursor isOpen own s).cache = s.cache := rfl
@[simp] theorem setCursor_freeCtr (isOpen own : Bool) : (setCursor isOpen own s).freeCtr = s.freeCtr := rfl
@[simp] theorem setCursor_inQ (isOpen own : Bool) : (setCursor isOpen own s).inQ = s.inQ := rfl
@[simp] theorem setCursor_outQ (isOpen own : Bool) : (setCursor isOpen own s).outQ = s.outQ := rfl

/-! ### `setCache` -/

@[simp] theorem setCache_nbMax (vs : List Word) : (setCache vs s).nbMax = s.nbMax := rfl
@[simp] theorem setCache_nblk (vs : List Word) : (setCache vs s).nblk = s.nblk := rfl
@[simp] theorem setCache_len (vs : List Word) : (setCache vs s).len = s.len := rfl
@[simp] theorem setCache_width (vs : List Word) : (setCache vs s).width = s.width := rfl
@[simp] theorem setCache_occ (vs : List Word) : (setCache vs s).occ = s.occ := rfl
@[simp] theorem setCache_ram (vs : List Word) : (setCache vs s).ram = s.ram := rfl
@[simp] theorem setCache_cOpen (vs : List Word) : (setCache vs s).cOpen = s.cOpen := rfl
@[simp] theorem setCache_cOwn (vs : List Word) : (setCache vs s).cOwn = s.cOwn := rfl
@[simp] theorem setCache_cBlk (vs : List Word) : (setCache vs s).cBlk = s.cBlk := rfl
@[simp] theorem setCache_cCnt (vs : List Word) : (setCache vs s).cCnt = s.cCnt := rfl
@[simp] theorem setCache_cPos (vs : List Word) : (setCache vs s).cPos = s.cPos := rfl
@[simp] theorem setCache_cBitoff (vs : List Word) : (setCache vs s).cBitoff = s.cBitoff := rfl
@[simp] theorem setCache_cache (vs : List Word) : (setCache vs s).cache = cacheWith vs s.freeCtr := rfl
@[simp] theorem setCache_freeCtr (vs : List Word) : (setCache vs s).freeCtr = s.freeCtr + 1 := rfl
@[simp] theorem setCache_inQ (vs : List Word) : (setCache vs s).inQ = s.inQ := rfl
@[simp] theorem setCache_outQ (vs : List Word) : (setCache vs s).outQ = s.outQ := rfl

/-! ### `applyReset` -/

@[simp] theorem applyReset_nbMax : (applyReset s).nbMax = s.nbMax := rfl
@[simp] theorem applyReset_nblk : (applyReset s).nblk = 0 := rfl
@[simp] theorem applyReset_len : (applyReset s).len = 0 := rfl
@[simp] theorem applyReset_width : (applyReset s).width = [] := rfl
@[simp] theorem applyReset_occ : (applyReset s).occ = [] := rfl
@[simp] theorem applyReset_ram : (applyReset s).ram = [] := rfl
@[simp] theorem applyReset_cOpen : (applyReset s).cOpen = false := rfl
@[simp] theorem applyReset_cOwn : (applyReset s).cOwn = false := rfl
@[simp] theorem applyReset_cBlk : (applyReset s).cBlk = 0 := rfl
@[simp] theorem applyReset_cCnt : (applyReset s).cCnt = 0 := rfl
@[simp] theorem applyReset_cPos : (applyReset s).cPos = 0 := rfl
@[simp] theorem applyReset_cBitoff : (applyReset s).cBitoff = 0 := rfl
@[simp] theorem applyReset_cache : (applyReset s).cache = Vector.replicate 256 0 := rfl
@[simp] theorem applyReset_freeCtr : (applyReset s).freeCtr = s.freeCtr := rfl
@[simp] theorem applyReset_inQ : (applyReset s).inQ = s.inQ := rfl
@[simp] theorem applyReset_outQ : (applyReset s).outQ = s.outQ := rfl
@[simp] theorem abandonPacket_eq (p : Packet) : abandonPacket p s = applyReset s := rfl

/-- Whatever a command had done to the core's own state when the reset came is wiped (R312): states that agree on the build's
bound, the events, the responses and the count of free values reset to the same state. -/
theorem applyReset_wipes {s t : State} (hn : t.nbMax = s.nbMax) (hi : t.inQ = s.inQ) (ho : t.outQ = s.outQ)
    (hf : t.freeCtr = s.freeCtr) : applyReset t = applyReset s := by
  simp only [applyReset, hn, hi, ho, hf]

/-! ### `answered` -/

@[simp] theorem answered_nbMax (r : Packet) : (answered s r).nbMax = s.nbMax := rfl
@[simp] theorem answered_nblk (r : Packet) : (answered s r).nblk = s.nblk := rfl
@[simp] theorem answered_len (r : Packet) : (answered s r).len = s.len := rfl
@[simp] theorem answered_width (r : Packet) : (answered s r).width = s.width := rfl
@[simp] theorem answered_occ (r : Packet) : (answered s r).occ = s.occ := rfl
@[simp] theorem answered_ram (r : Packet) : (answered s r).ram = s.ram := rfl
@[simp] theorem answered_cOpen (r : Packet) : (answered s r).cOpen = s.cOpen := rfl
@[simp] theorem answered_cOwn (r : Packet) : (answered s r).cOwn = s.cOwn := rfl
@[simp] theorem answered_cBlk (r : Packet) : (answered s r).cBlk = s.cBlk := rfl
@[simp] theorem answered_cCnt (r : Packet) : (answered s r).cCnt = s.cCnt := rfl
@[simp] theorem answered_cPos (r : Packet) : (answered s r).cPos = s.cPos := rfl
@[simp] theorem answered_cBitoff (r : Packet) : (answered s r).cBitoff = s.cBitoff := rfl
@[simp] theorem answered_cache (r : Packet) : (answered s r).cache = s.cache := rfl
@[simp] theorem answered_freeCtr (r : Packet) : (answered s r).freeCtr = s.freeCtr := rfl
@[simp] theorem answered_inQ (r : Packet) : (answered s r).inQ = s.inQ := rfl
@[simp] theorem answered_outQ (r : Packet) : (answered s r).outQ = s.outQ ++ [r] := rfl

end Sys2Proof.Machine
end

