-- ==== Sys2Proof/Laws/Tables.lean ====
section
/-! SUPPORT. Laws of the tables by index and of the block RAM's slots: reading after a write, and the canonical form. -/

namespace Sys2Proof.Machine

section
variable {α : Type}

theorem cellAt_append (s t : List (Nat × α)) (k : Nat) : cellAt (s ++ t) k = (cellAt s k).or (cellAt t k) := by
  induction s with
  | nil => simp [cellAt]
  | cons c s ih =>
    obtain ⟨a, x⟩ := c
    simp only [List.cons_append, cellAt, ih]
    split <;> simp

theorem cellAt_filter (p : Nat → Bool) (t : List (Nat × α)) (k : Nat) :
    cellAt (t.filter (fun c => p c.1)) k = if p k then cellAt t k else none := by
  induction t with
  | nil => simp [cellAt]
  | cons c t ih =>
    obtain ⟨a, x⟩ := c
    simp only [List.filter_cons]
    by_cases hp : p a = true
    · simp only [hp, if_true, cellAt, ih]
      by_cases ha : a = k
      · subst ha; simp [hp]
      · simp [ha]
    · simp only [hp, cellAt]
      by_cases ha : a = k
      · subst ha; simpa [hp] using ih
      · simpa [ha] using ih

theorem cellAt_mem {t : List (Nat × α)} {k : Nat} {x : α} (h : cellAt t k = some x) : (k, x) ∈ t := by
  induction t with
  | nil => simp [cellAt] at h
  | cons c t ih =>
    obtain ⟨a, y⟩ := c
    simp only [cellAt] at h
    split at h
    · rename_i ha; cases h; subst ha; simp
    · exact List.mem_cons_of_mem _ (ih h)

theorem cellAt_none {t : List (Nat × α)} {k : Nat} (h : ∀ c ∈ t, c.1 ≠ k) : cellAt t k = none := by
  cases hc : cellAt t k with
  | none => rfl
  | some x => exact absurd rfl (h _ (cellAt_mem hc))

theorem keysRise_append (s t : List (Nat × α)) :
    keysRise (s ++ t) = true ↔ keysRise s = true ∧ keysRise t = true ∧ ∀ c ∈ s, ∀ c' ∈ t, c.1 < c'.1 := by
  induction s with
  | nil => simp [keysRise]
  | cons c s ih =>
    simp only [List.cons_append, keysRise, Bool.and_eq_true, ih, List.all_append, List.all_eq_true, decide_eq_true_eq,
      List.mem_cons, forall_eq_or_imp]
    tauto

theorem keysRise_filter (p : Nat × α → Bool) {t : List (Nat × α)} (h : keysRise t = true) :
    keysRise (t.filter p) = true := by
  induction t with
  | nil => rfl
  | cons c t ih =>
    simp only [keysRise, Bool.and_eq_true, List.all_eq_true, decide_eq_true_eq] at h
    simp only [List.filter_cons]
    split
    · simp only [keysRise, Bool.and_eq_true, List.all_eq_true, decide_eq_true_eq]
      exact ⟨fun c' hc' => h.1 c' (List.mem_of_mem_filter hc'), ih h.2⟩
    · exact ih h.2

variable [DecidableEq α]

theorem tableGet_tableSet_same (d : α) (t : List (Nat × α)) (k : Nat) (x : α) : tableGet d (tableSet d t k x) k = x := by
  have h1 : cellAt (t.filter (fun c => decide (c.1 < k))) k = none := by
    rw [cellAt_filter (fun a => decide (a < k))]; simp
  have h2 : cellAt (t.filter (fun c => decide (k < c.1))) k = none := by
    rw [cellAt_filter (fun a => decide (k < a))]; simp
  simp only [tableGet, tableSet, cellAt_append, h1, h2]
  split <;> simp_all [cellAt]

theorem tableGet_tableSet_other (d : α) (t : List (Nat × α)) {k j : Nat} (x : α) (h : j ≠ k) :
    tableGet d (tableSet d t k x) j = tableGet d t j := by
  have hmid : cellAt (if x = d then [] else [(k, x)]) j = none := by
    apply cellAt_none; split <;> simp [Ne.symm h]
  simp only [tableGet, tableSet, cellAt_append, hmid]
  rw [cellAt_filter (fun a => decide (a < k)), cellAt_filter (fun a => decide (k < a))]
  rcases Nat.lt_or_gt_of_ne h with hj | hj
  · have : ¬ k < j := by omega
    simp [hj, this]
  · have : ¬ j < k := by omega
    simp [hj, this]

/-- A write keeps a table canonical. -/
theorem tableSet_wf (d : α) {t : List (Nat × α)} (k : Nat) (x : α) (h : tableWf d t = true) :
    tableWf d (tableSet d t k x) = true := by
  simp only [tableWf, Bool.and_eq_true, List.all_eq_true] at h
  simp only [tableWf, tableSet, Bool.and_eq_true, List.all_eq_true, keysRise_append]
  refine ⟨⟨keysRise_filter _ h.1, ⟨?_, keysRise_filter _ h.1, ?_⟩, ?_⟩, ?_⟩
  · split <;> simp [keysRise]
  · intro c hc c' hc'
    split at hc <;> simp_all
  · intro c hc c' hc'
    simp only [List.mem_filter, decide_eq_true_eq] at hc
    simp only [List.mem_append, List.mem_filter, decide_eq_true_eq] at hc'
    rcases hc' with hc' | hc'
    · split at hc' <;> simp_all
    · omega
  · intro c hc
    simp only [List.mem_append, List.mem_filter] at hc
    rcases hc with hc | hc | hc
    · exact h.2 c hc.1
    · split at hc <;> simp_all
    · exact h.2 c hc.1

/-- The keys of a table after a write. -/
theorem tableSet_keys {d : α} {t : List (Nat × α)} {k : Nat} {x : α} {n : Nat} (h : ∀ c ∈ t, c.1 < n) (hk : k < n) :
    ∀ c ∈ tableSet d t k x, c.1 < n := by
  intro c hc
  simp only [tableSet, List.mem_append, List.mem_filter] at hc
  rcases hc with hc | hc | hc
  · exact h c hc.1
  · split at hc <;> simp_all
  · exact h c hc.1

end

/-! ### Slots of the block RAM -/

theorem cellsFrom_mem {a : Nat} {bs : List Byte} {c : Host.Cell} (h : c ∈ cellsFrom a bs) :
    a ≤ c.1 ∧ c.1 < a + bs.length := by
  induction bs generalizing a with
  | nil => simp [cellsFrom] at h
  | cons x xs ih =>
    simp only [cellsFrom, List.mem_cons] at h
    rcases h with rfl | h
    · simp
    · have := ih h
      simp only [List.length_cons]
      omega

theorem cellsFrom_keysRise (a : Nat) (bs : List Byte) : keysRise (cellsFrom a bs) = true := by
  induction bs generalizing a with
  | nil => rfl
  | cons x xs ih =>
    simp only [cellsFrom, keysRise, Bool.and_eq_true, List.all_eq_true, decide_eq_true_eq]
    exact ⟨fun c hc => by have := cellsFrom_mem hc; omega, ih _⟩

theorem cellAt_cellsFrom (a k : Nat) (bs : List Byte) : cellAt (cellsFrom a bs) (a + k) = bs[k]? := by
  induction bs generalizing a k with
  | nil => simp [cellsFrom, cellAt]
  | cons x xs ih =>
    cases k with
    | zero => simp [cellsFrom, cellAt]
    | succ k =>
      have h1 : ¬ a = a + (k + 1) := by omega
      have h2 : a + (k + 1) = a + 1 + k := by omega
      simp only [cellsFrom, cellAt, h1, if_false, List.getElem?_cons_succ]
      rw [h2, ih]

/-- Inside the slot written, the RAM holds the buffer and no value above it (R51, R52). -/
theorem cellAt_slotWrite_inside (m : Memory) (b : Nat) (bs : List Byte) {k : Nat} (hk : k < 1024) :
    cellAt (slotWrite m b bs) (b * 1024 + k) = bs[k]? := by
  have h1 : ¬ b * 1024 + k < b * 1024 := by omega
  have h2 : ¬ b * 1024 + 1024 ≤ b * 1024 + k := by omega
  rw [slotWrite, cellAt_append, cellAt_append, cellAt_filter (fun a => decide (a < b * 1024)),
    cellAt_filter (fun a => decide (b * 1024 + 1024 ≤ a)), cellAt_cellsFrom]
  simp [h1, h2]

/-- Outside the slot written, the RAM is as before (R51: "a repack never moves another block"). -/
theorem cellAt_slotWrite_outside (m : Memory) {b a : Nat} {bs : List Byte} (hl : bs.length ≤ 1024) (ha : a / 1024 ≠ b) :
    cellAt (slotWrite m b bs) a = cellAt m a := by
  have hmid : cellAt (cellsFrom (b * 1024) bs) a = none := by
    apply cellAt_none
    intro c hc
    have := cellsFrom_mem hc
    omega
  rw [slotWrite, cellAt_append, cellAt_append, hmid, cellAt_filter (fun a => decide (a < b * 1024)),
    cellAt_filter (fun a => decide (b * 1024 + 1024 ≤ a))]
  by_cases h : a < b * 1024
  · have : ¬ b * 1024 + 1024 ≤ a := by omega
    simp [h, this]
  · have : b * 1024 + 1024 ≤ a := by omega
    simp [h, this]

/-- A slot write keeps the block RAM canonical. -/
theorem slotWrite_wf {m : Memory} {b : Nat} {bs : List Byte} (hl : bs.length ≤ 1024) (h : Memory.wf m = true) :
    Memory.wf (slotWrite m b bs) = true := by
  simp only [Memory.wf] at h
  simp only [Memory.wf, slotWrite, keysRise_append]
  refine ⟨keysRise_filter _ h, ⟨cellsFrom_keysRise _ _, keysRise_filter _ h, ?_⟩, ?_⟩
  · intro c hc c' hc'
    have := cellsFrom_mem hc
    simp only [List.mem_filter, decide_eq_true_eq] at hc'
    omega
  · intro c hc c' hc'
    simp only [List.mem_filter, decide_eq_true_eq] at hc
    simp only [List.mem_append, List.mem_filter, decide_eq_true_eq] at hc'
    rcases hc' with hc' | hc'
    · have := cellsFrom_mem hc'; omega
    · omega

/-- Every address listed after a slot write is inside a RAM of `n` slots when it was and the slot is. -/
theorem slotWrite_inside {m : Memory} {b n : Nat} {bs : List Byte} (hl : bs.length ≤ 1024)
    (h : ∀ c ∈ m, c.1 < n * 1024) (hb : b < n) : ∀ c ∈ slotWrite m b bs, c.1 < n * 1024 := by
  intro c hc
  simp only [slotWrite, List.mem_append, List.mem_filter] at hc
  rcases hc with hc | hc | hc
  · exact h c hc.1
  · have := cellsFrom_mem hc; omega
  · exact h c hc.1

end Sys2Proof.Machine
end

