-- ==== Sys2Proof/Laws/Ops.lean ====
section
/-! SUPPORT. Everything each shared operation can do, said once. -/

namespace Sys2Proof.Machine

/-! ### Sequencing -/

/-- A sequence of two operations succeeds exactly when both do. -/
theorem bind_eq_ok {ε α β : Type} {x : Except ε α} {f : α → Except ε β} {r : β} :
    (x >>= f) = .ok r ↔ ∃ a, x = .ok a ∧ f a = .ok r := by
  cases x with
  | error e => simp [bind, Except.bind]
  | ok a => simp [bind, Except.bind]

theorem ok_bind {ε α β : Type} (a : α) (f : α → Except ε β) : ((Except.ok a : Except ε α) >>= f) = f a := rfl

theorem pure_eq_ok {ε α : Type} (a : α) : (pure a : Except ε α) = .ok a := rfl

/-! ### Answers -/

/-- `finish` answers a next state exactly when the operations succeed. -/
theorem finish_next {op : Op} {r : Except Fault (State × List Word)} {t : State} :
    finish op r = .next t ↔ ∃ s' body, r = .ok (s', body) ∧ t = respond op.code .ok body s' := by
  cases r with
  | error f => simp [finish]
  | ok p =>
    obtain ⟨s', body⟩ := p
    simp only [finish, answerOk, Host.Outcome.next.injEq, Except.ok.injEq, Prod.mk.injEq]
    constructor
    · rintro rfl; exact ⟨s', body, ⟨rfl, rfl⟩, rfl⟩
    · rintro ⟨s1, b1, ⟨rfl, rfl⟩, rfl⟩; rfl

/-- A failure answers its status alone and changes nothing else (R282). -/
theorem raise_next {op : Op} {e : Status} {s t : State} :
    raise op e s = .next t ↔ t = answered s [rspHeader op.code e] := by
  simp only [raise, Host.Outcome.next.injEq]
  constructor <;> (rintro rfl; rfl)

/-! ### The descriptor table -/

@[simp] theorem widthAt_respond (ope : Byte) (st : Status) (body : List Word) (s : State) (b : Nat) :
    widthAt (respond ope st body s) b = widthAt s b := rfl
@[simp] theorem widthAt_setOcc (j k : Nat) (s : State) (b : Nat) : widthAt (setOcc j k s) b = widthAt s b := rfl
@[simp] theorem widthAt_setNblk (n : Nat) (s : State) (b : Nat) : widthAt (setNblk n s) b = widthAt s b := rfl
@[simp] theorem widthAt_setLen (n : Nat) (s : State) (b : Nat) : widthAt (setLen n s) b = widthAt s b := rfl
@[simp] theorem occAt_respond (ope : Byte) (st : Status) (body : List Word) (s : State) (b : Nat) :
    occAt (respond ope st body s) b = occAt s b := rfl
@[simp] theorem occAt_setWidth (j w : Nat) (s : State) (b : Nat) : occAt (setWidth j w s) b = occAt s b := rfl
@[simp] theorem occAt_setNblk (n : Nat) (s : State) (b : Nat) : occAt (setNblk n s) b = occAt s b := rfl
@[simp] theorem occAt_setLen (n : Nat) (s : State) (b : Nat) : occAt (setLen n s) b = occAt s b := rfl

theorem widthAt_setWidth_same {b w : Nat} (s : State) (hw : w < 64) : widthAt (setWidth b w s) b = w := by
  simp only [widthAt, setWidth_width, tableGet_tableSet_same, BitVec.toNat_ofNat]
  exact Nat.mod_eq_of_lt hw

theorem widthAt_setWidth_other {b j : Nat} (w : Nat) (s : State) (h : j ≠ b) :
    widthAt (setWidth b w s) j = widthAt s j := by
  simp only [widthAt, setWidth_width, tableGet_tableSet_other _ _ _ h]

theorem occAt_setOcc_same {b k : Nat} (s : State) (hk : k < 512) : occAt (setOcc b k s) b = k := by
  simp only [occAt, setOcc_occ, tableGet_tableSet_same, BitVec.toNat_ofNat]
  exact Nat.mod_eq_of_lt hk

theorem occAt_setOcc_other {b j : Nat} (k : Nat) (s : State) (h : j ≠ b) : occAt (setOcc b k s) j = occAt s j := by
  simp only [occAt, setOcc_occ, tableGet_tableSet_other _ _ _ h]

/-! ### The block RAM -/

theorem ramByte_ok {s : State} {a : Nat} {x : Byte} :
    ramByte s a = .ok x ↔ a / 1024 < s.nbMax ∧ cellAt s.ram a = some x := by
  simp only [ramByte]
  split
  · simp; omega
  · split <;> simp_all

theorem ramByte_congr {s t : State} {a : Nat} (hn : t.nbMax = s.nbMax) (hr : cellAt t.ram a = cellAt s.ram a) :
    ramByte t a = ramByte s a := by
  simp only [ramByte, hn, hr]

theorem ramBytes_congr {s t : State} {a n : Nat} (h : ∀ j, j < n → ramByte t (a + j) = ramByte s (a + j)) :
    ramBytes t a n = ramBytes s a n := by
  induction n generalizing a with
  | zero => rfl
  | succ n ih =>
    have h0 := h 0 (by omega)
    have h1 : ramBytes t (a + 1) n = ramBytes s (a + 1) n :=
      ih (fun j hj => by have := h (j + 1) (by omega); rwa [Nat.add_comm j 1, ← Nat.add_assoc] at this)
    simp only [Nat.add_zero] at h0
    simp only [ramBytes, h0, h1]

/-- Reading consecutive bytes that all hold values gives those values. -/
theorem ramBytes_eq_ok {s : State} {a : Nat} {bs : List Byte}
    (h : ∀ j (hj : j < bs.length), ramByte s (a + j) = .ok bs[j]) : ramBytes s a bs.length = .ok bs := by
  induction bs generalizing a with
  | nil => rfl
  | cons x xs ih =>
    have h0 := h 0 (by simp)
    have h1 : ramBytes s (a + 1) xs.length = .ok xs := ih (fun j hj => by
      have e : a + 1 + j = a + (j + 1) := by omega
      rw [e]
      exact h (j + 1) (by simp only [List.length_cons]; omega))
    simp only [Nat.add_zero, List.getElem_cons_zero] at h0
    simp only [List.length_cons, ramBytes, h0, h1, ok_bind, pure_eq_ok]

/-- A successful read of consecutive bytes read each of them. -/
theorem ramBytes_ok {s : State} {a n : Nat} {bs : List Byte} (h : ramBytes s a n = .ok bs) :
    bs.length = n ∧ ∀ j (hj : j < bs.length), ramByte s (a + j) = .ok bs[j] := by
  induction n generalizing a bs with
  | zero => simp only [ramBytes, Except.ok.injEq] at h; subst h; simp
  | succ n ih =>
    simp only [ramBytes, bind_eq_ok, pure_eq_ok, Except.ok.injEq] at h
    obtain ⟨x, hx, xs, hxs, rfl⟩ := h
    obtain ⟨hl, hb⟩ := ih hxs
    refine ⟨by simp [hl], fun j hj => ?_⟩
    cases j with
    | zero => simpa using hx
    | succ j =>
      have e : a + (j + 1) = a + 1 + j := by omega
      rw [e]
      simpa using hb j (by simpa using hj)

/-- Everything a buffer write can do (R52). -/
theorem storeBuf_ok {b : Nat} {bs : List Byte} {s t : State} :
    storeBuf b bs s = .ok t ↔ b < s.nbMax ∧ bs.length ≤ 1024 ∧ t = { s with ram := slotWrite s.ram b bs } := by
  simp only [storeBuf]
  split
  · simp; omega
  · split
    · simp; omega
    · simp only [Except.ok.injEq]
      constructor
      · rintro rfl; exact ⟨by omega, by omega, rfl⟩
      · rintro ⟨-, -, rfl⟩; rfl

/-- Everything a buffer read can do (R52). -/
theorem buf_ok {s : State} {b : Nat} {bs : List Byte} :
    buf s b = .ok bs ↔ widthAt s b ≤ 32 ∧ occAt s b ≤ 256 ∧ ramBytes s (b * 1024) (blen s b) = .ok bs := by
  simp only [buf]
  split
  · simp; omega
  · constructor
    · intro h; exact ⟨by omega, by omega, h⟩
    · intro h; exact h.2.2

theorem blen_le {s : State} {b : Nat} (hw : widthAt s b ≤ 32) (hk : occAt s b ≤ 256) : blen s b ≤ 1024 := by
  have : occAt s b * widthAt s b ≤ 256 * 32 := Nat.mul_le_mul hk hw
  unfold blen bytesFor
  omega

theorem buf_length {s : State} {b : Nat} {bs : List Byte} (h : buf s b = .ok bs) :
    bs.length = bytesFor (occAt s b * widthAt s b) := (ramBytes_ok (buf_ok.mp h).2.2).1

/-- The buffer of a block is read from its descriptor and its slot only. -/
theorem buf_congr {s t : State} {b : Nat} (hn : t.nbMax = s.nbMax) (hw : widthAt t b = widthAt s b)
    (hk : occAt t b = occAt s b) (hr : ∀ a, a / 1024 = b → cellAt t.ram a = cellAt s.ram a) : buf t b = buf s b := by
  by_cases hd : 32 < widthAt s b ∨ 256 < occAt s b
  · simp only [buf, hw, hk, hd, if_true]
  · have hle : blen s b ≤ 1024 := blen_le (by omega) (by omega)
    have hbl : blen t b = blen s b := by simp only [blen, hw, hk]
    simp only [buf, hw, hk, hd, if_false, hbl]
    exact ramBytes_congr (fun j hj => ramByte_congr hn (hr _ (by omega)))

theorem vals_congr {s t : State} {b : Nat} (hb : buf t b = buf s b) (hw : widthAt t b = widthAt s b)
    (hk : occAt t b = occAt s b) : vals t b = vals s b := by
  simp only [vals, bufOf, hb, hw, hk]

/-! ### A block that holds given Values -/

/-- Block `b` of `s` has width `w` and holds exactly the Values `vs`, in canonical form (R33 (b), (e), R34 (a)). -/
structure HoldsBlock (s : State) (b w : Nat) (vs : List Word) : Prop where
  width : widthAt s b = w
  occ : occAt s b = vs.length
  buf : buf s b = .ok (encodeAll vs w)
  width_le : w ≤ 32
  fit : ∀ v ∈ vs, v.toNat < 2 ^ w
  length_le : vs.length ≤ 256

theorem HoldsBlock.bufOf {s : State} {b w : Nat} {vs : List Word} (h : HoldsBlock s b w vs) :
    bufOf s b = encodeAll vs w := by simp only [Machine.bufOf, h.buf]

theorem HoldsBlock.vals {s : State} {b w : Nat} {vs : List Word} (h : HoldsBlock s b w vs) : vals s b = vs := by
  rw [Machine.vals, h.bufOf, h.occ, h.width, decodeAll_of_encodeAll h.width_le h.fit]

/-- A block is held by every state that agrees on its descriptor and slot. -/
theorem HoldsBlock.congr {s t : State} {b w : Nat} {vs : List Word} (h : HoldsBlock s b w vs) (hn : t.nbMax = s.nbMax)
    (hw : widthAt t b = widthAt s b) (hk : occAt t b = occAt s b)
    (hr : ∀ a, a / 1024 = b → cellAt t.ram a = cellAt s.ram a) : HoldsBlock t b w vs :=
  ⟨hw.trans h.width, hk.trans h.occ, (buf_congr hn hw hk hr).trans h.buf, h.width_le, h.fit, h.length_le⟩

/-- A slot written with the packed form of Values, under a descriptor that says so, holds them. -/
theorem holdsBlock_of_slotWrite {t : State} {m : Memory} {b w : Nat} {vs : List Word} (hb : b < t.nbMax)
    (hr : t.ram = slotWrite m b (encodeAll vs w)) (hw : widthAt t b = w) (hk : occAt t b = vs.length) (hw32 : w ≤ 32)
    (hfit : ∀ v ∈ vs, v.toNat < 2 ^ w) (hlen : vs.length ≤ 256) : HoldsBlock t b w vs := by
  refine ⟨hw, hk, ?_, hw32, hfit, hlen⟩
  have hl : (encodeAll vs w).length ≤ 1024 := by
    have : vs.length * w ≤ 256 * 32 := Nat.mul_le_mul hlen hw32
    simp only [encodeAll_length, bytesFor]; omega
  rw [buf_ok]
  refine ⟨by omega, by omega, ?_⟩
  have hbl : blen t b = (encodeAll vs w).length := by simp only [blen, hw, hk, encodeAll_length]
  rw [hbl]
  apply ramBytes_eq_ok
  intro j hj
  rw [ramByte_ok]
  refine ⟨by omega, ?_⟩
  rw [hr, cellAt_slotWrite_inside _ _ _ (by omega)]
  simp

/-- In an invariant state every live block holds its Values. -/
theorem StoreInv.holdsBlock {s : State} (h : StoreInv s) {b : Nat} (hb : b < s.nblk.toNat) :
    HoldsBlock s b (widthAt s b) (vals s b) := by
  have hocc := h.occ_range b hb
  have hw := h.width_le b hb
  have hl : (vals s b).length = occAt s b := by simp [vals]
  exact ⟨rfl, hl.symm, h.canonical b hb, hw, decodeAll_fit hw, by omega⟩

end Sys2Proof.Machine
end

