-- ==== Sys2Proof/Laws/Store.lean ====
section
/-! SUPPORT. What the store-changing operations do to a state whose blocks hold Values (43_store_mutation.md R202 to R206). -/

namespace Sys2Proof.Machine

/-- `t` differs from `s` at most in `NBLK`, `LEN`, the descriptor of block `b` and the slot of block `b`. -/
structure OnlyBlock (b : Nat) (s t : State) : Prop where
  rest : t = { s with nblk := t.nblk, len := t.len, width := t.width, occ := t.occ, ram := t.ram }
  width : ∀ j, j ≠ b → widthAt t j = widthAt s j
  occ : ∀ j, j ≠ b → occAt t j = occAt s j
  cells : ∀ a, a / 1024 ≠ b → cellAt t.ram a = cellAt s.ram a
  data : DataInv s → DataInv t

namespace OnlyBlock

theorem nbMax {b : Nat} {s t : State} (h : OnlyBlock b s t) : t.nbMax = s.nbMax := by rw [h.rest]

theorem refl (b : Nat) (s : State) : OnlyBlock b s s :=
  ⟨rfl, fun _ _ => rfl, fun _ _ => rfl, fun _ _ => rfl, id⟩

theorem trans {b : Nat} {s t u : State} (h : OnlyBlock b s t) (k : OnlyBlock b t u) : OnlyBlock b s u where
  rest := by rw [k.rest, h.rest]
  width j hj := (k.width j hj).trans (h.width j hj)
  occ j hj := (k.occ j hj).trans (h.occ j hj)
  cells a ha := (k.cells a ha).trans (h.cells a ha)
  data hd := k.data (h.data hd)

/-- Another block is held as before. -/
theorem holds {b j w : Nat} {vs : List Word} {s t : State} (h : OnlyBlock b s t) (hj : j ≠ b) (hh : HoldsBlock s j w vs) :
    HoldsBlock t j w vs :=
  hh.congr h.nbMax (h.width j hj) (h.occ j hj) (fun a ha => h.cells a (by omega))

theorem sameCursor {b : Nat} {s t : State} (h : OnlyBlock b s t) : SameCursor s t := by
  rw [h.rest]; exact ⟨rfl, rfl, rfl, rfl, rfl, rfl, rfl⟩

theorem sameOutside {b : Nat} {s t : State} (h : OnlyBlock b s t) : SameOutside b s t :=
  ⟨h.nbMax, h.width, h.occ, fun a ha => ramByte_congr h.nbMax (h.cells a ha), h.sameCursor⟩

theorem setNblk (b n : Nat) (s : State) : OnlyBlock b s (setNblk n s) :=
  ⟨rfl, fun _ _ => rfl, fun _ _ => rfl, fun _ _ => rfl, fun h => ⟨h.1, h.2, h.3, h.4, h.5, h.6, h.7, h.8⟩⟩

theorem setLen (b n : Nat) (s : State) : OnlyBlock b s (setLen n s) :=
  ⟨rfl, fun _ _ => rfl, fun _ _ => rfl, fun _ _ => rfl, fun h => ⟨h.1, h.2, h.3, h.4, h.5, h.6, h.7, h.8⟩⟩

theorem setWidth {b : Nat} (w : Nat) {s : State} (hb : b < s.nbMax) : OnlyBlock b s (setWidth b w s) :=
  ⟨rfl, fun _ hj => widthAt_setWidth_other w s hj, fun _ _ => rfl, fun _ _ => rfl,
    fun h => ⟨h.1, h.2, h.3, h.4, tableSet_wf 0 b _ h.5, tableSet_keys h.6 hb, h.7, h.8⟩⟩

theorem setOcc {b : Nat} (k : Nat) {s : State} (hb : b < s.nbMax) : OnlyBlock b s (setOcc b k s) :=
  ⟨rfl, fun _ _ => rfl, fun _ hj => occAt_setOcc_other k s hj, fun _ _ => rfl,
    fun h => ⟨h.1, h.2, h.3, h.4, h.5, h.6, tableSet_wf 0 b _ h.7, tableSet_keys h.8 hb⟩⟩

theorem ram {b : Nat} {bs : List Byte} {s : State} (hb : b < s.nbMax) (hl : bs.length ≤ 1024) :
    OnlyBlock b s { s with ram := slotWrite s.ram b bs } :=
  ⟨rfl, fun _ _ => rfl, fun _ _ => rfl, fun _ ha => cellAt_slotWrite_outside s.ram hl ha,
    fun h => ⟨h.1, h.2, slotWrite_wf hl h.3, slotWrite_inside hl h.4 hb, h.5, h.6, h.7, h.8⟩⟩

end OnlyBlock

theorem encodeAll_length_le {vs : List Word} {w : Nat} (hw : w ≤ 32) (hl : vs.length ≤ 256) :
    (encodeAll vs w).length ≤ 1024 := by
  have : vs.length * w ≤ 256 * 32 := Nat.mul_le_mul hl hw
  simp only [encodeAll_length, bytesFor]; omega

/-- Storing a packed block: it is held, and nothing else changed (R206, R263). -/
theorem storeBlock_holds {b w : Nat} {vs : List Word} {s : State} (hb : b < s.nbMax) (hw : w ≤ 32)
    (hfit : ∀ v ∈ vs, v.toNat < 2 ^ w) (hl : vs.length ≤ 256) :
    ∃ t, storeBlock b ⟨w, vs.length, encodeAll vs w⟩ s = .ok t ∧ OnlyBlock b s t ∧ t.nblk = s.nblk ∧ t.len = s.len ∧
      HoldsBlock t b w vs := by
  have hle := encodeAll_length_le hw hl
  refine ⟨_, bind_eq_ok.mpr ⟨_, storeBuf_ok.mpr ⟨hb, hle, rfl⟩, rfl⟩, ?_, rfl, rfl, ?_⟩
  · exact ((OnlyBlock.ram hb hle).trans (OnlyBlock.setWidth w hb)).trans (OnlyBlock.setOcc _ hb)
  · refine holdsBlock_of_slotWrite (m := s.ram) hb rfl ?_ ?_ hw hfit hl
    · rw [widthAt_setOcc, widthAt_setWidth_same _ (show w < 64 by omega)]
    · rw [occAt_setOcc_same _ (show vs.length < 512 by omega)]

/-- Widening the block that is last: the same Values at the wider width (R202). -/
theorem widenBlock_holds {b w r : Nat} {vs : List Word} {s : State} (hb : b < s.nbMax) (hr : r ≤ 32)
    (h : HoldsBlock s b w vs) :
    ∃ t, widenBlock b r s = .ok t ∧ OnlyBlock b s t ∧ t.nblk = s.nblk ∧ t.len = s.len ∧ HoldsBlock t b (max w r) vs := by
  by_cases hlt : w < r
  · have hmax : max w r = r := by omega
    have hfit : ∀ v ∈ vs, v.toNat < 2 ^ r :=
      fun v hv => lt_trans (h.fit v hv) (Nat.pow_lt_pow_right (by omega) hlt)
    have hle := encodeAll_length_le hr h.length_le
    have hrep : repack (encodeAll vs w) (occAt s b) (widthAt s b) r = encodeAll vs r := by
      rw [h.occ, h.width, repack_encodeAll h.width_le h.fit]
    refine ⟨setWidth b r { s with ram := slotWrite s.ram b (encodeAll vs r) }, ?_, ?_, rfl, rfl, ?_⟩
    · have hlt' : widthAt s b < r := by rw [h.width]; exact hlt
      simp only [widenBlock, hlt', if_true, h.buf, ok_bind, hrep]
      exact bind_eq_ok.mpr ⟨_, storeBuf_ok.mpr ⟨hb, hle, rfl⟩, rfl⟩
    · exact (OnlyBlock.ram hb hle).trans (OnlyBlock.setWidth r hb)
    · rw [hmax]
      exact holdsBlock_of_slotWrite (m := s.ram) hb rfl (widthAt_setWidth_same _ (by omega)) h.occ hr hfit h.length_le
  · have hmax : max w r = w := by omega
    have hlt' : ¬ widthAt s b < r := by rw [h.width]; exact hlt
    refine ⟨s, by simp only [widenBlock, hlt', if_false], OnlyBlock.refl b s, rfl, rfl, ?_⟩
    rw [hmax]; exact h

/-- The append step: one more Value, and `LEN` counts it (R203, R202). -/
theorem appendValue_holds {b w : Nat} {vs : List Word} {v : Word} {s : State} (hb : b < s.nbMax) (h : HoldsBlock s b w vs)
    (hv : v.toNat < 2 ^ w) (hl : vs.length < 256) :
    ∃ t, appendValue b v s = .ok t ∧ OnlyBlock b s t ∧ t.nblk = s.nblk ∧ t.len = BitVec.ofNat 32 (s.len.toNat + 1) ∧
      HoldsBlock t b w (vs ++ [v]) := by
  have hl' : (vs ++ [v]).length ≤ 256 := by simp; omega
  have hle := encodeAll_length_le h.width_le hl'
  have hwr := growAndWrite_encodeAll h.width_le h.fit hv
  refine ⟨setLen (s.len.toNat + 1) (setOcc b (vs.length + 1) { s with ram := slotWrite s.ram b (encodeAll (vs ++ [v]) w) }),
    ?_, ?_, rfl, rfl, ?_⟩
  · simp only [appendValue, h.buf, ok_bind, h.occ, h.width, hwr]
    exact bind_eq_ok.mpr ⟨_, storeBuf_ok.mpr ⟨hb, hle, rfl⟩, rfl⟩
  · exact ((OnlyBlock.ram hb hle).trans (OnlyBlock.setOcc _ hb)).trans (OnlyBlock.setLen b _ _)
  · refine holdsBlock_of_slotWrite (m := s.ram) hb rfl h.width ?_ h.width_le (allFit_append h.fit hv) hl'
    rw [occAt_setLen, occAt_setOcc_same _ (by omega)]
    simp

/-- Appending to the last block when it has room: the width grows to what the Value needs, no other block is touched
(R202). -/
theorem pushLast_holds {w : Nat} {vs : List Word} {s : State} (v : Word) (hb : lastBlock s < s.nbMax)
    (h : HoldsBlock s (lastBlock s) w vs) (hl : vs.length < 256) :
    ∃ t, pushLast v s = .ok t ∧ OnlyBlock (lastBlock s) s t ∧ t.nblk = s.nblk ∧
      t.len = BitVec.ofNat 32 (s.len.toNat + 1) ∧ HoldsBlock t (lastBlock s) (max w (bitsNeeded v)) (vs ++ [v]) := by
  obtain ⟨t1, e1, o1, n1, l1, h1⟩ := widenBlock_holds hb (bitsNeeded_le v) h
  have hv : v.toNat < 2 ^ max w (bitsNeeded v) := lt_two_pow_of_bitsNeeded_le (by omega)
  have hb1 : lastBlock s < t1.nbMax := by rw [o1.nbMax]; exact hb
  obtain ⟨t2, e2, o2, n2, l2, h2⟩ := appendValue_holds hb1 h1 hv hl
  refine ⟨t2, ?_, o1.trans o2, n2.trans n1, ?_, h2⟩
  · simp only [pushLast, e1, ok_bind, e2]
  · rw [l2, l1]

/-- A fresh block holds nothing at width 0 (R202, decision D11). -/
theorem openBlock_holds {s : State} (hb : s.nblk.toNat < s.nbMax) (hn : s.nbMax ≤ 2 ^ 21) :
    OnlyBlock s.nblk.toNat s (openBlock s) ∧ (openBlock s).nblk.toNat = s.nblk.toNat + 1 ∧
      lastBlock (openBlock s) = s.nblk.toNat ∧ (openBlock s).len = s.len ∧ HoldsBlock (openBlock s) s.nblk.toNat 0 [] := by
  have hnb : (openBlock s).nblk.toNat = s.nblk.toNat + 1 := by
    simp only [openBlock, setNblk_nblk, BitVec.toNat_ofNat]
    exact Nat.mod_eq_of_lt (by omega)
  have hw : widthAt (openBlock s) s.nblk.toNat = 0 := by
    simp only [openBlock, widthAt_setNblk, widthAt_setOcc, widthAt_setWidth_same _ (by omega : (0:Nat) < 64)]
  have hk : occAt (openBlock s) s.nblk.toNat = 0 := by
    simp only [openBlock, occAt_setNblk, occAt_setOcc_same _ (by omega : (0:Nat) < 512)]
  refine ⟨?_, hnb, by simp only [lastBlock, hnb]; omega, rfl, ⟨hw, hk, ?_, by omega, by simp, by simp⟩⟩
  · exact ((OnlyBlock.setWidth 0 hb).trans (OnlyBlock.setOcc 0 hb)).trans (OnlyBlock.setNblk _ _ _)
  · rw [buf_ok]
    refine ⟨by omega, by omega, ?_⟩
    simp only [blen, hk, hw]
    rfl

/-- Taking the last Value off a block (R204, R205). -/
theorem popLast_holds {w : Nat} {vs : List Word} {v : Word} {s : State} (hn : s.nblk.toNat ≠ 0)
    (hb : lastBlock s < s.nbMax) (h : HoldsBlock s (lastBlock s) w (vs ++ [v])) :
    ∃ t, popLast s = .ok (t, v) ∧ OnlyBlock (lastBlock s) s t ∧
      t.nblk = (if vs = [] then BitVec.ofNat 22 (s.nblk.toNat - 1) else s.nblk) ∧
      t.len = BitVec.ofNat 32 (s.len.toNat - 1) ∧ HoldsBlock t (lastBlock s) w vs := by
  have hfit : ∀ u ∈ vs, u.toNat < 2 ^ w := fun u hu => h.fit u (by simp [hu])
  have hv : v.toNat < 2 ^ w := h.fit v (by simp)
  have hlen := h.length_le
  simp only [List.length_append, List.length_singleton] at hlen
  have hocc : occAt s (lastBlock s) = vs.length + 1 := by rw [h.occ]; simp
  have hle := encodeAll_length_le h.width_le (vs := vs) (by omega)
  have htk := take_writeOne_zero h.width_le hfit hv
  have hdec : decodeOne (encodeAll (vs ++ [v]) w) vs.length w = v := by
    rw [decodeOne_encodeAll h.width_le h.fit]; simp [List.getD]
  have hne : ¬ occAt s (lastBlock s) = 0 := by omega
  have hk1 : occAt s (lastBlock s) - 1 = vs.length := by omega
  let s2 := setLen (s.len.toNat - 1)
    (setOcc (lastBlock s) vs.length { s with ram := slotWrite s.ram (lastBlock s) (encodeAll vs w) })
  have ho2 : OnlyBlock (lastBlock s) s s2 :=
    ((OnlyBlock.ram hb hle).trans (OnlyBlock.setOcc _ hb)).trans (OnlyBlock.setLen _ _ _)
  have hh2 : HoldsBlock s2 (lastBlock s) w vs := by
    refine holdsBlock_of_slotWrite (m := s.ram) hb rfl h.width ?_ h.width_le hfit (by omega)
    simp only [s2, occAt_setLen]
    rw [occAt_setOcc_same _ (by omega)]
  refine ⟨if vs.length = 0 then setNblk (s.nblk.toNat - 1) s2 else s2, ?_, ?_, ?_, ?_, ?_⟩
  · simp only [popLast, hn, if_false, hne, h.buf, ok_bind, hk1, h.width, htk, hdec]
    exact bind_eq_ok.mpr ⟨_, storeBuf_ok.mpr ⟨hb, hle, rfl⟩, rfl⟩
  · split
    · exact ho2.trans (OnlyBlock.setNblk _ _ _)
    · exact ho2
  · by_cases hvs : vs = []
    · subst hvs; simp
    · have : ¬ vs.length = 0 := by simpa using hvs
      simp only [this, hvs, if_false]
      rfl
  · split <;> rfl
  · split
    · exact hh2.congr rfl rfl rfl (fun _ _ => rfl)
    · exact hh2

end Sys2Proof.Machine
end

