-- ==== Sys2Proof/Laws/Blocks.lean ====
section
/-! SUPPORT. Whole stores: the blocks of a state as a list, storing a list of blocks, and rebuilding the store invariant from
what each block holds (10_state.md R33, 45_image.md R263). -/

namespace Sys2Proof.Machine

/-! ### Lists of packed blocks -/

/-- The block that packs the Values `p.2` at width `p.1`. -/
def packed (p : Nat × List Word) : Block := ⟨p.1, p.2.length, encodeAll p.2 p.1⟩

/-- A width and Values a block can have: the width at most 32, the Values fitting it, at most 256 of them. -/
def Packable (p : Nat × List Word) : Prop := p.1 ≤ 32 ∧ (∀ v ∈ p.2, v.toNat < 2 ^ p.1) ∧ p.2.length ≤ 256

theorem blockOf_eq_packed (vs : List Word) : blockOf vs = packed (bitsNeeded (maxValue vs), vs) := rfl

theorem packable_blockOf {vs : List Word} (h : vs.length ≤ 256) : Packable (bitsNeeded (maxValue vs), vs) :=
  ⟨bitsNeeded_le _, fit_maxValue, h⟩

/-- A well-ranged block is the packed form of its decoded Values. -/
theorem canonicalBlock_eq_packed (blk : Block) :
    canonicalBlock blk = packed (blk.width, decodeAll blk.buf blk.occ blk.width) := by
  simp [canonicalBlock, packed, canonicalForm_eq]

theorem packable_canonicalBlock {blk : Block} (hw : blk.width ≤ 32) (hk : blk.occ ≤ 256) :
    Packable (blk.width, decodeAll blk.buf blk.occ blk.width) :=
  ⟨hw, decodeAll_fit hw, by simpa using hk⟩

/-! ### Storing a list of blocks -/

/-- `t` differs from `s` at most in `NBLK`, `LEN`, and the descriptors and slots of the blocks `b .. b+n-1`. -/
structure OnlyBlocks (b n : Nat) (s t : State) : Prop where
  rest : t = { s with nblk := t.nblk, len := t.len, width := t.width, occ := t.occ, ram := t.ram }
  width : ∀ j, (j < b ∨ b + n ≤ j) → widthAt t j = widthAt s j
  occ : ∀ j, (j < b ∨ b + n ≤ j) → occAt t j = occAt s j
  cells : ∀ a, (a / 1024 < b ∨ b + n ≤ a / 1024) → cellAt t.ram a = cellAt s.ram a
  data : DataInv s → DataInv t

theorem OnlyBlocks.nbMax {b n : Nat} {s t : State} (h : OnlyBlocks b n s t) : t.nbMax = s.nbMax := by rw [h.rest]

theorem OnlyBlocks.sameCursor {b n : Nat} {s t : State} (h : OnlyBlocks b n s t) : SameCursor s t := by
  rw [h.rest]; exact ⟨rfl, rfl, rfl, rfl, rfl, rfl, rfl⟩

theorem OnlyBlocks.ramByte {b n a : Nat} {s t : State} (h : OnlyBlocks b n s t) (ha : a / 1024 < b ∨ b + n ≤ a / 1024) :
    ramByte t a = Machine.ramByte s a := ramByte_congr h.nbMax (h.cells a ha)

/-- A block outside the range is held as before. -/
theorem OnlyBlocks.holds {b n j w : Nat} {vs : List Word} {s t : State} (h : OnlyBlocks b n s t) (hj : j < b ∨ b + n ≤ j)
    (hh : HoldsBlock s j w vs) : HoldsBlock t j w vs :=
  hh.congr h.nbMax (h.width j hj) (h.occ j hj) (fun a ha => h.cells a (by omega))

theorem OnlyBlocks.step {b n : Nat} {s t u : State} (h : OnlyBlock b s t) (k : OnlyBlocks (b + 1) n t u) :
    OnlyBlocks b (n + 1) s u where
  rest := by rw [k.rest, h.rest]
  width j hj := (k.width j (by omega)).trans (h.width j (by omega))
  occ j hj := (k.occ j (by omega)).trans (h.occ j (by omega))
  cells a ha := (k.cells a (by omega)).trans (h.cells a (by omega))
  data hd := k.data (h.data hd)

/-- Storing packed blocks from slot `b` on: each is held, everything else is as before (R206, R263). -/
theorem storeBlocks_holds {ps : List (Nat × List Word)} (hp : ∀ p ∈ ps, Packable p) {b : Nat} {s : State}
    (hb : b + ps.length ≤ s.nbMax) :
    ∃ t, storeBlocks b (ps.map packed) s = .ok t ∧ OnlyBlocks b ps.length s t ∧ t.nblk = s.nblk ∧ t.len = s.len ∧
      ∀ j (hj : j < ps.length), HoldsBlock t (b + j) (ps[j]).1 (ps[j]).2 := by
  induction ps generalizing b s with
  | nil =>
    exact ⟨s, rfl, ⟨rfl, fun _ _ => rfl, fun _ _ => rfl, fun _ _ => rfl, id⟩, rfl, rfl,
      fun j hj => absurd hj (Nat.not_lt_zero j)⟩
  | cons p ps ih =>
    simp only [List.length_cons] at hb
    obtain ⟨hw, hfit, hl⟩ := hp p (by simp)
    obtain ⟨s1, e1, o1, n1, l1, h1⟩ := storeBlock_holds (s := s) (by omega : b < s.nbMax) hw hfit hl
    obtain ⟨t, e2, o2, n2, l2, h2⟩ := ih (fun q hq => hp q (by simp [hq])) (b := b + 1) (s := s1) (by rw [o1.nbMax]; omega)
    refine ⟨t, ?_, OnlyBlocks.step o1 o2, n2.trans n1, l2.trans l1, ?_⟩
    · simp only [List.map_cons, storeBlocks]
      exact bind_eq_ok.mpr ⟨s1, e1, e2⟩
    · intro j hj
      cases j with
      | zero => exact o2.holds (by omega) h1
      | succ j =>
        have := h2 j (by simpa using hj)
        rw [show b + (j + 1) = b + 1 + j by omega]
        simpa using this

theorem totalOcc_map_packed (ps : List (Nat × List Word)) :
    totalOcc (ps.map packed) = (ps.map (fun p => p.2.length)).sum := by
  induction ps with
  | nil => rfl
  | cons p ps ih => simp [totalOcc, packed, ih]

/-- Replacing the store: exactly these blocks are live and held (R206, R263). -/
theorem replaceStore_holds {ps : List (Nat × List Word)} (hp : ∀ p ∈ ps, Packable p) {s : State}
    (hb : ps.length ≤ s.nbMax) :
    ∃ t, replaceStore (ps.map packed) s = .ok t ∧ OnlyBlocks 0 ps.length s t ∧ t.nblk = BitVec.ofNat 22 ps.length ∧
      t.len = BitVec.ofNat 32 (ps.map (fun p => p.2.length)).sum ∧
      ∀ j (hj : j < ps.length), HoldsBlock t j (ps[j]).1 (ps[j]).2 := by
  obtain ⟨t, e, o, -, -, h⟩ := storeBlocks_holds hp (b := 0) (s := s) (by omega)
  refine ⟨setLen (totalOcc (ps.map packed)) (setNblk (ps.map packed).length t), ?_, ?_, ?_, ?_, ?_⟩
  · exact bind_eq_ok.mpr ⟨t, e, rfl⟩
  · exact ⟨by rw [o.rest]; rfl, o.width, o.occ, o.cells,
      fun hd => by have := o.data hd; exact ⟨this.1, this.2, this.3, this.4, this.5, this.6, this.7, this.8⟩⟩
  · simp
  · simp [totalOcc_map_packed]
  · intro j hj
    have := h j hj
    rw [Nat.zero_add] at this
    exact this.congr rfl rfl rfl (fun _ _ => rfl)

/-! ### A store from what its blocks hold -/

theorem valsUpTo_congr {s t : State} {n : Nat} (h : ∀ b, b < n → vals t b = vals s b) : valsUpTo t n = valsUpTo s n := by
  induction n with
  | zero => rfl
  | succ n ih => rw [valsUpTo, valsUpTo, ih (fun b hb => h b (by omega)), h n (by omega)]

theorem occUpTo_congr {s t : State} {n : Nat} (h : ∀ b, b < n → occAt t b = occAt s b) : occUpTo t n = occUpTo s n := by
  induction n with
  | zero => rfl
  | succ n ih => rw [occUpTo, occUpTo, ih (fun b hb => h b (by omega)), h n (by omega)]

theorem valsUpTo_length (s : State) (n : Nat) : (valsUpTo s n).length = occUpTo s n := by
  induction n with
  | zero => rfl
  | succ n ih => simp [valsUpTo, occUpTo, ih, vals]

/-- Where the first blocks are full they hold 256 elements each (R33 (c), (d)). -/
theorem occUpTo_full {s : State} {n : Nat} (h : ∀ b, b < n → occAt s b = 256) : occUpTo s n = n * 256 := by
  induction n with
  | zero => simp [occUpTo]
  | succ n ih => rw [occUpTo, ih (fun b hb => h b (by omega)), h n (by omega)]; omega

/-- The store invariant, from what each live block holds. -/
theorem storeInv_of_holds {s : State} (hn : s.nblk.toNat ≤ s.nbMax)
    (h : ∀ b, b < s.nblk.toNat → ∃ w vs, HoldsBlock s b w vs ∧ vs ≠ [])
    (hfull : ∀ b, b + 1 < s.nblk.toNat → occAt s b = 256) (hlen : s.len.toNat = occUpTo s s.nblk.toNat) : StoreInv s where
  nblk_le := hn
  occ_range b hb := by
    obtain ⟨w, vs, hh, hne⟩ := h b hb
    have := hh.length_le
    have := List.length_pos_iff.mpr hne
    rw [hh.occ]; omega
  width_le b hb := by obtain ⟨w, vs, hh, -⟩ := h b hb; rw [hh.width]; exact hh.width_le
  full := hfull
  len_sum := hlen
  canonical b hb := by obtain ⟨w, vs, hh, -⟩ := h b hb; rw [hh.vals, hh.width]; exact hh.buf

/-- Element `b*256 + k` of the first `n` blocks is element `k` of block `b` (42_index_access.md R180). -/
theorem valsUpTo_getD {s : State} {n b k : Nat} (hfull : ∀ j, j + 1 < n → occAt s j = 256) (hb : b < n)
    (hk : k < occAt s b) : (valsUpTo s n).getD (b * 256 + k) 0 = (vals s b).getD k 0 := by
  induction n with
  | zero => omega
  | succ n ih =>
    have hl : (valsUpTo s n).length = n * 256 := by
      rw [valsUpTo_length, occUpTo_full (fun j hj => hfull j (by omega))]
    rw [valsUpTo]
    by_cases hbn : b = n
    · subst hbn
      simp only [List.getD_eq_getElem?_getD]
      rw [List.getElem?_append_right (by omega), hl, Nat.add_sub_cancel_left]
    · have hf := hfull b (by omega)
      have := ih (fun j hj => hfull j (by omega)) (by omega)
      rw [← this]
      simp only [List.getD_eq_getElem?_getD]
      rw [List.getElem?_append_left (by omega)]

/-! ### Bounds, and what an answer leaves alone -/

theorem StoreInv.occUpTo_le {s : State} (h : StoreInv s) {n : Nat} (hn : n ≤ s.nblk.toNat) : occUpTo s n ≤ n * 256 := by
  induction n with
  | zero => simp [occUpTo]
  | succ n ih =>
    have := ih (by omega)
    have := (h.occ_range n (by omega)).2
    simp only [occUpTo]; omega

theorem StoreInv.len_le {s : State} (h : StoreInv s) : s.len.toNat ≤ s.nblk.toNat * 256 := by
  rw [h.len_sum]; exact h.occUpTo_le le_rfl

/-- `needsBlock` is the condition of R202. -/
theorem needsBlock_iff (s : State) : needsBlock s = true ↔ pushOpensBlock s := by
  simp only [needsBlock, Bool.or_eq_true, decide_eq_true_eq]
  rfl

/-- With no cursor open nothing is refused (R188, R200). -/
theorem gates_closed {s : State} (h : s.cOpen = false) : mutationGate s = none ∧ readGate s = none := by
  simp [mutationGate, readGate, h]

/-- Other blocks keep their Values. -/
theorem OnlyBlock.vals {b j : Nat} {s t : State} (h : OnlyBlock b s t) (hj : j ≠ b) : vals t j = Machine.vals s j :=
  vals_congr (buf_congr h.nbMax (h.width j hj) (h.occ j hj) (fun a ha => h.cells a (by omega))) (h.width j hj) (h.occ j hj)

theorem OnlyBlocks.vals {b n j : Nat} {s t : State} (h : OnlyBlocks b n s t) (hj : j < b ∨ b + n ≤ j) :
    vals t j = Machine.vals s j :=
  vals_congr (buf_congr h.nbMax (h.width j hj) (h.occ j hj) (fun a ha => h.cells a (by omega))) (h.width j hj) (h.occ j hj)

/-- A response changes no block. -/
theorem buf_respond (ope : Byte) (st : Status) (body : List Word) (s : State) (b : Nat) :
    buf (respond ope st body s) b = buf s b := buf_congr rfl rfl rfl (fun _ _ => rfl)

theorem vals_respond (ope : Byte) (st : Status) (body : List Word) (s : State) (b : Nat) :
    vals (respond ope st body s) b = vals s b := vals_congr (buf_respond ope st body s b) rfl rfl

theorem contents_respond (ope : Byte) (st : Status) (body : List Word) (s : State) :
    contents (respond ope st body s) = contents s := valsUpTo_congr (fun b _ => vals_respond ope st body s b)

end Sys2Proof.Machine
end

