-- ==== Sys2Proof/Laws/Decode.lean ====
section
/-! SUPPORT. Laws of the header fields, of the opcode map and of byte payloads (30_encoding.md R82, R84, R87). -/

namespace Sys2Proof

/-! ### Header fields -/

/-- A word is its five header fields (R82). -/
theorem word_eq_iff_fields (x y : Word) :
    x = y ↔ fieldOp x = fieldOp y ∧ fieldA x = fieldA y ∧ fieldB x = fieldB y ∧ fieldF x = fieldF y ∧
      x.extractLsb' 25 7 = y.extractLsb' 25 7 := by
  constructor
  · rintro rfl; exact ⟨rfl, rfl, rfl, rfl, rfl⟩
  · rintro ⟨h0, h1, h2, h3, h4⟩
    apply BitVec.eq_of_getLsbD_eq
    intro i hi
    have pick : ∀ (a n : Nat), x.extractLsb' a n = y.extractLsb' a n → a ≤ i → i < a + n → x.getLsbD i = y.getLsbD i := by
      intro a n h ha hn
      have := congrArg (fun v => v.getLsbD (i - a)) h
      have e : a + (i - a) = i := by omega
      have l : i - a < n := by omega
      simpa [BitVec.getLsbD_extractLsb', e, l] using this
    by_cases c0 : i < 8
    · exact pick 0 8 h0 (by omega) (by omega)
    by_cases c1 : i < 16
    · exact pick 8 8 h1 (by omega) (by omega)
    by_cases c2 : i < 24
    · exact pick 16 8 h2 (by omega) (by omega)
    by_cases c3 : i = 24
    · subst c3; exact h3
    · exact pick 25 7 h4 (by omega) (by omega)

theorem fieldOp_headerWord (op : Op) (a b : Byte) (f : Bool) : fieldOp (headerWord op a b f) = op.code := by
  apply BitVec.eq_of_getLsbD_eq
  intro i hi
  simp only [fieldOp, headerWord, BitVec.getLsbD_extractLsb', BitVec.getLsbD_append]
  simp [hi]

theorem fieldA_headerWord (op : Op) (a b : Byte) (f : Bool) : fieldA (headerWord op a b f) = a := by
  apply BitVec.eq_of_getLsbD_eq
  intro i hi
  have h1 : ¬ 8 + i < 8 := by omega
  simp only [fieldA, headerWord, BitVec.getLsbD_extractLsb', BitVec.getLsbD_append, h1, hi, if_false, if_true,
    Nat.add_sub_cancel_left, decide_true, Bool.true_and]

theorem fieldB_headerWord (op : Op) (a b : Byte) (f : Bool) : fieldB (headerWord op a b f) = b := by
  apply BitVec.eq_of_getLsbD_eq
  intro i hi
  have h1 : ¬ 16 + i < 8 := by omega
  have h2 : ¬ 16 + i - 8 < 8 := by omega
  have h3 : 16 + i - 8 - 8 = i := by omega
  simp only [fieldB, headerWord, BitVec.getLsbD_extractLsb', BitVec.getLsbD_append, h1, h2, h3, hi, if_false, if_true,
    decide_true, Bool.true_and]

theorem fieldF_headerWord (op : Op) (a b : Byte) (f : Bool) : fieldF (headerWord op a b f) = f := by
  simp only [fieldF, headerWord, BitVec.getLsbD_append]
  cases f <;> rfl

theorem reserved_headerWord (op : Op) (a b : Byte) (f : Bool) : (headerWord op a b f).extractLsb' 25 7 = 0 := by
  apply BitVec.eq_of_getLsbD_eq
  intro i hi
  have h1 : ¬ 25 + i < 8 := by omega
  have h2 : ¬ 25 + i - 8 < 8 := by omega
  have h3 : ¬ 25 + i - 8 - 8 < 8 := by omega
  have h4 : ¬ 25 + i - 8 - 8 - 8 < 1 := by omega
  simp only [headerWord, BitVec.getLsbD_extractLsb', BitVec.getLsbD_append, h1, h2, h3, h4, if_false, hi, decide_true,
    Bool.true_and]
  simp

/-! ### The opcode map -/

theorem code_injective : ∀ a b : Op, a.code = b.code → a = b := by
  intro a b h
  cases a <;> cases b <;> first | rfl | exact absurd h (by decide)

theorem fieldOp_and (x y : Word) : fieldOp (x &&& y) = fieldOp x &&& fieldOp y := BitVec.extractLsb'_and
theorem fieldA_and (x y : Word) : fieldA (x &&& y) = fieldA x &&& fieldA y := BitVec.extractLsb'_and
theorem fieldB_and (x y : Word) : fieldB (x &&& y) = fieldB x &&& fieldB y := BitVec.extractLsb'_and
theorem fieldF_and (x y : Word) : fieldF (x &&& y) = (fieldF x && fieldF y) := BitVec.getLsbD_and
theorem reserved_and (x y : Word) : (x &&& y).extractLsb' 25 7 = x.extractLsb' 25 7 &&& y.extractLsb' 25 7 :=
  BitVec.extractLsb'_and

/-- What each row of the opcode map asks of a header: its opcode, and zero in every field it does not use (R82, R87, R90). -/
def headerOf (op : Op) (h : Word) : Prop :=
  fieldOp h = op.code ∧ (Machine.usesA op = true ∨ fieldA h = 0) ∧ (op = .rpk ∨ fieldB h = 0) ∧
    (op = .copen ∨ fieldF h = false) ∧ h.extractLsb' 25 7 = 0

theorem selects_iff {r : Row} (hr : r ∈ opTable) (h : Word) : r.selects h = true ↔ headerOf r.op h := by
  simp only [Row.selects, beq_iff_eq]
  rw [word_eq_iff_fields, fieldOp_and, fieldA_and, fieldB_and, fieldF_and, reserved_and]
  simp only [opTable, List.mem_cons, List.not_mem_nil, or_false] at hr
  have ones8 : ∀ x : Byte, x &&& 0xFF#8 = x := fun x => BitVec.and_allOnes
  have ones7 : ∀ x : BitVec 7, x &&& 0x7F#7 = x := fun x => BitVec.and_allOnes
  rcases hr with rfl | rfl | rfl | rfl | rfl | rfl | rfl | rfl | rfl | rfl | rfl | rfl | rfl | rfl | rfl | rfl | rfl | rfl |
    rfl | rfl | rfl | rfl | rfl <;>
  simp [headerOf, Machine.usesA, Op.code, fieldOp, fieldA, fieldB, fieldF, ones8, ones7]

/-- The row of a mnemonic. -/
theorem exists_row (op : Op) : ∃ r ∈ opTable, r.op = op := by cases op <;> decide

theorem row_unique {r q : Row} (hr : r ∈ opTable) (hq : q ∈ opTable) (h : r.op = q.op) : r = q := by
  have key : ∀ r ∈ opTable, ∀ q ∈ opTable, r.op = q.op → r = q := by decide
  exact key r hr q hq h

/-- At most one row matches a header (R88). -/
theorem row_of_selects {r q : Row} (hr : r ∈ opTable) (hq : q ∈ opTable) {h : Word} (h1 : r.selects h = true)
    (h2 : q.selects h = true) : r = q :=
  row_unique hr hq (code_injective _ _ (((selects_iff hr h).mp h1).1.symm.trans ((selects_iff hq h).mp h2).1))

theorem rowOf_eq_some {h : Word} {r : Row} : rowOf h = some r ↔ r ∈ opTable ∧ headerOf r.op h := by
  constructor
  · intro e
    have hm := List.mem_of_find?_eq_some e
    have hs := List.find?_some e
    exact ⟨hm, (selects_iff hm h).mp hs⟩
  · rintro ⟨hm, hh⟩
    cases e : rowOf h with
    | none =>
      have := List.find?_eq_none.mp e r hm
      exact absurd ((selects_iff hm h).mpr hh) this
    | some q =>
      have hq := List.mem_of_find?_eq_some e
      have hs := List.find?_some e
      rw [row_of_selects hm hq ((selects_iff hm h).mpr hh) hs]

theorem rowOf_eq_none {h : Word} : rowOf h = none ↔ ∀ op : Op, ¬ headerOf op h := by
  constructor
  · intro e op hh
    obtain ⟨r, hr, rfl⟩ := exists_row op
    rw [rowOf_eq_some.mpr ⟨hr, hh⟩] at e
    cases e
  · intro hall
    cases e : rowOf h with
    | none => rfl
    | some r => exact absurd (rowOf_eq_some.mp e).2 (hall r.op)

/-- A header built with zero in the fields its command does not use selects that command's row. -/
theorem headerOf_headerWord (op : Op) (a b : Byte) (f : Bool) (ha : Machine.usesA op = true ∨ a = 0) (hb : op = .rpk ∨ b = 0)
    (hf : op = .copen ∨ f = false) : headerOf op (headerWord op a b f) := by
  refine ⟨fieldOp_headerWord op a b f, ?_, ?_, ?_, reserved_headerWord op a b f⟩
  · rw [fieldA_headerWord]; exact ha
  · rw [fieldB_headerWord]; exact hb
  · rw [fieldF_headerWord]; exact hf

/-- The converse: a header that selects a row is that row's header with its fields. -/
theorem headerWord_of_headerOf {op : Op} {h : Word} (hh : headerOf op h) :
    h = headerWord op (fieldA h) (fieldB h) (fieldF h) := by
  rw [word_eq_iff_fields, fieldOp_headerWord, fieldA_headerWord, fieldB_headerWord, fieldF_headerWord, reserved_headerWord]
  exact ⟨hh.1, rfl, rfl, rfl, hh.2.2.2.2⟩

/-! ### Byte payloads -/

theorem unpackBytes_length (ws : List Word) : (unpackBytes ws).length = 4 * ws.length := by
  induction ws with
  | nil => rfl
  | cons w ws ih =>
    simp only [unpackBytes, List.flatMap_cons, List.length_append, wordBytes, List.length_cons, List.length_nil] at *
    omega

theorem packBytes_length : ∀ bs : List Byte, (packBytes bs).length = (bs.length + 3) / 4
  | [] => rfl
  | [_] => by simp [packBytes]
  | [_, _] => by simp [packBytes]
  | [_, _, _] => by simp [packBytes]
  | _ :: _ :: _ :: _ :: rest => by
    simp only [packBytes, List.length_cons, packBytes_length rest]
    omega

/-- The four bytes of a word put together from four bytes. -/
theorem wordBytes_append (d c b a : Byte) : wordBytes (d ++ c ++ b ++ a) = [a, b, c, d] := by
  have get : ∀ (k : Nat) (x : Byte), (∀ i, i < 8 → (d ++ c ++ b ++ a).getLsbD (k + i) = x.getLsbD i) →
      (d ++ c ++ b ++ a).extractLsb' k 8 = x := by
    intro k x hx
    apply BitVec.eq_of_getLsbD_eq
    intro i hi
    rw [BitVec.getLsbD_extractLsb', hx i hi]
    simp [hi]
  simp only [wordBytes]
  rw [get 0 a, get 8 b, get 16 c, get 24 d] <;> intro i hi
  · have h1 : ¬ 24 + i < 8 := by omega
    have h2 : ¬ 24 + i - 8 < 8 := by omega
    have h3 : ¬ 24 + i - 8 - 8 < 8 := by omega
    simp only [BitVec.getLsbD_append, h1, h2, h3, if_false]
    congr 1; omega
  · have h1 : ¬ 16 + i < 8 := by omega
    have h2 : ¬ 16 + i - 8 < 8 := by omega
    have h3 : 16 + i - 8 - 8 < 8 := by omega
    simp only [BitVec.getLsbD_append, h1, h2, h3, if_false, if_true]
    congr 1; omega
  · have h1 : ¬ 8 + i < 8 := by omega
    have h2 : 8 + i - 8 < 8 := by omega
    simp only [BitVec.getLsbD_append, h1, h2, if_false, if_true]
    congr 1; omega
  · have h1 : 0 + i < 8 := by omega
    simp only [BitVec.getLsbD_append, h1, if_true]
    congr 1; omega

/-- A word is its four bytes put together. -/
theorem append_wordBytes (w : Word) :
    w.extractLsb' 24 8 ++ w.extractLsb' 16 8 ++ w.extractLsb' 8 8 ++ w.extractLsb' 0 8 = w := by
  apply BitVec.eq_of_getLsbD_eq
  intro i hi
  simp only [BitVec.getLsbD_append, BitVec.getLsbD_extractLsb']
  by_cases h1 : i < 8
  · simp [h1]
  by_cases h2 : i - 8 < 8
  · have e : 8 + (i - 8) = i := by omega
    simp [h1, h2, e]
  by_cases h3 : i - 8 - 8 < 8
  · have e : 16 + (i - 8 - 8) = i := by omega
    simp [h1, h2, h3, e]
  · have e : 24 + (i - 8 - 8 - 8) = i := by omega
    have h4 : i - 8 - 8 - 8 < 8 := by omega
    simp [h1, h2, h3, h4, e]

/-- A payload's words hold its bytes and then zero pad bytes (R84). -/
theorem unpackBytes_packBytes : ∀ bs : List Byte,
    unpackBytes (packBytes bs) = bs ++ List.replicate (4 * ((bs.length + 3) / 4) - bs.length) 0
  | [] => rfl
  | [a] => by
    have := wordBytes_append 0#8 0#8 0#8 a
    simp only [packBytes, unpackBytes, List.flatMap_cons, List.flatMap_nil, List.append_nil]
    rw [this]; simp [List.replicate]
  | [a, b] => by
    have := wordBytes_append 0#8 0#8 b a
    simp only [packBytes, unpackBytes, List.flatMap_cons, List.flatMap_nil, List.append_nil]
    rw [this]; simp [List.replicate]
  | [a, b, c] => by
    have := wordBytes_append 0#8 c b a
    simp only [packBytes, unpackBytes, List.flatMap_cons, List.flatMap_nil, List.append_nil]
    rw [this]; simp
  | a :: b :: c :: d :: rest => by
    have h := wordBytes_append d c b a
    have ih := unpackBytes_packBytes rest
    simp only [unpackBytes] at ih
    simp only [packBytes, unpackBytes, List.flatMap_cons, h, ih, List.length_cons, List.cons_append, List.nil_append]
    congr 6
    omega

/-- Words that hold given bytes and then only zero pad bytes are those bytes packed (R84). -/
theorem packBytes_unpackBytes {ws : List Word} {l : Nat} (hl : ws.length = (l + 3) / 4)
    (hp : ∀ x ∈ (unpackBytes ws).drop l, x = 0) : packBytes ((unpackBytes ws).take l) = ws := by
  have four : ∀ w : Word, packBytes (wordBytes w) = [w] := by
    intro w; simp only [wordBytes, packBytes, append_wordBytes]
  induction ws generalizing l with
  | nil => simp [unpackBytes, packBytes]
  | cons w ws ih =>
    simp only [List.length_cons] at hl
    have hu : unpackBytes (w :: ws) = wordBytes w ++ unpackBytes ws := rfl
    by_cases h4 : 4 ≤ l
    · obtain ⟨m, rfl⟩ : ∃ m, l = m + 4 := ⟨l - 4, by omega⟩
      have e1 : (unpackBytes (w :: ws)).take (m + 4)
          = w.extractLsb' 0 8 :: w.extractLsb' 8 8 :: w.extractLsb' 16 8 :: w.extractLsb' 24 8 :: (unpackBytes ws).take m := by
        rw [hu]; simp [wordBytes]
      have e2 : (unpackBytes (w :: ws)).drop (m + 4) = (unpackBytes ws).drop m := by rw [hu]; simp [wordBytes]
      rw [e1, packBytes, append_wordBytes, ih (by omega) (by rw [← e2]; exact hp)]
    · have hws : ws = [] := by rw [← List.length_eq_zero_iff]; omega
      subst hws
      have hu' : unpackBytes [w] = wordBytes w := by simp [unpackBytes]
      rw [hu'] at hp ⊢
      have hall := append_wordBytes w
      rcases (by omega : l = 1 ∨ l = 2 ∨ l = 3) with rfl | rfl | rfl
      · simp only [wordBytes, List.drop_succ_cons, List.drop_zero, List.mem_cons, List.not_mem_nil, or_false,
          forall_eq_or_imp, forall_eq] at hp
        rw [hp.1, hp.2.1, hp.2.2] at hall
        simp only [wordBytes, List.take_succ_cons, List.take_zero, packBytes]
        exact congrArg (· :: []) hall
      · simp only [wordBytes, List.drop_succ_cons, List.drop_zero, List.mem_cons, List.not_mem_nil, or_false,
          forall_eq_or_imp, forall_eq] at hp
        rw [hp.1, hp.2] at hall
        simp only [wordBytes, List.take_succ_cons, List.take_zero, packBytes]
        exact congrArg (· :: []) hall
      · simp only [wordBytes, List.drop_succ_cons, List.drop_zero, List.mem_cons, List.not_mem_nil, or_false,
          forall_eq] at hp
        rw [hp] at hall
        simp only [wordBytes, List.take_succ_cons, List.take_zero, packBytes]
        exact congrArg (· :: []) hall

end Sys2Proof
end

