-- ==== Sys2Proof/Laws/Reads.lean ====
section
/-! SUPPORT. What the operations that read a block that holds Values give: a field through its window, a whole block, the
live blocks as a list, and a block fill of the reader (20_memory.md R56, 44_cursor.md R232). -/

namespace Sys2Proof.Machine

/-! ### A field through its window -/

/-- A window inside bytes that all hold values is read whole. -/
theorem ramBytes_window {s : State} {a f n : Nat} {bs : List Byte} (h : ramBytes s a bs.length = .ok bs)
    (hf : f + n ≤ bs.length) : ramBytes s (a + f) n = .ok ((bs.drop f).take n) := by
  have hl : ((bs.drop f).take n).length = n := by simp only [List.length_take, List.length_drop]; omega
  have := ramBytes_eq_ok (s := s) (a := a + f) (bs := (bs.drop f).take n) (fun j hj => by
    have hb := (ramBytes_ok h).2 (f + j) (by omega)
    rw [Nat.add_assoc, hb]
    simp)
  rwa [hl] at this

/-- Reading element `k` of a block through the RAM's access window is decoding field `k` of its buffer (R181, R56). -/
theorem ramField_holds {s : State} {b w k : Nat} {vs : List Word} (h : HoldsBlock s b w vs) (hk : k < vs.length) :
    ramField s b k = .ok (vs.getD k 0) := by
  have hbuf := buf_ok.mp h.buf
  have hlen : blen s b = (encodeAll vs w).length := by simp [blen, h.occ, h.width]
  have hin : (k + 1) * w ≤ 8 * (encodeAll vs w).length := by
    rw [encodeAll_length]
    exact le_trans (Nat.mul_le_mul_right _ hk) (bytesFor_le _)
  have hread := ramBytes_window (hlen ▸ hbuf.2.2) (fieldFirst_add_bytes_le hin)
  have hle : ¬ 32 < w := by have := h.width_le; omega
  simp only [ramField, h.width, hle, if_false, memRead, hread, ok_bind, pure_eq_ok]
  exact congrArg Except.ok (decodeOne_encodeAll h.width_le h.fit k)

/-! ### Whole blocks -/

/-- The buffer of a live block is read. -/
theorem StoreInv.buf_bufOf {s : State} (h : StoreInv s) {b : Nat} (hb : b < s.nblk.toNat) :
    buf s b = .ok (bufOf s b) := by
  have := h.canonical b hb
  simp only [bufOf, this]

/-- Reading the first live blocks succeeds. -/
theorem loadBlocks_ok {s : State} (h : StoreInv s) {n : Nat} (hn : n ≤ s.nblk.toNat) :
    loadBlocks s n = .ok ((List.range n).map (blockAt s)) := by
  induction n with
  | zero => rfl
  | succ n ih =>
    simp only [loadBlocks, loadBlock, ih (by omega), h.buf_bufOf (by omega : n < s.nblk.toNat), ok_bind, pure_eq_ok,
      List.range_succ, List.map_append, List.map_cons, List.map_nil]
    rfl

/-- The footprint is the length of the image of the blocks it counts (R186, R262). -/
theorem storeBytes_eq_image {s : State} (h : StoreInv s) {n : Nat} (hn : n ≤ s.nblk.toNat) :
    storeBytes s n = (imageOf ((List.range n).map (blockAt s))).length := by
  induction n with
  | zero => rfl
  | succ n ih =>
    have hl : (bufOf s n).length = blen s n := buf_length (h.buf_bufOf (by omega : n < s.nblk.toNat))
    simp only [imageOf] at ih
    simp only [storeBytes, ih (by omega), imageOf, List.range_succ, List.map_append, List.map_cons, List.map_nil,
      List.flatMap_append, List.length_append, List.flatMap_cons, List.flatMap_nil, List.append_nil, recordBytes,
      List.length_cons, blockAt, hl]
    omega

/-! ### The reader -/

/-- `t` differs from `s` at most in the cursor registers, the cache and the count of free values. -/
def OnlyReader (s t : State) : Prop :=
  t = { s with
    cOpen := t.cOpen, cOwn := t.cOwn, cBlk := t.cBlk, cCnt := t.cCnt, cPos := t.cPos, cBitoff := t.cBitoff
    cache := t.cache, freeCtr := t.freeCtr }

theorem OnlyReader.sameStore {s t : State} (h : OnlyReader s t) : SameStore s t := by
  rw [h]; exact ⟨rfl, rfl, fun _ => rfl, fun _ => rfl, fun _ => rfl⟩

theorem OnlyReader.trans {s t u : State} (h : OnlyReader s t) (k : OnlyReader t u) : OnlyReader s u := by
  unfold OnlyReader at *
  rw [k, h]

/-- The entries of a cache that Values were put into. -/
theorem cacheWith_get (vs : List Word) (n k : Nat) (hk : k < 256) (hv : k < vs.length) :
    (cacheWith vs n)[k] = vs.getD k 0 := by
  simp [cacheWith, hv]

/-- Everything a block fill does to a block that holds Values (R232). -/
theorem fill_holds {s : State} {b w : Nat} {vs : List Word} (h : HoldsBlock s b w vs) :
    fill b s = .ok (setCounters b vs.length 0 0 (setCache vs s)) := by
  simp only [fill, h.buf, ok_bind, pure_eq_ok, h.occ, h.width, decodeAll_of_encodeAll h.width_le h.fit]

/-- Serving a cache entry moves the position and the bit offset on by one element (R234). -/
theorem serve_ok {s : State} {p : State × List Word} :
    serve s = .ok p ↔ ∃ h : s.cPos.toNat < 256,
      p = (setCounters s.cBlk.toNat s.cCnt.toNat (s.cPos.toNat + 1) (s.cBitoff.toNat + widthAt s s.cBlk.toNat) s,
        [s.cache[s.cPos.toNat]]) := by
  simp only [serve]
  split
  · rename_i h
    constructor
    · intro e; exact ⟨h, (Except.ok.inj e).symm⟩
    · rintro ⟨-, rfl⟩; rfl
  · rename_i h
    constructor
    · intro e; cases e
    · rintro ⟨h', -⟩; exact absurd h' h

/-- Everything the construction of a reader can do (R233). -/
theorem openReader_cases {s t : State} (h : openReader s = .ok t) :
    (s.nblk.toNat = 0 ∧ t = setCounters 0 0 0 0 s) ∨ (0 < s.nblk.toNat ∧ fill 0 s = .ok t) := by
  simp only [openReader] at h
  split at h
  · rename_i hn; exact .inr ⟨hn, h⟩
  · rename_i hn; exact .inl ⟨by omega, (Except.ok.inj h).symm⟩

end Sys2Proof.Machine
end

