-- ==== Sys2Proof/Laws/Frames.lean ====
section
/-! SUPPORT. What every operation leaves alone in every state, inside the invariants or not: the build's bound, the events not
taken yet and the responses produced. -/

namespace Sys2Proof.Machine

/-- The build's bound, the events and the responses are the same. -/
structure SamePort (s t : State) : Prop where
  nbMax : t.nbMax = s.nbMax
  inQ : t.inQ = s.inQ
  outQ : t.outQ = s.outQ

theorem SamePort.refl (s : State) : SamePort s s := ⟨rfl, rfl, rfl⟩

theorem SamePort.trans {s t u : State} (h : SamePort s t) (k : SamePort t u) : SamePort s u :=
  ⟨k.nbMax.trans h.nbMax, k.inQ.trans h.inQ, k.outQ.trans h.outQ⟩

theorem storeBuf_samePort {b : Nat} {bs : List Byte} {s t : State} (h : storeBuf b bs s = .ok t) : SamePort s t := by
  obtain ⟨-, -, rfl⟩ := storeBuf_ok.mp h
  exact ⟨rfl, rfl, rfl⟩

theorem storeBlock_samePort {b : Nat} {blk : Block} {s t : State} (h : storeBlock b blk s = .ok t) : SamePort s t := by
  obtain ⟨s1, h1, h2⟩ := bind_eq_ok.mp h
  cases h2
  exact (storeBuf_samePort h1).trans ⟨rfl, rfl, rfl⟩

theorem storeBlocks_samePort {b : Nat} {blks : List Block} {s t : State} (h : storeBlocks b blks s = .ok t) :
    SamePort s t := by
  induction blks generalizing b s with
  | nil => cases h; exact .refl _
  | cons blk rest ih =>
    obtain ⟨s1, h1, h2⟩ := bind_eq_ok.mp h
    exact (storeBlock_samePort h1).trans (ih h2)

theorem replaceStore_samePort {blks : List Block} {s t : State} (h : replaceStore blks s = .ok t) : SamePort s t := by
  obtain ⟨s1, h1, h2⟩ := bind_eq_ok.mp h
  cases h2
  exact (storeBlocks_samePort h1).trans ⟨rfl, rfl, rfl⟩

theorem widenBlock_samePort {b r : Nat} {s t : State} (h : widenBlock b r s = .ok t) : SamePort s t := by
  simp only [widenBlock] at h
  split at h
  · obtain ⟨bs, -, h⟩ := bind_eq_ok.mp h
    obtain ⟨s1, h1, h2⟩ := bind_eq_ok.mp h
    cases h2
    exact (storeBuf_samePort h1).trans ⟨rfl, rfl, rfl⟩
  · cases h; exact .refl s

theorem appendValue_samePort {b : Nat} {v : Word} {s t : State} (h : appendValue b v s = .ok t) : SamePort s t := by
  obtain ⟨bs, -, h⟩ := bind_eq_ok.mp h
  obtain ⟨s1, h1, h2⟩ := bind_eq_ok.mp h
  cases h2
  exact (storeBuf_samePort h1).trans ⟨rfl, rfl, rfl⟩

theorem pushLast_samePort {v : Word} {s t : State} (h : pushLast v s = .ok t) : SamePort s t := by
  obtain ⟨s1, h1, h2⟩ := bind_eq_ok.mp h
  exact (widenBlock_samePort h1).trans (appendValue_samePort h2)

theorem popLast_samePort {v : Word} {s t : State} (h : popLast s = .ok (t, v)) : SamePort s t := by
  simp only [popLast] at h
  split at h
  · cases h
  split at h
  · cases h
  obtain ⟨bs, -, h⟩ := bind_eq_ok.mp h
  obtain ⟨s1, h1, h2⟩ := bind_eq_ok.mp h
  cases h2
  refine (storeBuf_samePort h1).trans ?_
  split <;> exact ⟨rfl, rfl, rfl⟩

/-- A block fill changes the reader only. -/
theorem fill_onlyReader {b : Nat} {s t : State} (h : fill b s = .ok t) : OnlyReader s t := by
  obtain ⟨bs, -, h⟩ := bind_eq_ok.mp h
  cases h; rfl

theorem serve_onlyReader {s t : State} {body : List Word} (h : serve s = .ok (t, body)) : OnlyReader s t := by
  obtain ⟨hp, e⟩ := serve_ok.mp h
  cases e; rfl

theorem openReader_onlyReader {s t : State} (h : openReader s = .ok t) : OnlyReader s t := by
  rcases openReader_cases h with ⟨-, rfl⟩ | ⟨-, h⟩
  · rfl
  · exact fill_onlyReader h

theorem OnlyReader.samePort {s t : State} (h : OnlyReader s t) : SamePort s t := by
  rw [h]; exact ⟨rfl, rfl, rfl⟩

end Sys2Proof.Machine
end

