-- ==== Sys2Proof/Laws/PerInstr.lean ====
section
/-! SUPPORT. The statements made once for each command. -/

namespace Sys2Proof.Laws.HeaderSelectsRow

/-- A command's packet begins with a header that selects the command's own row of the opcode map and no other
(30_encoding.md R82, R87, R88). -/
def Statement (i : Instr) : Prop :=
  ∃ h ws, encode i = h :: ws ∧ headerOf i.op h ∧ ∀ r, rowOf h = some r ↔ r ∈ opTable ∧ r.op = i.op

/-- A header that asks for a command's row selects exactly the rows of that command. -/
theorem of_header {i : Instr} {h : Word} {ws : List Word} (e : encode i = h :: ws) (hh : headerOf i.op h) : Statement i := by
  refine ⟨h, ws, e, hh, fun r => ?_⟩
  rw [rowOf_eq_some]
  constructor
  · rintro ⟨hm, hr⟩
    exact ⟨hm, code_injective _ _ (hr.1.symm.trans hh.1)⟩
  · rintro ⟨hm, hop⟩
    exact ⟨hm, hop ▸ hh⟩

theorem plain (op : Op) : headerOf op (headerWord op 0 0 false) :=
  headerOf_headerWord op 0 0 false (.inr rfl) (.inr rfl) (.inr rfl)

theorem width (op : Op) (h : Machine.usesA op = true) (w : Byte) : headerOf op (headerWord op w 0 false) :=
  headerOf_headerWord op w 0 false (.inl h) (.inr rfl) (.inr rfl)

theorem bits (v : Word) : Statement (.bits v) := of_header rfl (plain .bits)
theorem maxr (w : Byte) : Statement (.maxr w) := of_header rfl (width .maxr rfl w)
theorem enc (w : Byte) (vs : List Word) : Statement (.enc w vs) := of_header rfl (width .enc rfl w)
theorem dec1 (w : Byte) (i : Word) (bs : List Byte) : Statement (.dec1 w i bs) := of_header rfl (width .dec1 rfl w)
theorem deca (w : Byte) (n : Word) (bs : List Byte) : Statement (.deca w n bs) := of_header rfl (width .deca rfl w)
theorem wr1 (w : Byte) (i v : Word) (bs : List Byte) : Statement (.wr1 w i v bs) := of_header rfl (width .wr1 rfl w)
theorem rpk (oldW newW : Byte) (n : Word) (bs : List Byte) : Statement (.rpk oldW newW n bs) :=
  of_header rfl (headerOf_headerWord .rpk newW oldW false (.inl rfl) (.inl rfl) (.inr rfl))
theorem idx (i : Word) : Statement (.idx i) := of_header rfl (plain .idx)
theorem get (i : Word) : Statement (.get i) := of_header rfl (plain .get)
theorem len : Statement .len := of_header rfl (plain .len)
theorem isemp : Statement .isemp := of_header rfl (plain .isemp)
theorem bytelen : Statement .bytelen := of_header rfl (plain .bytelen)
theorem binfo (b : Word) : Statement (.binfo b) := of_header rfl (plain .binfo)
theorem new : Statement .new := of_header rfl (plain .new)
theorem push (v : Word) : Statement (.push v) := of_header rfl (plain .push)
theorem pop : Statement .pop := of_header rfl (plain .pop)
theorem build (vs : List Word) : Statement (.build vs) := of_header rfl (plain .build)
theorem copen (own : Bool) : Statement (.copen own) :=
  of_header rfl (headerOf_headerWord .copen 0 0 own (.inr rfl) (.inr rfl) (.inl rfl))
theorem cnext : Statement .cnext := of_header rfl (plain .cnext)
theorem cclose : Statement .cclose := of_header rfl (plain .cclose)
theorem cstat : Statement .cstat := of_header rfl (plain .cstat)
theorem exportImage : Statement .exportImage := of_header rfl (plain .exportImage)
theorem importImage (bs : List Byte) : Statement (.importImage bs) := of_header rfl (plain .importImage)

end Sys2Proof.Laws.HeaderSelectsRow
end

