-- ==== Sys2Proof/Tests/Slice0.lean ====
section
/-! SUPPORT. The model's own tests: well-formedness refuses what a packet cannot carry, words written out from 30_encoding.md
decode to their commands, vectors of 95_test_vectors.md, and for every obligation with hypotheses values that meet them. -/

namespace Sys2Proof.Tests

open Sys2Proof.Machine

/-! ### Small states -/

/-- A store of one block, no cursor. -/
def oneBlock (nbMax width occ : Nat) (bs : List Byte) : State :=
  { State.resetOf nbMax with
    nblk := 1
    len := BitVec.ofNat 32 occ
    width := tableSet 0 [] 0 (BitVec.ofNat 6 width)
    occ := tableSet 0 [] 0 (BitVec.ofNat 9 occ)
    ram := cellsFrom 0 bs }

/-- The empty store of a build with one slot. -/
def empty : State := State.resetOf 1

/-- The store of 1, 2, 3, 1000 (vector V-X9), four slots. -/
def store4 : State := oneBlock 4 10 4 [0x01, 0x08, 0x30, 0x00, 0xFA]

/-- The store of 1, 2, 3 (vector V-S7), four slots. -/
def store3 : State := oneBlock 4 2 3 [0x39]

/-- 256 zeros in the only slot of a build with one. -/
def fullStore : State := oneBlock 1 0 256 []

/-- 256 zeros in the first slot of a build with two. -/
def roomy : State := { fullStore with nbMax := 2 }

/-- A block of 256 zeros, then a block of one 1000, in a build with two slots. -/
def twoBlocks : State :=
  { fullStore with
    nbMax := 2
    nblk := 2
    len := 257
    width := [(1, 10)]
    occ := [(0, 256), (1, 1)]
    ram := [(1024, 0xE8), (1025, 0x03)] }

/-- A state with a cursor open on it, its cache beginning with `vs`. -/
def reading (own : Bool) (blk cnt pos bitoff : Nat) (vs : List Word) (s : State) : State :=
  { s with
    cOpen := true
    cOwn := own
    cBlk := BitVec.ofNat 22 blk
    cCnt := BitVec.ofNat 9 cnt
    cPos := BitVec.ofNat 9 pos
    cBitoff := BitVec.ofNat 14 bitoff
    cache := Vector.ofFn (fun k => vs.getD k.val 0) }

/-- A borrowing cursor at the start of `store4`. -/
def atStart : State := reading false 0 4 0 0 [1, 2, 3, 1000] store4

/-- A borrowing cursor before the last Value of `store4`. -/
def atLast : State := reading false 0 4 3 30 [1, 2, 3, 1000] store4

/-- A borrowing cursor past the last Value of `store4`. -/
def atEnd : State := reading false 0 4 4 40 [1, 2, 3, 1000] store4

/-- An owning cursor at the start of `store4`. -/
def owned : State := reading true 0 4 0 0 [1, 2, 3, 1000] store4

/-- A borrowing cursor at the end of the first block of `twoBlocks`. -/
def atBlockEnd : State := reading false 0 256 256 0 [] twoBlocks

/-- A borrowing cursor on the empty store. -/
def onEmpty : State := reading false 0 0 0 0 [] empty

/-- A state with packets waiting at the command port. -/
def presented (p : Packet) (s : State) : State := { s with inQ := [.packet p] }

/-- The newest response after a command. -/
def answer (i : Instr) (s : State) : Option Packet :=
  match exec i s with
  | .next t => t.outQ.getLast?
  | .fault _ => none
  | .refused _ => none

/-- `LEN` and the live blocks after a command. -/
def storeAfter (i : Instr) (s : State) : Option (Nat × List (Nat × Nat × List Byte)) :=
  match exec i s with
  | .next t => some (t.len.toNat, (blocks t).map (fun b => (b.width, b.occ, b.buf)))
  | .fault _ => none
  | .refused _ => none

/-- The cursor registers after a command, as `CSTAT` shows them. -/
def cursorAfter (i : Instr) (s : State) : Option (List Nat) :=
  match exec i s with
  | .next t => some [(cursorFlags t).toNat, t.cBlk.toNat, t.cPos.toNat, t.cCnt.toNat, t.cBitoff.toNat]
  | .fault _ => none
  | .refused _ => none

/-- The response of one step on one packet. -/
def stepAnswer (p : Packet) (s : State) : Option Packet :=
  match step (presented p s) with
  | .next t => t.outQ.getLast?
  | .fault _ => none
  | .refused _ => none

/-! ### The states meet the invariants -/

/-- An answer that has a value is that value. -/
theorem eq_ok {α β : Type} {r : Except α β} {x : β} (h : r.toOption = some x) : r = .ok x := by
  cases r with
  | error e => cases h
  | ok y => cases h; rfl

/-- The invariants, from facts that can be decided on a concrete state. -/
theorem inv_of_facts {s : State}
    (hd : 1 ≤ s.nbMax ∧ s.nbMax ≤ 2 ^ 21 ∧ Memory.wf s.ram = true ∧ (∀ c ∈ s.ram, c.1 < s.nbMax * 1024) ∧
        tableWf 0 s.width = true ∧ (∀ c ∈ s.width, c.1 < s.nbMax) ∧ tableWf 0 s.occ = true ∧ ∀ c ∈ s.occ, c.1 < s.nbMax)
    (hs : s.nblk.toNat ≤ s.nbMax ∧ (∀ b, b < s.nblk.toNat → 1 ≤ occAt s b ∧ occAt s b ≤ 256) ∧
        (∀ b, b < s.nblk.toNat → widthAt s b ≤ 32) ∧ (∀ b, b < s.nblk.toNat → b + 1 < s.nblk.toNat → occAt s b = 256) ∧
        s.len.toNat = occUpTo s s.nblk.toNat ∧
        ∀ b, b < s.nblk.toNat → (buf s b).toOption = some (encodeAll (vals s b) (widthAt s b)))
    (hc : (s.cOpen = false → s.cOwn = false ∧ s.cBlk = 0 ∧ s.cCnt = 0 ∧ s.cPos = 0 ∧ s.cBitoff = 0) ∧
        (s.cOpen = true → s.nblk = 0 → s.cBlk = 0 ∧ s.cCnt = 0 ∧ s.cPos = 0 ∧ s.cBitoff = 0) ∧
        (s.cOpen = true → s.nblk ≠ 0 →
          s.cBlk.toNat < s.nblk.toNat ∧ s.cCnt.toNat = occAt s s.cBlk.toNat ∧ s.cPos.toNat ≤ s.cCnt.toNat ∧
            s.cBitoff.toNat = s.cPos.toNat * widthAt s s.cBlk.toNat ∧
            ∀ k (h : k < 256), k < s.cCnt.toNat → s.cache[k] = (vals s s.cBlk.toNat).getD k 0)) :
    Machine.Inv s := by
  obtain ⟨t1, t2, t3, t4, t5, t6⟩ := hs
  exact ⟨⟨hd.1, hd.2.1, hd.2.2.1, hd.2.2.2.1, hd.2.2.2.2.1, hd.2.2.2.2.2.1, hd.2.2.2.2.2.2.1, hd.2.2.2.2.2.2.2⟩,
    ⟨t1, t2, t3, fun b hb => t4 b (by omega) hb, t5, fun b hb => eq_ok (t6 b hb)⟩, ⟨hc.1, hc.2.1, hc.2.2⟩⟩

theorem inv_empty : Machine.Inv empty := inv_of_facts (by decide +kernel) (by decide +kernel) (by decide +kernel)
theorem inv_store4 : Machine.Inv store4 := inv_of_facts (by decide +kernel) (by decide +kernel) (by decide +kernel)
theorem inv_store3 : Machine.Inv store3 := inv_of_facts (by decide +kernel) (by decide +kernel) (by decide +kernel)
theorem inv_fullStore : Machine.Inv fullStore := inv_of_facts (by decide +kernel) (by decide +kernel) (by decide +kernel)
theorem inv_roomy : Machine.Inv roomy := inv_of_facts (by decide +kernel) (by decide +kernel) (by decide +kernel)
theorem inv_twoBlocks : Machine.Inv twoBlocks := inv_of_facts (by decide +kernel) (by decide +kernel) (by decide +kernel)
theorem inv_atStart : Machine.Inv atStart := inv_of_facts (by decide +kernel) (by decide +kernel) (by decide +kernel)
theorem inv_atLast : Machine.Inv atLast := inv_of_facts (by decide +kernel) (by decide +kernel) (by decide +kernel)
theorem inv_atEnd : Machine.Inv atEnd := inv_of_facts (by decide +kernel) (by decide +kernel) (by decide +kernel)
theorem inv_owned : Machine.Inv owned := inv_of_facts (by decide +kernel) (by decide +kernel) (by decide +kernel)
theorem inv_atBlockEnd : Machine.Inv atBlockEnd := inv_of_facts (by decide +kernel) (by decide +kernel) (by decide +kernel)
theorem inv_onEmpty : Machine.Inv onEmpty := inv_of_facts (by decide +kernel) (by decide +kernel) (by decide +kernel)

/-- The memory of the reset state is in canonical form. -/
theorem reset_memory_wf : Memory.wf State.reset.ram = true := rfl

/-! ### Well-formedness: a payload whose count does not fit its operand word (30_encoding.md R83 to R85) is refused -/

/-- `2^32` elements are too many. -/
theorem too_long {α : Type} (x : α) : ¬ (List.replicate (2 ^ 32) x).length < 2 ^ 32 := by
  rw [List.length_replicate]
  exact Nat.lt_irrefl _

theorem test_wellFormed_refuses_enc : ¬ (Instr.enc 1 (List.replicate (2 ^ 32) 0)).WellFormed := too_long _
theorem test_wellFormed_refuses_dec1 : ¬ (Instr.dec1 1 0 (List.replicate (2 ^ 32) 0)).WellFormed := too_long _
theorem test_wellFormed_refuses_deca : ¬ (Instr.deca 1 0 (List.replicate (2 ^ 32) 0)).WellFormed := too_long _
theorem test_wellFormed_refuses_wr1 : ¬ (Instr.wr1 1 0 0 (List.replicate (2 ^ 32) 0)).WellFormed := too_long _
theorem test_wellFormed_refuses_rpk : ¬ (Instr.rpk 1 1 0 (List.replicate (2 ^ 32) 0)).WellFormed := too_long _
theorem test_wellFormed_refuses_build : ¬ (Instr.build (List.replicate (2 ^ 32) 0)).WellFormed := too_long _
theorem test_wellFormed_refuses_import : ¬ (Instr.importImage (List.replicate (2 ^ 32) 0)).WellFormed := too_long _

/-! ### Decoding: words written out from R82 to R87 (and R95, 95_test_vectors.md where a vector shows them) -/

-- V-B10
theorem test_decode_bits : (decode [0x00000001, 0x000003E8]).toOption = some (.bits 1000) := by decide
-- R95
theorem test_decode_maxr : (decode [0x00000A02]).toOption = some (.maxr 10) := by decide
-- V-E3
theorem test_decode_enc :
    (decode [0x00000A10, 4, 1, 2, 3, 0x000003E8]).toOption = some (.enc 10 [1, 2, 3, 1000]) := by decide
-- R95
theorem test_decode_dec1 :
    (decode [0x00000A11, 3, 5, 0x00300801, 0x000000FA]).toOption = some (.dec1 10 3 [0x01, 0x08, 0x30, 0x00, 0xFA]) := by decide
-- P5 step 5
theorem test_decode_deca :
    (decode [0x00000A12, 4, 5, 0x00300801, 0x000000FA]).toOption = some (.deca 10 4 [0x01, 0x08, 0x30, 0x00, 0xFA]) := by decide
-- V-W3
theorem test_decode_wr1 :
    (decode [0x00000A13, 3, 0x000003E8, 5, 0x00300801, 0]).toOption
      = some (.wr1 10 3 1000 [0x01, 0x08, 0x30, 0x00, 0x00]) := by decide
-- V-R1
theorem test_decode_rpk : (decode [0x00020A14, 3, 1, 0x00000039]).toOption = some (.rpk 2 10 3 [0x39]) := by decide
-- V-X5
theorem test_decode_idx : (decode [0x00000020, 0xFFFFFFFF]).toOption = some (.idx 0xFFFFFFFF) := by decide
-- R95
theorem test_decode_get : (decode [0x00000021, 3]).toOption = some (.get 3) := by decide
-- P1 step 5
theorem test_decode_len : (decode [0x00000022]).toOption = some (.len) := by decide
-- P1 step 21
theorem test_decode_isemp : (decode [0x00000023]).toOption = some (.isemp) := by decide
-- P1 step 10
theorem test_decode_bytelen : (decode [0x00000024]).toOption = some (.bytelen) := by decide
-- P2 step 260
theorem test_decode_binfo : (decode [0x00000025, 1]).toOption = some (.binfo 1) := by decide
-- 2.4, encodings
theorem test_decode_new : (decode [0x00000030]).toOption = some (.new) := by decide
-- R95
theorem test_decode_push : (decode [0x00000031, 0x000003E8]).toOption = some (.push 1000) := by decide
-- R95
theorem test_decode_pop : (decode [0x00000032]).toOption = some (.pop) := by decide
-- P4 step 1
theorem test_decode_build : (decode [0x00000033, 3, 7, 8, 0x0000012C]).toOption = some (.build [7, 8, 300]) := by decide
-- 2.5, encodings
theorem test_decode_copen_ref : (decode [0x00000040]).toOption = some (.copen false) := by decide
-- R95
theorem test_decode_copen_own : (decode [0x01000040]).toOption = some (.copen true) := by decide
-- 2.5, encodings
theorem test_decode_cnext : (decode [0x00000041]).toOption = some (.cnext) := by decide
-- 2.5, encodings
theorem test_decode_cclose : (decode [0x00000042]).toOption = some (.cclose) := by decide
-- 2.5, encodings
theorem test_decode_cstat : (decode [0x00000043]).toOption = some (.cstat) := by decide
-- P1 step 11
theorem test_decode_export : (decode [0x00000050]).toOption = some (.exportImage) := by decide
-- V-I3
theorem test_decode_import :
    (decode [0x00000051, 7, 0x0100040A, 0x00003008]).toOption
      = some (.importImage [0x0A, 0x04, 0x00, 0x01, 0x08, 0x30, 0x00]) := by decide
-- V-F1, V-F2, V-F14, V-F12: rejected packets, by name
theorem test_decode_empty : decode [] = .error .format := rfl
theorem test_decode_zero_header : decode [0x00000000] = .error .opcode := rfl
theorem test_decode_opcode_before_format : decode [0x00000131] = .error .opcode := rfl
theorem test_decode_pad_byte : decode [0x00000051, 3, 0xFF000100] = .error .format := rfl
-- R94: EXTEND [1, 2] is two PUSH packets
theorem test_extend : expandExtend [1, 2] = [[0x00000031, 1], [0x00000031, 2]] := rfl
-- the opcode table's rows WR1 and RPK with operand words of zeros
theorem test_table_wr1 : decodeTableWord 32 0x00000A13 = some (.wr1 10 0 0 []) := by decide
theorem test_table_rpk : decodeTableWord 32 0x00020A14 = some (.rpk 2 10 0 []) := by decide

/-! ### Vectors of 95_test_vectors.md and examples of the command rules, one step each -/

-- V-B10
theorem test_bits_ten : answer (.bits 1000) empty = some [0x00000100, 0x0000000A] := by decide
-- V-B16
theorem test_bits_top : answer (.bits 0x80000000) empty = some [0x00000100, 32] := by decide
-- V-M10
theorem test_maxr_full : answer (.maxr 32) empty = some [0x00000200, 0xFFFFFFFF] := by decide
-- V-M11
theorem test_maxr_refused : answer (.maxr 33) empty = some [0x00000222] := by decide
-- V-E11
theorem test_enc_wide_window :
    answer (.enc 31 [0x7FFFFFFF, 0x12345678, 0x7ABCDEF0]) empty
      = some [0x00001000, 12, 0x7FFFFFFF, 0x091A2B3C, 0x1EAF37BC] := by decide
-- V-E18
theorem test_enc_range : answer (.enc 2 [4]) empty = some [0x00001010] := by decide
-- V-D8
theorem test_dec1_wide_window :
    answer (.dec1 31 1 [0xFF, 0xFF, 0xFF, 0x7F, 0x3C, 0x2B, 0x1A, 0x09, 0xBC, 0x37, 0xAF, 0x1E]) empty
      = some [0x00001100, 0x12345678] := by decide
-- V-D14
theorem test_dec1_no_wrap : answer (.dec1 32 0xFFFFFFFF [0, 0, 0, 0]) empty = some [0x00001123] := by decide
-- V-A1
theorem test_deca :
    answer (.deca 10 4 [0x01, 0x08, 0x30, 0x00, 0xFA]) empty = some [0x00001200, 4, 1, 2, 3, 1000] := by decide
-- V-A3
theorem test_deca_padding : answer (.deca 3 2 [0xFF]) empty = some [0x00001200, 2, 7, 7] := by decide
-- V-W1
theorem test_wr1_clears : answer (.wr1 3 1 0 [0xF5, 0x01]) empty = some [0x00001300, 2, 0x000001C5] := by decide
-- V-W10
theorem test_wr1_order : answer (.wr1 3 5 9 [0xF5, 0x01]) empty = some [0x00001323] := by decide
-- V-R1
theorem test_rpk_widens : answer (.rpk 2 10 3 [0x39]) empty = some [0x00001400, 4, 0x00300801] := by decide
-- V-R3
theorem test_rpk_range : answer (.rpk 10 2 4 [0x01, 0x08, 0x30, 0x00, 0xFA]) empty = some [0x00001410] := by decide
-- V-X4
theorem test_idx : answer (.idx 1000) owned = some [0x00002000, 3, 232] := by decide
-- V-X5
theorem test_idx_max : answer (.idx 0xFFFFFFFF) empty = some [0x00002000, 0x00FFFFFF, 0xFF] := by decide
-- V-X12, block 0 of zeros
theorem test_get_second_block : answer (.get 256) twoBlocks = some [0x00002100, 1000] := by decide
-- V-X10
theorem test_get_past_end : answer (.get 4) store4 = some [0x00002111] := by decide
-- V-X11
theorem test_len : answer (.len) store4 = some [0x00002200, 4] := by decide
-- V-X13
theorem test_len_owned : answer (.len) owned = some [0x00002227] := by decide
-- V-X7
theorem test_isemp_empty : answer (.isemp) empty = some [0x00002300, 1] := by decide
-- V-X11
theorem test_isemp : answer (.isemp) store4 = some [0x00002300, 0] := by decide
-- V-X11
theorem test_bytelen : answer (.bytelen) store4 = some [0x00002400, 8] := by decide
-- R186 on two blocks, widths 0 and 10
theorem test_bytelen_two_blocks : answer (.bytelen) twoBlocks = some [0x00002400, 8] := by decide
-- V-X11
theorem test_binfo : answer (.binfo 0) store4 = some [0x00002500, 10, 4] := by decide
-- V-X11
theorem test_binfo_past_end : answer (.binfo 1) store4 = some [0x00002511] := by decide
-- V-S17
theorem test_new : storeAfter (.new) store4 = some (0, []) := by decide
-- V-S15
theorem test_new_borrowed : answer (.new) atStart = some [0x00003026] := by decide
-- V-S7
theorem test_push_widens : storeAfter (.push 1000) store3 = some (4, [(10, 4, [0x01, 0x08, 0x30, 0x00, 0xFA])]) := by decide
-- V-S13
theorem test_push_full : answer (.push 1) fullStore = some [0x00003125] := by decide
-- V-S8
theorem test_pop : storeAfter (.pop) store4 = some (3, [(10, 3, [0x01, 0x08, 0x30, 0x00])]) := by decide
-- V-S9
theorem test_pop_removes_block : storeAfter (.pop) twoBlocks = some (256, [(0, 256, [])]) := by decide
-- P4 step 1
theorem test_build : storeAfter (.build [7, 8, 300]) store4 = some (3, [(9, 3, [0x07, 0x10, 0xB0, 0x04])]) := by decide
-- V-S14
theorem test_build_full : answer (.build (List.replicate 257 1)) empty = some [0x00003325] := by decide +kernel
-- V-C8
theorem test_copen : cursorAfter (.copen true) store4 = some [3, 0, 0, 4, 0] := by decide
-- V-C7
theorem test_copen_busy : answer (.copen true) atStart = some [0x00004029] := by decide
-- V-C3
theorem test_cnext : cursorAfter (.cnext) atLast = some [1, 0, 4, 4, 40] := by decide
-- V-C4
theorem test_cnext_fills : cursorAfter (.cnext) atBlockEnd = some [1, 1, 1, 1, 10] := by decide
-- V-C8
theorem test_cclose_owning : storeAfter (.cclose) owned = some (0, []) := by decide
-- P3 step 16
theorem test_cclose : cursorAfter (.cclose) atEnd = some [0, 0, 0, 0, 0] := by decide
-- P3 step 15
theorem test_cstat : answer (.cstat) atEnd = some [0x00004300, 1, 0, 4, 4, 40] := by decide
-- V-C8, five registers in order
theorem test_cstat_owning : answer (.cstat) owned = some [0x00004300, 3, 0, 0, 4, 0] := by decide
-- V-I1
theorem test_export : answer (.exportImage) store4 = some [0x00005000, 8, 0x0100040A, 0xFA003008] := by decide
-- R260 on two blocks, the first full
theorem test_export_two_blocks : answer (.exportImage) twoBlocks = some [0x00005000, 8, 0x0A010000, 0x03E80001] := by decide
-- V-I10
theorem test_import_clears_padding :
    storeAfter (.importImage [0x03, 0x02, 0x00, 0xFF]) store4 = some (2, [(3, 2, [0x3F])]) := by decide
-- V-I3
theorem test_import_truncated :
    answer (.importImage [0x0A, 0x04, 0x00, 0x01, 0x08, 0x30, 0x00]) store3 = some [0x00005112] := by decide
-- R312: a packet in flight at a reset is taken and not answered, and the store is empty
theorem test_reset_drops_packet :
    (match step { store4 with inQ := [.resetDuring [0x00000031, 5]] } with
      | .next t => t.nblk = 0 ∧ t.len = 0 ∧ t.inQ = [] ∧ t.outQ = []
      | .fault _ => False
      | .refused _ => False) := ⟨rfl, rfl, rfl, rfl⟩
-- V-F5, V-F15: a step on a rejected packet, and on one that is refused at execution
theorem test_step_reserved_bit : stepAnswer [0x02000022] store4 = some [0x00002220] := by decide
theorem test_step_width : stepAnswer [0x00002110, 1, 9] store4 = some [0x00001022] := by decide

/-! ### Witnesses: for every obligation with hypotheses, values that meet them all, one line for each clause, at a boundary of
its range where it has one -/

/-- Five bytes, the image's buffer of `store4`. -/
def five : List Byte := [0x01, 0x08, 0x30, 0x00, 0xFA]

theorem witness_DecodeUndoesEncode : (Instr.wr1 10 3 1000 five).WellFormed ∧ (Instr.build []).WellFormed :=
  ⟨(by decide : five.length < 2 ^ 32), (by decide : ([] : List Word).length < 2 ^ 32)⟩

theorem witness_DecodedPacketIsItsEncoding :
    decode [0x00000A12, 4, 5, 0x00300801, 0x000000FA] = .ok (.deca 10 4 five) := rfl

/-- An unknown opcode, a reserved bit, an unused `A`, `B`, `F`; and a header that selects a row. -/
theorem witness_OpcodeFailureConditions :
    (decode (0x00000000 :: []) = .error .opcode ∧ (presented [0x00000000] store4).inQ = .packet (0x00000000 :: []) :: []) ∧
    (decode (0x02000022 :: []) = .error .opcode ∧ (presented [0x02000022] store4).inQ = .packet (0x02000022 :: []) :: []) ∧
    (decode (0x00000101 :: [5]) = .error .opcode ∧ (presented [0x00000101, 5] store4).inQ = .packet (0x00000101 :: [5]) :: []) ∧
    (decode (0x00010A10 :: [0]) = .error .opcode ∧ (presented [0x00010A10, 0] store4).inQ = .packet (0x00010A10 :: [0]) :: []) ∧
    (decode (0x01000041 :: []) = .error .opcode ∧ (presented [0x01000041] store4).inQ = .packet (0x01000041 :: []) :: []) ∧
    decode (0x01000040 :: []) ≠ .error .opcode :=
  ⟨⟨rfl, rfl⟩, ⟨rfl, rfl⟩, ⟨rfl, rfl⟩, ⟨rfl, rfl⟩, ⟨rfl, rfl⟩, by intro h; cases h⟩

/-- An empty packet, one word short, one word long, a count word too large, a pad byte; and a packet of the right form. -/
theorem witness_FormatFailureConditions :
    (decode [] = .error .format ∧ (presented [] store4).inQ = .packet [] :: []) ∧
    (decode [0x00000031] = .error .format ∧ (presented [0x00000031] store4).inQ = .packet [0x00000031] :: []) ∧
    (decode [0x00000022, 0] = .error .format ∧ (presented [0x00000022, 0] store4).inQ = .packet [0x00000022, 0] :: []) ∧
    (decode [0x00000A10, 2, 1] = .error .format ∧
      (presented [0x00000A10, 2, 1] store4).inQ = .packet [0x00000A10, 2, 1] :: []) ∧
    (decode [0x00000051, 3, 0xFF000100] = .error .format ∧
      (presented [0x00000051, 3, 0xFF000100] store4).inQ = .packet [0x00000051, 3, 0xFF000100] :: []) ∧
    decode [0x00000051, 3, 0x00000100] ≠ .error .format :=
  ⟨⟨rfl, rfl⟩, ⟨rfl, rfl⟩, ⟨rfl, rfl⟩, ⟨rfl, rfl⟩, ⟨rfl, rfl⟩, by intro h; cases h⟩

/-- The last byte of the payload, and the first pad byte. -/
theorem witness_BytePayloadLayout :
    (4 < 4 * (packBytes five).length ∧ 4 < five.length) ∧ (5 < 4 * (packBytes five).length ∧ ¬ 5 < five.length) := by
  decide

theorem witness_StepRunsDecodedCommand :
    (presented [0x00000021, 3] store4).inQ = .packet [0x00000021, 3] :: [] ∧ decode [0x00000021, 3] = .ok (.get 3) :=
  ⟨rfl, rfl⟩

theorem witness_StepAnswersRejectedPacket :
    ((presented [] store4).inQ = .packet [] :: [] ∧ decode [] = .error .format) ∧
    ((presented [0x00000099] store4).inQ = .packet [0x00000099] :: [] ∧ decode [0x00000099] = .error .opcode) :=
  ⟨⟨rfl, rfl⟩, ⟨rfl, rfl⟩⟩

theorem witness_EachPacketGetsOneResponse :
    (presented [0x00000022] store4).inQ = .packet [0x00000022] :: [] ∧
      step (presented [0x00000022] store4) = .next (answered store4 [0x00002200, 4]) :=
  ⟨rfl, rfl⟩

theorem witness_ResetEventEmptiesCore :
    { owned with inQ := [.reset] }.inQ = .reset :: [] ∧
      ∃ p, { owned with inQ := [.resetDuring [0x00000031, 5]] }.inQ = .resetDuring p :: [] := ⟨rfl, _, rfl⟩

theorem witness_StepKeepsInvariants :
    Machine.Inv atStart ∧ step atStart = .next atStart := ⟨inv_atStart, rfl⟩

theorem witness_StepKeepsInvariants_packet :
    Machine.Inv (presented [0x00000023] store4) ∧
      step (presented [0x00000023] store4) = .next (answered store4 [0x00002300, 0]) :=
  ⟨inv_of_facts (by decide +kernel) (by decide +kernel) (by decide +kernel), rfl⟩

theorem witness_InvariantStatesNeverStop : Machine.Inv (presented [0x00000032] twoBlocks) :=
  inv_of_facts (by decide +kernel) (by decide +kernel) (by decide +kernel)

theorem witness_StepKeepsBuildBound :
    step (presented [0x00000023] store4) = .next (answered store4 [0x00002300, 0]) := rfl

/-- `GET 4` past the end of `store4`, `E_INDEX`. -/
theorem witness_FailingCommandChangesNothing :
    (presented [0x00000021, 4] store4).inQ = .packet [0x00000021, 4] :: [] ∧
      step (presented [0x00000021, 4] store4) = .next (answered store4 [0x00002111]) ∧
      (answered store4 [0x00002111]).outQ
        = (presented [0x00000021, 4] store4).outQ ++ [rspHeader (echoOf [0x00000021, 4]) .eIndex :: []] ∧
      Status.eIndex ≠ .ok :=
  ⟨rfl, rfl, rfl, by decide⟩

theorem witness_StatusesOfEachCommand : exec (.get 4) store4 = .next (answered store4 [0x00002111]) := rfl

theorem witness_BitsAnswersMinimalWidth :
    (1000#32).toNat < 2 ^ 10 ∧ ¬ (1000#32).toNat < 2 ^ 9 ∧ 1000#32 ≠ 0 ∧ (0#32).toNat < 2 ^ 0 := by decide

theorem witness_ClzCountsLeadingZeros :
    ((1#32) ≠ 0 ∧ 31 - clz32 1 < 1) ∧ ((0xFFFFFFFF#32) ≠ 0 ∧ 31 - clz32 0xFFFFFFFF < 32) := by decide

/-- The largest Value of a width, and the next one. -/
theorem witness_FitTestIsWidthTest :
    (10 ≤ 32 ∧ fits 1023 10 = true) ∧ (10 ≤ 32 ∧ fits 1024 10 = false) ∧ (32 ≤ 32 ∧ fits 0xFFFFFFFF 32 = true) ∧
      (0 ≤ 32 ∧ fits 0 0 = true ∧ fits 1 0 = false) := by decide

theorem witness_BitWidthLaws :
    (1023#32).toNat ≤ (1024#32).toNat ∧ 32 ≤ 32 ∧ 1#32 ≠ 0 ∧ ([5, 9, 2] : List Word) ≠ [] ∧ 1 ≤ 1 := by decide

theorem witness_MaxrAnswers : (32#8).toNat ≤ 32 ∧ 32 < (33#8).toNat := by decide

/-- A width of 10 with bits and padding, and a width of 32. -/
theorem witness_EncodeAllPlacesFields :
    (10 ≤ 32 ∧ (∀ v ∈ ([1, 2, 1023] : List Word), fits v 10 = true) ∧ 2 < 3 ∧ 9 < 10 ∧ 3 * 10 ≤ 30) ∧
    (32 ≤ 32 ∧ ∀ v ∈ ([0xFFFFFFFF] : List Word), fits v 32 = true) :=
  ⟨⟨by decide, List.all_eq_true.mp (by decide), by decide⟩, by decide, List.all_eq_true.mp (by decide)⟩

/-- `E_WIDTH` at 33, `E_LIMIT` at 257, `E_RANGE` at `2^w`, and an encoding of 256 Values. -/
theorem witness_EncAnswers :
    32 < (33#8).toNat ∧
    ((32#8).toNat ≤ 32 ∧ 256 < (List.replicate 257 0#32).length) ∧
    ((10#8).toNat ≤ 32 ∧ [1024#32].length ≤ 256 ∧ ∃ v ∈ [1024#32], 2 ^ (10#8).toNat ≤ v.toNat) ∧
    ((10#8).toNat ≤ 32 ∧ (List.replicate 256 1023#32).length ≤ 256 ∧
      ∀ v ∈ List.replicate 256 1023#32, v.toNat < 2 ^ (10#8).toNat) :=
  ⟨by decide, ⟨by decide, by rw [List.length_replicate]; decide⟩,
    ⟨by decide, by decide, 1024#32, List.mem_singleton_self _, by decide⟩,
    ⟨by decide, by rw [List.length_replicate], fun v hv => by rw [List.eq_of_mem_replicate hv]; decide⟩⟩

/-- The last field that lies inside, and a width of 0. -/
theorem witness_DecodeOneIsStreamField :
    (10 ≤ 32 ∧ (3 + 1) * 10 ≤ 8 * five.length ∧ 9 < 10) ∧ (0 ≤ 32 ∧ (7 + 1) * 0 ≤ 8 * ([] : List Byte).length) := by decide

/-- `E_WIDTH` at 33, `E_LIMIT` at 1025 bytes, `E_BOUNDS` one field past the end, the last field. -/
theorem witness_Dec1Answers :
    32 < (33#8).toNat ∧
    ((32#8).toNat ≤ 32 ∧ 1024 < (List.replicate 1025 0#8).length) ∧
    ((10#8).toNat ≤ 32 ∧ five.length ≤ 1024 ∧ 8 * five.length < ((4#32).toNat + 1) * (10#8).toNat) ∧
    ((10#8).toNat ≤ 32 ∧ five.length ≤ 1024 ∧ ((3#32).toNat + 1) * (10#8).toNat ≤ 8 * five.length) := by decide +kernel

/-- `E_WIDTH` at 33, `E_LIMIT` at 257 Values and at 1025 bytes, `E_BOUNDS` one field past the end, every field. -/
theorem witness_DecaAnswers :
    32 < (33#8).toNat ∧
    ((32#8).toNat ≤ 32 ∧ 256 < (257#32).toNat) ∧
    ((32#8).toNat ≤ 32 ∧ 1024 < (List.replicate 1025 0#8).length) ∧
    ((10#8).toNat ≤ 32 ∧ (5#32).toNat ≤ 256 ∧ five.length ≤ 1024 ∧ 8 * five.length < (5#32).toNat * (10#8).toNat) ∧
    ((10#8).toNat ≤ 32 ∧ (4#32).toNat ≤ 256 ∧ five.length ≤ 1024 ∧ (4#32).toNat * (10#8).toNat ≤ 8 * five.length) := by
  decide +kernel

/-- The last field, with the largest Value; and a width of 0. -/
theorem witness_WriteOneReplacesOneField :
    (10 ≤ 32 ∧ (3 + 1) * 10 ≤ 8 * five.length ∧ fits 1023 10 = true ∧ 2 ≠ 3) ∧
    (0 ≤ 32 ∧ (9 + 1) * 0 ≤ 8 * five.length ∧ fits 0 0 = true) := by decide

/-- `E_WIDTH`, `E_LIMIT`, `E_BOUNDS`, `E_RANGE` and a write, each at the first value of its range. -/
theorem witness_Wr1Answers :
    32 < (33#8).toNat ∧
    ((32#8).toNat ≤ 32 ∧ 1024 < (List.replicate 1025 0#8).length) ∧
    ((10#8).toNat ≤ 32 ∧ five.length ≤ 1024 ∧ 8 * five.length < ((4#32).toNat + 1) * (10#8).toNat) ∧
    ((10#8).toNat ≤ 32 ∧ five.length ≤ 1024 ∧ ((3#32).toNat + 1) * (10#8).toNat ≤ 8 * five.length ∧
      2 ^ (10#8).toNat ≤ (1024#32).toNat) ∧
    ((10#8).toNat ≤ 32 ∧ five.length ≤ 1024 ∧ ((3#32).toNat + 1) * (10#8).toNat ≤ 8 * five.length ∧
      (1023#32).toNat < 2 ^ (10#8).toNat) := by decide +kernel

/-- `E_WIDTH` at either width, `E_LIMIT` at either bound, `E_BOUNDS`, `E_RANGE` and a repack. -/
theorem witness_RpkAnswers :
    32 < (33#8).toNat ∧
    ((32#8).toNat ≤ 32 ∧ (32#8).toNat ≤ 32 ∧ 256 < (257#32).toNat) ∧
    ((32#8).toNat ≤ 32 ∧ (32#8).toNat ≤ 32 ∧ 1024 < (List.replicate 1025 0#8).length) ∧
    ((12#8).toNat ≤ 32 ∧ (10#8).toNat ≤ 32 ∧ (5#32).toNat ≤ 256 ∧ five.length ≤ 1024 ∧
      8 * five.length < (5#32).toNat * (10#8).toNat) ∧
    ((2#8).toNat ≤ 32 ∧ (10#8).toNat ≤ 32 ∧ (4#32).toNat ≤ 256 ∧ five.length ≤ 1024 ∧
      (4#32).toNat * (10#8).toNat ≤ 8 * five.length ∧
      ∃ k, k < (4#32).toNat ∧ 2 ^ (2#8).toNat ≤ (decodeOne five k (10#8).toNat).toNat) ∧
    ((2#8).toNat ≤ 32 ∧ (10#8).toNat ≤ 32 ∧ (3#32).toNat ≤ 256 ∧ five.length ≤ 1024 ∧
      (3#32).toNat * (10#8).toNat ≤ 8 * five.length ∧
      ∀ k, k < (3#32).toNat → (decodeOne five k (10#8).toNat).toNat < 2 ^ (2#8).toNat) := by decide +kernel

theorem witness_CodecLaws :
    (10 ≤ 32 ∧ ∀ v ∈ ([1, 2, 3, 1000] : List Word), fits v 10 = true) ∧
    (10 ≤ 32 ∧ 4 * 10 ≤ 8 * five.length) ∧
    (10 ≤ 32 ∧ 2 ≤ 32 ∧ 3 * 10 ≤ 8 * five.length ∧ ∀ v ∈ decodeAll five 3 10, fits v 2 = true) ∧
    (10 ≤ 32 ∧ (∀ u ∈ ([1, 2, 3] : List Word), fits u 10 = true) ∧ fits 1000 10 = true) ∧ 32 ≤ 32 :=
  ⟨⟨by decide, List.all_eq_true.mp (by decide)⟩, by decide,
    ⟨by decide, by decide, by decide, List.all_eq_true.mp (by decide)⟩,
    ⟨by decide, List.all_eq_true.mp (by decide), by decide⟩, by decide⟩

/-- An owning cursor; the last element and one past it; the first element of the second block. -/
theorem witness_GetAnswersElement :
    (Machine.Inv owned ∧ ownedByCursor owned) ∧
    (Machine.Inv store4 ∧ ¬ ownedByCursor store4 ∧ store4.len.toNat ≤ (4#32).toNat) ∧
    (Machine.Inv store4 ∧ ¬ ownedByCursor store4 ∧ (3#32).toNat < store4.len.toNat) ∧
    (Machine.Inv twoBlocks ∧ ¬ ownedByCursor twoBlocks ∧ (256#32).toNat < twoBlocks.len.toNat) ∧
    (Machine.Inv atLast ∧ ¬ ownedByCursor atLast ∧ (0#32).toNat < atLast.len.toNat) :=
  ⟨⟨inv_owned, by decide⟩, ⟨inv_store4, by decide⟩, ⟨inv_store4, by decide⟩, ⟨inv_twoBlocks, by decide⟩,
    ⟨inv_atLast, by decide⟩⟩

theorem witness_LenAnswers : ownedByCursor owned ∧ ¬ ownedByCursor store4 ∧ ¬ ownedByCursor atStart := by decide

theorem witness_IsempAnswers :
    ownedByCursor owned ∧ (¬ ownedByCursor empty ∧ empty.len = 0) ∧ (¬ ownedByCursor store4 ∧ store4.len ≠ 0) := by decide

theorem witness_BytelenAnswers :
    (Machine.Inv owned ∧ ownedByCursor owned) ∧ (Machine.Inv twoBlocks ∧ ¬ ownedByCursor twoBlocks) ∧
      (Machine.Inv empty ∧ ¬ ownedByCursor empty) :=
  ⟨⟨inv_owned, by decide⟩, ⟨inv_twoBlocks, by decide⟩, ⟨inv_empty, by decide⟩⟩

/-- An owning cursor, the first block number that is not live, the last that is. -/
theorem witness_BinfoAnswers :
    ownedByCursor owned ∧ (¬ ownedByCursor twoBlocks ∧ twoBlocks.nblk.toNat ≤ (2#32).toNat) ∧
      (¬ ownedByCursor twoBlocks ∧ (1#32).toNat < twoBlocks.nblk.toNat) := by decide

theorem witness_OwningCursorRefusesReads :
    ((Instr.get 999).op = .get ∧ ownedByCursor owned) ∧ (Instr.exportImage.op = .exportImage ∧ ¬ ownedByCursor atStart) := by
  decide

theorem witness_FootprintBound : Machine.Inv twoBlocks ∧ Machine.Inv empty := ⟨inv_twoBlocks, inv_empty⟩

theorem witness_OpenCursorRefusesMutation :
    ((Instr.push 1).op = .push ∧ owned.cOpen = true ∧ owned.cOwn = true) ∧
    ((Instr.importImage []).op = .importImage ∧ atStart.cOpen = true ∧ atStart.cOwn = false) := by decide

theorem witness_NewAnswers :
    (owned.cOpen = true ∧ owned.cOwn = true) ∧ (atStart.cOpen = true ∧ atStart.cOwn = false) ∧ store4.cOpen = false := by
  decide

/-- No slot left; a push that widens the last block; one that opens a block after a full one; one on the empty store. -/
theorem witness_PushAnswers :
    (Machine.Inv owned ∧ owned.cOpen = true ∧ owned.cOwn = true) ∧
    (Machine.Inv atLast ∧ atLast.cOpen = true ∧ atLast.cOwn = false) ∧
    (Machine.Inv fullStore ∧ fullStore.cOpen = false ∧ pushOpensBlock fullStore ∧
      fullStore.nblk.toNat = fullStore.nbMax) ∧
    (Machine.Inv store3 ∧ store3.cOpen = false ∧ ¬ (pushOpensBlock store3 ∧ store3.nblk.toNat = store3.nbMax) ∧
      ¬ pushOpensBlock store3) ∧
    (Machine.Inv roomy ∧ roomy.cOpen = false ∧ ¬ (pushOpensBlock roomy ∧ roomy.nblk.toNat = roomy.nbMax) ∧
      pushOpensBlock roomy) ∧
    (Machine.Inv empty ∧ empty.cOpen = false ∧ ¬ (pushOpensBlock empty ∧ empty.nblk.toNat = empty.nbMax) ∧
      pushOpensBlock empty) :=
  ⟨⟨inv_owned, by decide⟩, ⟨inv_atLast, by decide⟩, ⟨inv_fullStore, by decide⟩,
    ⟨inv_store3, by decide⟩, ⟨inv_roomy, by decide⟩, ⟨inv_empty, by decide⟩⟩

theorem witness_PushAppendsToContents :
    Machine.Inv store3 ∧ store3.cOpen = false ∧ ¬ (pushOpensBlock store3 ∧ store3.nblk.toNat = store3.nbMax) :=
  ⟨inv_store3, by decide⟩

/-- The empty store; a block that keeps an element; a block that the pop removes. -/
theorem witness_PopAnswers :
    (Machine.Inv owned ∧ owned.cOpen = true ∧ owned.cOwn = true) ∧
    (Machine.Inv atLast ∧ atLast.cOpen = true ∧ atLast.cOwn = false) ∧
    (Machine.Inv empty ∧ empty.cOpen = false ∧ empty.len = 0) ∧
    (Machine.Inv store4 ∧ store4.cOpen = false ∧ store4.len ≠ 0) ∧
    (Machine.Inv twoBlocks ∧ twoBlocks.cOpen = false ∧ twoBlocks.len ≠ 0 ∧ occAt twoBlocks 1 = 1) :=
  ⟨⟨inv_owned, by decide⟩, ⟨inv_atLast, by decide⟩, ⟨inv_empty, by decide⟩, ⟨inv_store4, by decide⟩, ⟨inv_twoBlocks, by decide⟩⟩

/-- A push that opens a block, one that does not widen (77 in 10 bits), and one that widens (1000 in 2 bits). -/
theorem witness_PushThenPopRestores :
    (Machine.Inv empty ∧ empty.cOpen = false ∧ ¬ (pushOpensBlock empty ∧ empty.nblk.toNat = empty.nbMax) ∧
      pushOpensBlock empty) ∧
    (Machine.Inv store4 ∧ store4.cOpen = false ∧ ¬ (pushOpensBlock store4 ∧ store4.nblk.toNat = store4.nbMax) ∧
      bitsNeeded 77 ≤ widthAt store4 (store4.nblk.toNat - 1)) ∧
    (Machine.Inv store3 ∧ store3.cOpen = false ∧ ¬ (pushOpensBlock store3 ∧ store3.nblk.toNat = store3.nbMax)) :=
  ⟨⟨inv_empty, by decide⟩, ⟨inv_store4, by decide⟩, ⟨inv_store3, by decide⟩⟩

/-- 257 Values against one slot, 256 against one slot. -/
theorem witness_BuildAnswers :
    (Machine.Inv owned ∧ owned.cOpen = true ∧ owned.cOwn = true) ∧
    (Machine.Inv atLast ∧ atLast.cOpen = true ∧ atLast.cOwn = false) ∧
    (Machine.Inv empty ∧ empty.cOpen = false ∧ empty.nbMax * 256 < (List.replicate 257 1#32).length) ∧
    (Machine.Inv empty ∧ empty.cOpen = false ∧ (List.replicate 256 1#32).length ≤ empty.nbMax * 256) :=
  ⟨⟨inv_owned, by decide⟩, ⟨inv_atLast, by decide⟩, ⟨inv_empty, by decide +kernel⟩, ⟨inv_empty, by decide +kernel⟩⟩

theorem witness_BuildEqualsPushes :
    Machine.Inv store4 ∧ store4.cOpen = false ∧ ([1, 2, 3, 1000] : List Word).length ≤ store4.nbMax * 256 :=
  ⟨inv_store4, by decide⟩

/-- A block with minimal width, a push that widens it; and the empty store. -/
theorem witness_PushAndBuildKeepMinimalWidths :
    Machine.Inv store3 ∧ (0 < store3.nblk.toNat ∧ 3 ∈ vals store3 0) ∧ minimalWidths store3 ∧
      (∃ v, Instr.push 3 = .push v) ∧ empty.nblk = 0 :=
  ⟨inv_store3, by decide, by unfold minimalWidths; decide +kernel, ⟨3, rfl⟩, rfl⟩

theorem witness_CopenAnswers :
    (Machine.Inv atStart ∧ atStart.cOpen = true) ∧ (Machine.Inv store4 ∧ store4.cOpen = false ∧ store4.nblk ≠ 0) ∧
      (Machine.Inv empty ∧ empty.cOpen = false ∧ empty.nblk = 0) :=
  ⟨⟨inv_atStart, by decide⟩, ⟨inv_store4, by decide⟩, ⟨inv_empty, by decide⟩⟩

/-- No cursor; exhausted; the last Value of a block; the end of a block with another after it. -/
theorem witness_CnextAnswers :
    (Machine.Inv store4 ∧ store4.cOpen = false) ∧
    (Machine.Inv atEnd ∧ atEnd.cOpen = true ∧ atEnd.cPos = atEnd.cCnt ∧ atEnd.nblk.toNat ≤ atEnd.cBlk.toNat + 1) ∧
    (Machine.Inv atLast ∧ atLast.cOpen = true ∧ atLast.cPos.toNat < atLast.cCnt.toNat) ∧
    (Machine.Inv atBlockEnd ∧ atBlockEnd.cOpen = true ∧ atBlockEnd.cPos = atBlockEnd.cCnt ∧
      atBlockEnd.cBlk.toNat + 1 < atBlockEnd.nblk.toNat) :=
  ⟨⟨inv_store4, by decide⟩, ⟨inv_atEnd, by decide⟩, ⟨inv_atLast, by decide⟩, ⟨inv_atBlockEnd, by decide⟩⟩

theorem witness_CcloseAnswers :
    store4.cOpen = false ∧ (owned.cOpen = true ∧ owned.cOwn = true) ∧ (atLast.cOpen = true ∧ atLast.cOwn = false) := by decide

/-- The four states of the reader. -/
theorem witness_ReaderTransitions :
    (Machine.Inv store4 ∧ readerState store4 = .closed) ∧ (Machine.Inv empty ∧ readerState empty = .closed) ∧
    (Machine.Inv atStart ∧ readerState atStart = .serving) ∧ (Machine.Inv atBlockEnd ∧ readerState atBlockEnd = .blockEnd) ∧
    (Machine.Inv atEnd ∧ readerState atEnd = .exhausted) ∧ (Machine.Inv onEmpty ∧ readerState onEmpty = .exhausted) :=
  ⟨⟨inv_store4, by decide⟩, ⟨inv_empty, by decide⟩, ⟨inv_atStart, by decide⟩, ⟨inv_atBlockEnd, by decide⟩,
    ⟨inv_atEnd, by decide⟩, ⟨inv_onEmpty, by decide⟩⟩

theorem witness_StoreFixedWhileCursorOpen :
    atStart.cOpen = true ∧ exec (.get 3) atStart = .next (answered atStart [0x00002100, 1000]) ∧
      (answered atStart [0x00002100, 1000]).cOpen = true := ⟨rfl, rfl, rfl⟩

theorem witness_CursorServesContents : Machine.Inv twoBlocks ∧ twoBlocks.cOpen = false := ⟨inv_twoBlocks, by decide⟩

theorem witness_ExportAnswers :
    (Machine.Inv owned ∧ ownedByCursor owned) ∧ (Machine.Inv atLast ∧ ¬ ownedByCursor atLast) ∧
      (Machine.Inv twoBlocks ∧ ¬ ownedByCursor twoBlocks) :=
  ⟨⟨inv_owned, by decide⟩, ⟨inv_atLast, by decide⟩, ⟨inv_twoBlocks, by decide⟩⟩

/-- A well-shaped list of two records, the first full. -/
theorem witness_ImportAcceptsExactlyImages : wellShaped [⟨0, 256, []⟩, ⟨3, 2, [0xFF]⟩] := by
  simp [wellShaped, bytesFor]

/-- A truncated image; two records against one slot; one record against one slot; the empty image. -/
theorem witness_ImportAnswers :
    (Machine.Inv owned ∧ owned.cOpen = true ∧ owned.cOwn = true) ∧
    (Machine.Inv atLast ∧ atLast.cOpen = true ∧ atLast.cOwn = false) ∧
    (Machine.Inv store3 ∧ store3.cOpen = false ∧ parseImage [0x0A, 0x04, 0x00, 0x01] = none) ∧
    (Machine.Inv fullStore ∧ fullStore.cOpen = false ∧
      parseImage [0x00, 0x00, 0x01, 0x00, 0x01, 0x00] = some [⟨0, 256, []⟩, ⟨0, 1, []⟩] ∧
      fullStore.nbMax < [(⟨0, 256, []⟩ : Block), ⟨0, 1, []⟩].length) ∧
    (Machine.Inv fullStore ∧ fullStore.cOpen = false ∧ parseImage [0x00, 0x01, 0x00] = some [⟨0, 1, []⟩] ∧
      [(⟨0, 1, []⟩ : Block)].length ≤ fullStore.nbMax) ∧
    (Machine.Inv fullStore ∧ fullStore.cOpen = false ∧ parseImage [] = some [] ∧
      ([] : List Block).length ≤ fullStore.nbMax) :=
  ⟨⟨inv_owned, by decide⟩, ⟨inv_atLast, by decide⟩, ⟨inv_store3, by decide +kernel⟩,
    ⟨inv_fullStore, by decide +kernel⟩, ⟨inv_fullStore, by decide +kernel⟩,
    ⟨inv_fullStore, by decide⟩⟩

theorem witness_ExportThenImportRestores :
    Machine.Inv atLast ∧ Machine.Inv store3 ∧ store3.cOpen = false ∧ store3.nbMax = atLast.nbMax :=
  ⟨inv_atLast, inv_store3, by decide⟩

end Sys2Proof.Tests
end

namespace Sys2Proof.Machine

/-! ### What a command and a step can do (20_memory.md R60, 60_exceptions.md R282) -/

/-- The store is open to mutation exactly when no cursor is open (R200). -/
theorem mutationGate_eq_none {s : State} : mutationGate s = none ↔ s.cOpen = false := by
  unfold mutationGate
  cases s.cOpen <;> cases s.cOwn <;> simp

/-- What a command that changes more than the responses does to the state, and the conditions under which it gets there. -/
inductive Effect (s : State) : Instr → State → Prop where
  | new (hc : s.cOpen = false) : Effect s .new (emptyStore s)
  | push {v : Word} {s' : State} (hc : s.cOpen = false)
      (hroom : needsBlock s = true → s.nblk.toNat ≠ s.nbMax)
      (h : pushLast v (if needsBlock s then openBlock s else s) = .ok s') : Effect s (.push v) s'
  | pop {v : Word} {s' : State} (hc : s.cOpen = false) (hlen : s.len ≠ 0) (h : popLast s = .ok (s', v)) :
      Effect s .pop s'
  | build {vs : List Word} {s' : State} (hc : s.cOpen = false) (hle : vs.length ≤ s.nbMax * 256)
      (h : replaceStore (blocksOf vs) s = .ok s') : Effect s (.build vs) s'
  | importImage {d : List Byte} {blks : List Block} {s' : State} (hc : s.cOpen = false) (hd : parseImage d = some blks)
      (hle : blks.length ≤ s.nbMax) (h : replaceStore blks s = .ok s') : Effect s (.importImage d) s'
  | copen {own : Bool} {s' : State} (hc : s.cOpen = false) (h : openReader (setCursor true own s) = .ok s') :
      Effect s (.copen own) s'
  | cnextFill {s1 s' : State} {body : List Word} (hc : s.cOpen = true) (hlt : s.cBlk.toNat + 1 < s.nblk.toNat)
      (hf : fill (s.cBlk.toNat + 1) s = .ok s1) (h : serve s1 = .ok (s', body)) : Effect s .cnext s'
  | cnextServe {s' : State} {body : List Word} (hc : s.cOpen = true) (hne : s.cPos ≠ s.cCnt)
      (h : serve s = .ok (s', body)) : Effect s .cnext s'
  | cclose (hc : s.cOpen = true) :
      Effect s .cclose
        (setCache [] (setCounters 0 0 0 0 (setCursor false false (if s.cOwn then emptyStore s else s))))

/-- `t` is `s` with one response to command `i`, or the `OK` answer after the command's effect; a status other than `OK`
comes with no body (R282). -/
def AnswersOrActs (i : Instr) (s t : State) : Prop :=
  (∃ st body, t = respond i.op.code st body s ∧ (st ≠ .ok → body = [])) ∨
    ∃ s' body, t = respond i.op.code .ok body s' ∧ Effect s i s'

/-- Every next state of the outcome is one the command can answer. -/
def Behaves (i : Instr) (s : State) (r : Host.Outcome State Fault Refusal) : Prop :=
  ∀ t, r = .next t → AnswersOrActs i s t

namespace Behaves

variable {i : Instr} {s : State}

theorem raise {e : Status} : Behaves i s (raise i.op e s) := by
  rintro _ ⟨⟩; exact .inl ⟨e, [], rfl, fun _ => rfl⟩

theorem none : Behaves i s (answerNone i.op s) := by
  rintro _ ⟨⟩; exact .inl ⟨.none, [], rfl, fun _ => rfl⟩

theorem ok {body : List Word} : Behaves i s (answerOk i.op body s) := by
  rintro _ ⟨⟩; exact .inl ⟨.ok, body, rfl, fun h => absurd rfl h⟩

theorem act {body : List Word} {s' : State} (h : Effect s i s') : Behaves i s (answerOk i.op body s') := by
  rintro _ ⟨⟩; exact .inr ⟨s', body, rfl, h⟩

/-- A command that ends by reading the RAM and changes nothing. -/
theorem finishRead {α : Type} {r : Except Fault α} {body : α → List Word} :
    Behaves i s (finish i.op (do let a ← r; return (s, body a))) := by
  intro t ht
  obtain ⟨s', b, hr, rfl⟩ := finish_next.mp ht
  obtain ⟨a, -, e⟩ := bind_eq_ok.mp hr
  cases e
  exact .inl ⟨.ok, _, rfl, fun h => absurd rfl h⟩

/-- A command that ends with a fallible effect and its answer. -/
theorem finish {r : Except Fault (State × List Word)} (h : ∀ s' body, r = .ok (s', body) → Effect s i s') :
    Behaves i s (finish i.op r) := by
  intro t ht
  obtain ⟨s', body, hr, rfl⟩ := finish_next.mp ht
  exact .inr ⟨s', body, rfl, h s' body hr⟩

/-- A command that ends with a fallible effect and an answer without a body. -/
theorem finishState {r : Except Fault State} (h : ∀ s', r = .ok s' → Effect s i s') :
    Behaves i s (Machine.finish i.op (do let s' ← r; return (s', []))) := by
  refine finish fun s' body e => ?_
  obtain ⟨s1, hr, e⟩ := bind_eq_ok.mp e
  cases e
  exact h _ hr

theorem ite {c : Prop} [Decidable c] {x y : Host.Outcome State Fault Refusal} (hx : c → Behaves i s x)
    (hy : ¬ c → Behaves i s y) : Behaves i s (if c then x else y) := by
  split
  · exact hx ‹_›
  · exact hy ‹_›

/-- A check that fails answers its status. -/
theorem check {c : Prop} [Decidable c] {e : Status} {y : Host.Outcome State Fault Refusal} (hy : ¬ c → Behaves i s y) :
    Behaves i s (if c then Machine.raise i.op e s else y) := ite (fun _ => raise) hy

/-- A gate that refuses answers its status. -/
theorem gate {g : Option Status} {y : Host.Outcome State Fault Refusal} :
    (g = Option.none → Behaves i s y) →
      Behaves i s (match g with | some e => Machine.raise i.op e s | Option.none => y) := by
  intro hy
  cases g with
  | some e => exact raise
  | none => exact hy rfl

end Behaves

theorem execPop_behaves (s : State) : Behaves .pop s (execPop s) := by
  refine .gate fun hg => .ite (fun _ => .none) fun hlen => .finish fun s' body h => ?_
  obtain ⟨⟨s1, v⟩, h1, e⟩ := bind_eq_ok.mp h
  cases e
  exact .pop (mutationGate_eq_none.mp hg) hlen h1

theorem execImportImage_behaves (d : List Byte) (s : State) : Behaves (.importImage d) s (execImportImage d s) := by
  refine .gate fun hg => ?_
  split
  · exact .raise
  · next blks hd =>
    exact .check fun hle => .finishState fun s' h => .importImage (mutationGate_eq_none.mp hg) hd (Nat.le_of_not_lt hle) h

theorem execCnext_behaves (s : State) : Behaves .cnext s (execCnext s) := by
  refine .check fun hc => .ite (fun _ => .ite (fun hlt => .finish fun s' body h => ?_) fun _ => .none) fun hne =>
    .finish fun s' body h => .cnextServe (by simpa using hc) hne h
  obtain ⟨s1, hf, h1⟩ := bind_eq_ok.mp h
  exact .cnextFill (by simpa using hc) hlt hf h1

/-- What every command can do: answer and change nothing, or act and answer `OK`. -/
theorem exec_behaves (i : Instr) (s : State) : Behaves i s (exec i s) := by
  cases i with
  | bits v => exact .ok
  | maxr w => exact .check fun _ => .ok
  | enc w vs => exact .check fun _ => .check fun _ => .check fun _ => .ok
  | dec1 w j bs => exact .check fun _ => .check fun _ => .check fun _ => .ok
  | deca w n bs => exact .check fun _ => .check fun _ => .check fun _ => .ok
  | wr1 w j v bs => exact .check fun _ => .check fun _ => .check fun _ => .check fun _ => .ok
  | rpk oldW newW n bs => exact .check fun _ => .check fun _ => .check fun _ => .check fun _ => .ok
  | idx j => exact .ok
  | get j => exact .gate fun _ => .check fun _ => .finishRead
  | len => exact .gate fun _ => .ok
  | isemp => exact .gate fun _ => .ok
  | bytelen => exact .gate fun _ => .ok
  | binfo b => exact .gate fun _ => .check fun _ => .ok
  | new => exact .gate fun hg => .act (.new (mutationGate_eq_none.mp hg))
  | push v =>
    exact .gate fun hg => .check fun hfull => .finishState fun s' h =>
      .push (mutationGate_eq_none.mp hg) (by simpa using hfull) h
  | pop => exact execPop_behaves s
  | build vs =>
    exact .gate fun hg => .check fun hle => .finishState fun s' h =>
      .build (mutationGate_eq_none.mp hg) (Nat.le_of_not_lt hle) h
  | copen own => exact .check fun hc => .finishState fun s' h => .copen (by simpa using hc) h
  | cnext => exact execCnext_behaves s
  | cclose => exact .check fun hc => .act (.cclose (by simpa using hc))
  | cstat => exact .ok
  | exportImage => exact .gate fun _ => .finishRead
  | importImage d => exact execImportImage_behaves d s

/-- Everything a command that answers can do. -/
theorem exec_cases {i : Instr} {s t : State} (h : exec i s = .next t) : AnswersOrActs i s t := exec_behaves i s t h

/-- Everything a step that answers can do: nothing, or take the oldest event and reset, execute or reject. -/
theorem step_cases {s t : State} (h : step s = .next t) :
    t = s ∨ ∃ rest, (t = applyReset { s with inQ := rest }) ∨ (∃ i, exec i { s with inQ := rest } = .next t) ∨
      ∃ ope st, t = respond ope st [] { s with inQ := rest } := by
  unfold step takeEvent at h
  cases hq : s.inQ with
  | nil =>
    simp only [hq] at h
    cases h; exact .inl rfl
  | cons e rest =>
    refine .inr ⟨rest, ?_⟩
    simp only [hq] at h
    cases e with
    | reset => cases h; exact .inl rfl
    | resetDuring p => cases h; exact .inl rfl
    | packet p =>
      cases hd : decode p with
      | ok i =>
        simp only [hd] at h
        exact .inr (.inl ⟨i, h⟩)
      | error e =>
        simp only [hd] at h
        cases h; exact .inr (.inr ⟨_, _, rfl⟩)

/-- No effect of a command touches the build's bound, the events or the responses. -/
theorem Effect.samePort {s s' : State} {i : Instr} (h : Effect s i s') : SamePort s s' := by
  cases h with
  | new => exact ⟨rfl, rfl, rfl⟩
  | push hc hroom h =>
    refine SamePort.trans ?_ (pushLast_samePort h)
    split
    · exact ⟨rfl, rfl, rfl⟩
    · exact .refl s
  | pop hc hlen h => exact popLast_samePort h
  | build hc hle h => exact replaceStore_samePort h
  | importImage hc hd hle h => exact replaceStore_samePort h
  | copen hc h => exact SamePort.trans (t := setCursor true _ s) ⟨rfl, rfl, rfl⟩ (openReader_onlyReader h).samePort
  | cnextFill hc hlt hf h => exact ((fill_onlyReader hf).trans (serve_onlyReader h)).samePort
  | cnextServe hc hne h => exact (serve_onlyReader h).samePort
  | cclose => split <;> exact ⟨rfl, rfl, rfl⟩

theorem exec_nbMax {i : Instr} {s t : State} (h : exec i s = .next t) : t.nbMax = s.nbMax := by
  rcases exec_cases h with ⟨st, body, rfl, -⟩ | ⟨s', body, rfl, ha⟩
  · rfl
  · exact ha.samePort.nbMax

/-- Settles O15: no event, no command and no effect of one writes `NB_MAX`. -/
theorem stepKeepsBuildBound : Obligations.StepKeepsBuildBound := by
  intro s t h
  rcases step_cases h with rfl | ⟨rest, rfl | ⟨i, hi⟩ | ⟨ope, st, rfl⟩⟩
  · rfl
  · rfl
  · exact (exec_nbMax hi).trans rfl
  · rfl

end Sys2Proof.Machine

namespace Sys2Proof.Machine

/-! ### Invariants of states that agree -/

/-- States with the same store hold the same bytes in every buffer. -/
theorem SameStore.buf {s t : State} (h : SameStore s t) (b : Nat) : buf t b = Machine.buf s b := by
  have hr : ∀ a n, ramBytes t a n = ramBytes s a n := fun _ _ => ramBytes_congr fun _ _ => h.ram _
  simp only [Machine.buf, blen, h.width, h.occ, hr]

theorem SameStore.vals {s t : State} (h : SameStore s t) (b : Nat) : vals t b = Machine.vals s b :=
  vals_congr (h.buf b) (h.width b) (h.occ b)

theorem DataInv.congr {s t : State} (h : DataInv s) (hn : t.nbMax = s.nbMax) (hr : t.ram = s.ram)
    (hw : t.width = s.width) (ho : t.occ = s.occ) : DataInv t where
  nbMax_pos := hn ▸ h.nbMax_pos
  nbMax_le := hn ▸ h.nbMax_le
  ram_wf := hr ▸ h.ram_wf
  ram_inside := by rw [hr, hn]; exact h.ram_inside
  width_wf := hw ▸ h.width_wf
  width_inside := by rw [hw, hn]; exact h.width_inside
  occ_wf := ho ▸ h.occ_wf
  occ_inside := by rw [ho, hn]; exact h.occ_inside

theorem StoreInv.congr {s t : State} (h : StoreInv s) (k : SameStore s t) (hn : t.nbMax = s.nbMax) : StoreInv t where
  nblk_le := by rw [k.nblk, hn]; exact h.nblk_le
  occ_range := by simpa only [k.nblk, k.occ] using h.occ_range
  width_le := by simpa only [k.nblk, k.width] using h.width_le
  full := by simpa only [k.nblk, k.occ] using h.full
  len_sum := by rw [k.len, k.nblk, occUpTo_congr fun b _ => k.occ b]; exact h.len_sum
  canonical := by simpa only [k.nblk, k.width, k.buf, k.vals] using h.canonical

theorem CursorInv.congr {s t : State} (h : CursorInv s) (k : SameStore s t) (c : SameCursor s t) : CursorInv t := by
  obtain ⟨hOpen, hOwn, hBlk, hCnt, hPos, hBitoff, hCache⟩ := c
  constructor <;> simp only [hOpen, hOwn, hBlk, hCnt, hPos, hBitoff, hCache, k.nblk, k.width, k.occ, k.vals]
  · exact h.closed
  · exact h.openEmpty
  · exact h.openLive

/-- With no cursor open, the cursor's registers are in order whatever becomes of the store. -/
theorem CursorInv.of_closed {s t : State} (h : CursorInv s) (hc : s.cOpen = false) (c : SameCursor s t) :
    CursorInv t where
  closed _ := by rw [c.cOwn, c.cBlk, c.cCnt, c.cPos, c.cBitoff]; exact h.closed hc
  openEmpty ho := by simp [c.cOpen, hc] at ho
  openLive ho := by simp [c.cOpen, hc] at ho

theorem cursorInv_of_zero {t : State} (hc : t.cOpen = false) (ho : t.cOwn = false) (hBlk : t.cBlk = 0) (hCnt : t.cCnt = 0)
    (hPos : t.cPos = 0) (hBitoff : t.cBitoff = 0) : CursorInv t where
  closed _ := ⟨ho, hBlk, hCnt, hPos, hBitoff⟩
  openEmpty h := by simp [hc] at h
  openLive h := by simp [hc] at h

/-- The invariants speak of neither the events nor the responses. -/
theorem Inv.congr_port {s t : State} (h : Inv s) (ht : t = { s with inQ := t.inQ, outQ := t.outQ }) : Inv t := by
  have k : SameStore s t := by rw [ht]; exact ⟨rfl, rfl, fun _ => rfl, fun _ => rfl, fun _ => rfl⟩
  have c : SameCursor s t := by rw [ht]; exact ⟨rfl, rfl, rfl, rfl, rfl, rfl, rfl⟩
  have hn : t.nbMax = s.nbMax := by rw [ht]
  exact ⟨h.data.congr hn (by rw [ht]) (by rw [ht]) (by rw [ht]), h.store.congr k hn, h.cursor.congr k c⟩

theorem Inv.respond {s : State} (h : Inv s) (ope : Byte) (st : Status) (body : List Word) :
    Inv (respond ope st body s) := h.congr_port rfl

theorem Inv.withInQ {s : State} (h : Inv s) (q : List HostEvent) : Inv { s with inQ := q } := h.congr_port rfl

/-! ### The empty store -/

theorem storeInv_of_empty {s : State} (hn : s.nblk = 0) (hl : s.len = 0) : StoreInv s := by
  have hz : s.nblk.toNat = 0 := by rw [hn]; rfl
  refine storeInv_of_holds (by omega) (fun b hb => ?_) (fun b hb => ?_) ?_
  · omega
  · omega
  · rw [hz, hl]; rfl

/-- A reset gives a state with the invariants wherever the build's bound is one (R311, R312). -/
theorem applyReset_inv {s : State} (h : DataInv s) : Inv (applyReset s) where
  data := ⟨h.nbMax_pos, h.nbMax_le, rfl, by simp, rfl, by simp, rfl, by simp⟩
  store := storeInv_of_empty rfl rfl
  cursor := cursorInv_of_zero rfl rfl rfl rfl rfl rfl

theorem emptyStore_dataInv {s : State} (h : DataInv s) : DataInv (emptyStore s) := h.congr rfl rfl rfl rfl

theorem emptyStore_storeInv (s : State) : StoreInv (emptyStore s) := storeInv_of_empty rfl rfl

theorem emptyStore_sameCursor (s : State) : SameCursor s (emptyStore s) := ⟨rfl, rfl, rfl, rfl, rfl, rfl, rfl⟩

/-! ### Full blocks below the last one -/

/-- Every block below `n` is full (R33 (c)) and canonical. -/
def FullBelow (s : State) (n : Nat) : Prop := ∀ b, b < n → ∃ w vs, HoldsBlock s b w vs ∧ vs.length = 256

theorem FullBelow.occ {s : State} {n : Nat} (h : FullBelow s n) {b : Nat} (hb : b < n) : occAt s b = 256 := by
  obtain ⟨w, vs, hh, hl⟩ := h b hb
  rw [hh.occ, hl]

theorem StoreInv.fullBelow {s : State} (h : StoreInv s) {n : Nat} (hn : n ≤ s.nblk.toNat)
    (hocc : ∀ b, b < n → occAt s b = 256) : FullBelow s n := fun b hb =>
  ⟨_, _, h.holdsBlock (by omega), by rw [← (h.holdsBlock (by omega)).occ]; exact hocc b hb⟩

/-- A command on block `n` leaves the full blocks below it full. -/
theorem FullBelow.only {n : Nat} {s t : State} (h : FullBelow s n) (o : OnlyBlock n s t) : FullBelow t n := fun b hb => by
  obtain ⟨w, vs, hh, hl⟩ := h b hb
  exact ⟨w, vs, o.holds (by omega) hh, hl⟩

/-- A store of full blocks only. -/
theorem storeInv_of_fullBelow {t : State} (h : FullBelow t t.nblk.toNat) (hn : t.nblk.toNat ≤ t.nbMax)
    (hlen : t.len.toNat = t.nblk.toNat * 256) : StoreInv t := by
  refine storeInv_of_holds hn (fun b hb => ?_) (fun b hb => h.occ (by omega)) ?_
  · obtain ⟨w, vs, hh, hl⟩ := h b hb
    exact ⟨w, vs, hh, by rintro rfl; simp at hl⟩
  · rw [hlen, occUpTo_full fun b hb => h.occ hb]

/-- A store of full blocks and a last one that is not empty. -/
theorem storeInv_of_last {t : State} {n w : Nat} {vs : List Word} (h : FullBelow t n) (hh : HoldsBlock t n w vs)
    (hne : vs ≠ []) (hnb : t.nblk.toNat = n + 1) (hn : n < t.nbMax) (hlen : t.len.toNat = n * 256 + vs.length) :
    StoreInv t := by
  refine storeInv_of_holds (by omega) (fun b hb => ?_) (fun b hb => h.occ (by omega)) ?_
  · rcases Nat.lt_succ_iff_lt_or_eq.mp (hnb ▸ hb) with hb | rfl
    · obtain ⟨w, us, hu, hl⟩ := h b hb
      exact ⟨w, us, hu, by rintro rfl; simp at hl⟩
    · exact ⟨w, vs, hh, hne⟩
  · rw [hlen, hnb, occUpTo, occUpTo_full fun b hb => h.occ hb, hh.occ]

/-- A store with a block is full blocks and a last one that holds its Values. -/
theorem StoreInv.last_spec {s : State} (h : StoreInv s) (hpos : 0 < s.nblk.toNat) :
    s.nblk.toNat = lastBlock s + 1 ∧ FullBelow s (lastBlock s) ∧
      HoldsBlock s (lastBlock s) (widthAt s (lastBlock s)) (vals s (lastBlock s)) ∧
      s.len.toNat = lastBlock s * 256 + (vals s (lastBlock s)).length := by
  have hnb : s.nblk.toNat = lastBlock s + 1 := by unfold lastBlock; omega
  have hocc : ∀ b, b < lastBlock s → occAt s b = 256 := fun b hb => h.full b (by omega)
  have hh := h.holdsBlock (b := lastBlock s) (by omega)
  refine ⟨hnb, h.fullBelow (by omega) hocc, hh, ?_⟩
  rw [h.len_sum, hnb, occUpTo, occUpTo_full hocc, hh.occ]

/-! ### `PUSH` -/

/-- `s0` is `s` with a last block that has room, the blocks below it full: it holds `vs` at width `w`, and is the last
block of `s` or a fresh one (R202). -/
structure HasRoom (s s0 : State) (w : Nat) (vs : List Word) : Prop where
  only : OnlyBlock (lastBlock s0) s s0
  nblk : s0.nblk.toNat = lastBlock s0 + 1
  inside : lastBlock s0 < s.nbMax
  holds : HoldsBlock s0 (lastBlock s0) w vs
  room : vs.length < 256
  live : lastBlock s0 ≤ s.nblk.toNat
  below : FullBelow s (lastBlock s0)
  len : s0.len.toNat = lastBlock s0 * 256 + vs.length
  minimal : minimalWidths s → w = bitsNeeded (maxValue vs)

theorem openBlock_hasRoom {s : State} (hd : DataInv s) (hs : StoreInv s) (hn : needsBlock s = true)
    (hroom : s.nblk.toNat ≠ s.nbMax) : HasRoom s (openBlock s) 0 [] := by
  have hlt : s.nblk.toNat < s.nbMax := lt_of_le_of_ne hs.nblk_le hroom
  obtain ⟨ho, hnb, hlast, hlen, hh⟩ := openBlock_holds hlt hd.nbMax_le
  have hocc : ∀ b, b < s.nblk.toNat → occAt s b = 256 := by
    intro b hb
    rcases (needsBlock_iff s).mp hn with h0 | hfull
    · omega
    · rcases Nat.lt_or_ge (b + 1) s.nblk.toNat with h | h
      · exact hs.full b h
      · rwa [show s.nblk.toNat - 1 = b by omega] at hfull
  refine ⟨hlast ▸ ho, by rw [hlast, hnb], hlast ▸ hlt, hlast ▸ hh, by simp, hlast.le, ?_, ?_, fun _ => rfl⟩
  · rw [hlast]; exact hs.fullBelow le_rfl hocc
  · rw [hlen, hlast, hs.len_sum, occUpTo_full hocc, List.length_nil, Nat.add_zero]

theorem last_hasRoom {s : State} (hs : StoreInv s) (hn : needsBlock s ≠ true) :
    HasRoom s s (widthAt s (lastBlock s)) (vals s (lastBlock s)) := by
  rw [Ne, needsBlock_iff, pushOpensBlock, not_or] at hn
  obtain ⟨h0, hne⟩ := hn
  obtain ⟨hnb, hfull, hh, hlen⟩ := hs.last_spec (by omega)
  have hle := (hs.occ_range (lastBlock s) (by omega)).2
  have hroom : occAt s (lastBlock s) < 256 := lt_of_le_of_ne hle hne
  have hmax := hs.nblk_le
  exact ⟨.refl _ _, hnb, by omega, hh, hh.occ ▸ hroom, by omega, hfull, hlen, fun hm => hm _ (by omega)⟩

/-- A `PUSH` that is not refused finds room (R202). -/
theorem push_hasRoom {s : State} (hd : DataInv s) (hs : StoreInv s)
    (hroom : needsBlock s = true → s.nblk.toNat ≠ s.nbMax) :
    ∃ w vs, HasRoom s (if needsBlock s then openBlock s else s) w vs := by
  split
  · next hn => exact ⟨_, _, openBlock_hasRoom hd hs hn (hroom hn)⟩
  · next hn => exact ⟨_, _, last_hasRoom hs hn⟩

/-- Where a `PUSH` ends: only the block with room has changed, and it holds one more Value. -/
theorem HasRoom.push_holds {s s0 t : State} {w : Nat} {vs : List Word} {v : Word} (h : HasRoom s s0 w vs)
    (e : pushLast v s0 = .ok t) :
    OnlyBlock (lastBlock s0) s t ∧ t.nblk.toNat = lastBlock s0 + 1 ∧ t.len = BitVec.ofNat 32 (s0.len.toNat + 1) ∧
      HoldsBlock t (lastBlock s0) (max w (bitsNeeded v)) (vs ++ [v]) := by
  obtain ⟨t', e', ho, hnb, hlen, hh⟩ := pushLast_holds v (h.only.nbMax ▸ h.inside) h.holds h.room
  obtain rfl : t' = t := Except.ok.inj (e'.symm.trans e)
  exact ⟨h.only.trans ho, hnb ▸ h.nblk, hlen, hh⟩

theorem HasRoom.push_storeInv {s s0 t : State} {w : Nat} {vs : List Word} {v : Word} (hd : DataInv s)
    (h : HasRoom s s0 w vs) (e : pushLast v s0 = .ok t) : StoreInv t := by
  obtain ⟨ho, hnb, hlen, hh⟩ := h.push_holds e
  have hin := h.inside
  refine storeInv_of_last (h.below.only ho) hh (by simp) hnb (ho.nbMax ▸ hin) ?_
  have := hd.nbMax_le
  have := h.room
  rw [hlen, h.len, BitVec.toNat_ofNat, Nat.mod_eq_of_lt (by omega), List.length_append, List.length_singleton]
  omega

/-! ### `POP` -/

theorem StoreInv.nblk_pos_of_len {s : State} (h : StoreInv s) (hl : s.len ≠ 0) : 0 < s.nblk.toNat := by
  by_contra h0
  have hz := h.len_le
  exact hl (BitVec.eq_of_toNat_eq (by simp; omega))

/-- Where a `POP` ends: only the last block has changed, and the store is in shape, without that block when it has lost its
only Value (R204, R205). -/
theorem popLast_storeInv {s t : State} {v : Word} (hd : DataInv s) (hs : StoreInv s) (hl : s.len ≠ 0)
    (e : popLast s = .ok (t, v)) : OnlyBlock (lastBlock s) s t ∧ StoreInv t := by
  have hpos := hs.nblk_pos_of_len hl
  have hle := hs.nblk_le
  have hmax := hd.nbMax_le
  obtain ⟨hnb, hfull, hh, hsum⟩ := hs.last_spec hpos
  have hne : vals s (lastBlock s) ≠ [] :=
    List.ne_nil_of_length_pos (hh.occ ▸ (hs.occ_range (lastBlock s) (by omega)).1)
  obtain ⟨vs, u, hvs⟩ := (List.eq_nil_or_concat' _).resolve_left hne
  rw [hvs] at hh hsum
  obtain ⟨t', e', ho, hnblk, hlen, hh'⟩ := popLast_holds (by omega) (by omega) hh
  obtain rfl : t' = t := congrArg Prod.fst (Except.ok.inj (e'.symm.trans e))
  have hin : lastBlock s < t'.nbMax := by rw [ho.nbMax]; omega
  have hlen' : t'.len.toNat = lastBlock s * 256 + vs.length := by
    have := s.len.isLt
    rw [List.length_append, List.length_singleton] at hsum
    rw [hlen, BitVec.toNat_ofNat, Nat.mod_eq_of_lt (by omega)]
    omega
  refine ⟨ho, ?_⟩
  by_cases h0 : vs = []
  · have hn : t'.nblk.toNat = lastBlock s := by
      rw [hnblk, if_pos h0, BitVec.toNat_ofNat, Nat.mod_eq_of_lt (by omega)]; rfl
    subst h0
    exact storeInv_of_fullBelow (hn ▸ hfull.only ho) (by omega) (by rw [hlen', hn, List.length_nil, Nat.add_zero])
  · exact storeInv_of_last (hfull.only ho) hh' h0 (by rw [hnblk, if_neg h0, hnb]) hin hlen'

/-! ### `BUILD` and `IMPORT` -/

/-- Widths and Values that a store can have as its blocks: each can be one, none is empty, all but the last are full
(R33 (b), (c)). -/
def Stackable : List (Nat × List Word) → Prop
  | [] => True
  | p :: ps => (Packable p ∧ p.2 ≠ []) ∧ (ps ≠ [] → p.2.length = 256) ∧ Stackable ps

theorem Stackable.mem {ps : List (Nat × List Word)} (h : Stackable ps) : ∀ p ∈ ps, Packable p ∧ p.2 ≠ [] := by
  induction ps with
  | nil => simp
  | cons q ps ih =>
    obtain ⟨hq, -, hps⟩ := h
    exact List.forall_mem_cons.mpr ⟨hq, ih hps⟩

theorem Stackable.full {ps : List (Nat × List Word)} (h : Stackable ps) {j : Nat} (hj : j + 1 < ps.length) :
    (ps[j]).2.length = 256 := by
  induction ps generalizing j with
  | nil => simp at hj
  | cons q ps ih =>
    obtain ⟨-, hq, hps⟩ := h
    cases j with
    | zero => exact hq (by rintro rfl; simp at hj)
    | succ j => exact ih hps (by simpa using hj)

/-- The occupancies of the first blocks of a store that holds `ps` add up to the numbers of their Values. -/
theorem occUpTo_eq_sum {t : State} {ps : List (Nat × List Word)}
    (h : ∀ j (hj : j < ps.length), occAt t j = (ps[j]).2.length) :
    occUpTo t ps.length = (ps.map (fun p => p.2.length)).sum := by
  induction ps using List.reverseRecOn with
  | nil => rfl
  | append_singleton ps p ih =>
    have hlast := h ps.length (by simp)
    have hinit := ih fun j hj => by
      have := h j (by rw [List.length_append]; omega)
      rwa [List.getElem_append_left hj] at this
    rw [List.length_append, List.length_singleton, occUpTo, hinit, hlast]
    simp

theorem Stackable.sum_le {ps : List (Nat × List Word)} (h : Stackable ps) :
    (ps.map (fun p => p.2.length)).sum ≤ ps.length * 256 := by
  simpa using List.sum_le_card_nsmul (ps.map (fun p => p.2.length)) 256 fun n hn => by
    obtain ⟨p, hp, rfl⟩ := List.mem_map.mp hn
    exact (h.mem p hp).1.2.2

/-- Where a replaced store ends: the blocks are exactly `ps`, held in order, and the store is in shape (R206, R263). -/
theorem replaceStore_stackable {ps : List (Nat × List Word)} {s t : State} (hd : DataInv s) (hp : Stackable ps)
    (hle : ps.length ≤ s.nbMax) (e : replaceStore (ps.map packed) s = .ok t) :
    OnlyBlocks 0 ps.length s t ∧ t.nblk.toNat = ps.length ∧
      (∀ j (hj : j < ps.length), HoldsBlock t j (ps[j]).1 (ps[j]).2) ∧ StoreInv t := by
  obtain ⟨t', e', ho, hnb, hlen, hh⟩ := replaceStore_holds (fun p h => (hp.mem p h).1) hle
  obtain rfl : t' = t := Except.ok.inj (e'.symm.trans e)
  have hmax := hd.nbMax_le
  have hn : t'.nblk.toNat = ps.length := by rw [hnb, BitVec.toNat_ofNat, Nat.mod_eq_of_lt (by omega)]
  refine ⟨ho, hn, hh, storeInv_of_holds (by rw [hn, ho.nbMax]; exact hle) (fun b hb => ?_) (fun b hb => ?_) ?_⟩
  · exact ⟨_, _, hh b (hn ▸ hb), (hp.mem _ (List.getElem_mem _)).2⟩
  · rw [(hh b (by omega)).occ]; exact hp.full (by omega)
  · have := hp.sum_le
    rw [hn, occUpTo_eq_sum fun j hj => (hh j hj).occ, hlen, BitVec.toNat_ofNat, Nat.mod_eq_of_lt (by omega)]

/-- Values at the width their maximum needs (R206). -/
def minimalPair (vs : List Word) : Nat × List Word := (bitsNeeded (maxValue vs), vs)

theorem blocksOf_eq_packed (vs : List Word) :
    blocksOf vs = ((chunksOf ((vs.length + 255) / 256) vs).map minimalPair).map packed := by
  rw [blocksOf, List.map_map]
  exact List.map_congr_left fun c _ => blockOf_eq_packed c

@[simp] theorem chunksOf_length (n : Nat) (vs : List Word) : (chunksOf n vs).length = n := by
  induction n generalizing vs with
  | zero => rfl
  | succ n ih => simp [chunksOf, ih]

/-- The chunks of a sequence, at their own widths, can be the blocks of a store. -/
theorem chunksOf_stackable {n : Nat} {vs : List Word} (hlo : 256 * n ≤ vs.length + 255) (hhi : vs.length ≤ 256 * n) :
    Stackable ((chunksOf n vs).map minimalPair) := by
  induction n generalizing vs with
  | zero => trivial
  | succ n ih =>
    have hlen : (vs.take 256).length = min 256 vs.length := List.length_take
    have hdrop : (vs.drop 256).length = vs.length - 256 := List.length_drop
    refine ⟨⟨packable_blockOf (by omega), ?_⟩, fun hne => ?_, ih (vs := vs.drop 256) (by omega) (by omega)⟩
    · refine List.ne_nil_of_length_pos ?_
      simp only [minimalPair]; omega
    · have : n ≠ 0 := by rintro rfl; exact hne rfl
      simp only [minimalPair]; omega

theorem build_stackable (vs : List Word) : Stackable ((chunksOf ((vs.length + 255) / 256) vs).map minimalPair) :=
  chunksOf_stackable (by omega) (by omega)

/-- The records that `IMPORT` accepts after an occupancy `prev` are the packed form of blocks that a store can have, and
there is none of them behind a block that is not full (R263 (b) to (f)). -/
theorem parseRecords_stackable {fuel : Nat} {prev : Option Nat} {d : List Byte} {blks : List Block}
    (h : parseRecords fuel prev d = some blks) :
    ∃ ps, blks = ps.map packed ∧ Stackable ps ∧ (ps ≠ [] → prev.any (· < 256) = false) := by
  induction fuel generalizing prev d blks with
  | zero =>
    cases d with
    | nil => cases h; exact ⟨[], rfl, trivial, fun hne => absurd rfl hne⟩
    | cons x xs => cases h
  | succ fuel ih =>
    match d, h with
    | [], h => cases h; exact ⟨[], rfl, trivial, fun hne => absurd rfl hne⟩
    | [_], h => cases h
    | [_, _], h => cases h
    | w :: lo :: hi :: rest, h =>
      simp only [parseRecords, Option.ite_none_left_eq_some] at h
      obtain ⟨hw, hocc, hpos, hprev, -, h⟩ := h
      split at h
      · cases h
      · next blks' hrest =>
        cases h
        obtain ⟨ps, rfl, hps, hfull⟩ := ih hrest
        refine ⟨(_, decodeAll (rest.take _) _ _) :: ps, congrArg (· :: _) (canonicalBlock_eq_packed ⟨_, _, _⟩),
          ⟨⟨?_, ?_⟩, ?_, hps⟩, fun _ => by simpa using hprev⟩
        · exact packable_canonicalBlock (blk := ⟨_, _, _⟩) (Nat.le_of_not_lt hw) (Nat.le_of_not_lt hocc)
        · exact List.ne_nil_of_length_pos (by simp only [decodeAll_length]; omega)
        · intro hne
          have hprev' := hfull hne
          simp only [Option.any_some, decide_eq_false_iff_not] at hprev'
          simp only [decodeAll_length]
          omega

/-! ### The reader -/

/-- A cursor that is open on a store with blocks has its registers in order when they agree with a live block. -/
theorem cursorInv_of_live {t : State} (hc : t.cOpen = true) (hBlk : t.cBlk.toNat < t.nblk.toNat)
    (hCnt : t.cCnt.toNat = occAt t t.cBlk.toNat) (hPos : t.cPos.toNat ≤ t.cCnt.toNat)
    (hBitoff : t.cBitoff.toNat = t.cPos.toNat * widthAt t t.cBlk.toNat)
    (hCache : ∀ k (h : k < 256), k < t.cCnt.toNat → t.cache[k] = (vals t t.cBlk.toNat).getD k 0) : CursorInv t where
  closed h := by simp [hc] at h
  openEmpty _ h := by simp [h] at hBlk
  openLive _ _ := ⟨hBlk, hCnt, hPos, hBitoff, hCache⟩

/-- A fill of a live block puts a cursor at the block's start (R232). -/
theorem fill_cursorInv {s t : State} {b : Nat} (hs : StoreInv s) (hb : b < s.nblk.toNat) (hc : s.cOpen = true)
    (e : fill b s = .ok t) : CursorInv t ∧ t.cOpen = true ∧ t.cPos.toNat < t.cCnt.toNat := by
  have k := (fill_onlyReader e).sameStore
  have hh := hs.holdsBlock hb
  obtain ⟨hpos, hle⟩ := hs.occ_range b hb
  obtain rfl : setCounters b (vals s b).length 0 0 (setCache (vals s b) s) = t :=
    Except.ok.inj ((fill_holds hh).symm.trans e)
  have hBlk : (BitVec.ofNat 22 b).toNat = b := by
    have := s.nblk.isLt
    rw [BitVec.toNat_ofNat, Nat.mod_eq_of_lt (by omega)]
  have hCnt : (BitVec.ofNat 9 (vals s b).length).toNat = occAt s b := by
    rw [BitVec.toNat_ofNat, ← hh.occ, Nat.mod_eq_of_lt (by omega)]
  refine ⟨cursorInv_of_live hc ?_ ?_ ?_ ?_ ?_, hc, ?_⟩
  · rw [setCounters_cBlk, hBlk]; exact hb
  · rw [setCounters_cCnt, setCounters_cBlk, hBlk, hCnt, k.occ]
  · simp
  · simp
  · intro i hi hlt
    rw [setCounters_cCnt, hCnt, hh.occ] at hlt
    rw [setCounters_cBlk, hBlk, k.vals]
    exact cacheWith_get _ _ i hi hlt
  · rw [setCounters_cPos, setCounters_cCnt, hCnt]; exact hpos

/-- A cursor before the end of its block is on a store with blocks. -/
theorem CursorInv.nblk_ne_zero {s : State} (h : CursorInv s) (hc : s.cOpen = true) (hne : s.cPos ≠ s.cCnt) :
    s.nblk ≠ 0 := by
  intro h0
  obtain ⟨-, hCnt, hPos, -⟩ := h.openEmpty hc h0
  exact hne (hPos.trans hCnt.symm)

/-- Serving one Value moves a cursor that is before the end of its block on by one element (R234). -/
theorem serve_cursorInv {s t : State} {body : List Word} (hs : StoreInv s) (h : CursorInv s) (hc : s.cOpen = true)
    (hne : s.cPos ≠ s.cCnt) (e : serve s = .ok (t, body)) : CursorInv t := by
  have k := (serve_onlyReader e).sameStore
  obtain ⟨hBlk, hCnt, hPos, hBitoff, hCache⟩ := h.openLive hc (h.nblk_ne_zero hc hne)
  have hocc := (hs.occ_range _ hBlk).2
  have hlt : s.cPos.toNat < s.cCnt.toNat := lt_of_le_of_ne hPos fun he => hne (BitVec.eq_of_toNat_eq he)
  have hbits : (s.cPos.toNat + 1) * widthAt s s.cBlk.toNat ≤ 256 * 32 := Nat.mul_le_mul (by omega) (hs.width_le _ hBlk)
  obtain ⟨_, he⟩ := serve_ok.mp e
  obtain rfl := congrArg Prod.fst he
  refine cursorInv_of_live hc ?_ ?_ ?_ ?_ ?_
  · simpa using hBlk
  · simpa [k.occ] using hCnt
  · simp only [setCounters_cPos, setCounters_cCnt, BitVec.toNat_ofNat]
    omega
  · simp only [setCounters_cPos, setCounters_cBlk, setCounters_cBitoff, BitVec.toNat_ofNat, k.width,
      BitVec.ofNat_toNat, BitVec.setWidth_eq]
    rw [Nat.add_mul, Nat.one_mul] at hbits
    rw [Nat.mod_eq_of_lt (by omega), Nat.mod_eq_of_lt (by omega), hBitoff, Nat.add_mul, Nat.one_mul]
  · simpa [k.vals] using hCache

theorem OnlyReader.dataInv {s t : State} (h : OnlyReader s t) (hd : DataInv s) : DataInv t := by
  rw [h]; exact hd.congr rfl rfl rfl rfl

/-- What changes the reader only keeps the invariants when it leaves the cursor's registers in order. -/
theorem OnlyReader.inv {s t : State} (o : OnlyReader s t) (hd : DataInv s) (hs : StoreInv s) (c : CursorInv t) :
    Inv t :=
  ⟨o.dataInv hd, hs.congr o.sameStore o.samePort.nbMax, c⟩

theorem openReader_cursorInv {s t : State} {own : Bool} (hs : StoreInv s)
    (e : openReader (setCursor true own s) = .ok t) : CursorInv t := by
  rcases openReader_cases e with ⟨h0, rfl⟩ | ⟨hpos, e⟩
  · exact ⟨fun h => by simp at h, fun _ _ => ⟨rfl, rfl, rfl, rfl⟩, fun _ h => absurd (BitVec.eq_of_toNat_eq h0) h⟩
  · have hs' : StoreInv (setCursor true own s) := hs.congr ⟨rfl, rfl, fun _ => rfl, fun _ => rfl, fun _ => rfl⟩ rfl
    exact (fill_cursorInv hs' hpos rfl e).1

/-! ### Every step keeps the invariants -/

/-- The effect of every command keeps the invariants. -/
theorem Effect.inv {s s' : State} {i : Instr} (hi : Inv s) (h : Effect s i s') : Inv s' := by
  obtain ⟨hd, hs, hcur⟩ := hi
  cases h with
  | new hc => exact ⟨emptyStore_dataInv hd, emptyStore_storeInv s, hcur.of_closed hc (emptyStore_sameCursor s)⟩
  | push hc hroom h =>
    obtain ⟨w, vs, hr⟩ := push_hasRoom hd hs hroom
    have ho := (hr.push_holds h).1
    exact ⟨ho.data hd, hr.push_storeInv hd h, hcur.of_closed hc ho.sameCursor⟩
  | pop hc hlen h =>
    obtain ⟨ho, hst⟩ := popLast_storeInv hd hs hlen h
    exact ⟨ho.data hd, hst, hcur.of_closed hc ho.sameCursor⟩
  | @build vs _ hc hle h =>
    rw [blocksOf_eq_packed] at h
    obtain ⟨ho, -, -, hst⟩ :=
      replaceStore_stackable hd (build_stackable vs) (by rw [List.length_map, chunksOf_length]; omega) h
    exact ⟨ho.data hd, hst, hcur.of_closed hc ho.sameCursor⟩
  | importImage hc hparse hle h =>
    obtain ⟨ps, rfl, hps, -⟩ := parseRecords_stackable hparse
    obtain ⟨ho, -, -, hst⟩ := replaceStore_stackable hd hps (by simpa using hle) h
    exact ⟨ho.data hd, hst, hcur.of_closed hc ho.sameCursor⟩
  | copen hc h =>
    have o : OnlyReader s s' := OnlyReader.trans (t := setCursor true _ s) rfl (openReader_onlyReader h)
    exact o.inv hd hs (openReader_cursorInv hs h)
  | cnextFill hc hlt hf h =>
    obtain ⟨hcur1, hc1, hpos⟩ := fill_cursorInv hs hlt hc hf
    have hi1 := (fill_onlyReader hf).inv hd hs hcur1
    have hne := fun he => hpos.ne (congrArg BitVec.toNat he)
    exact (serve_onlyReader h).inv hi1.data hi1.store (serve_cursorInv hi1.store hcur1 hc1 hne h)
  | cnextServe hc hne h =>
    exact (serve_onlyReader h).inv hd hs (serve_cursorInv hs hcur hc hne h)
  | cclose hc =>
    refine OnlyReader.inv (s := if s.cOwn then emptyStore s else s) rfl ?_ ?_
      (cursorInv_of_zero rfl rfl rfl rfl rfl rfl)
    · split
      · exact emptyStore_dataInv hd
      · exact hd
    · split
      · exact emptyStore_storeInv s
      · exact hs

theorem exec_inv {i : Instr} {s t : State} (hi : Inv s) (h : exec i s = .next t) : Inv t := by
  rcases exec_cases h with ⟨st, body, rfl, -⟩ | ⟨s', body, rfl, ha⟩
  · exact hi.respond ..
  · exact (ha.inv hi).respond ..

/-- Settles O13: case by case what a step can do, with `exec_inv` where it executes a command. -/
theorem stepKeepsInvariants : Obligations.StepKeepsInvariants := by
  intro s t hi h
  rcases step_cases h with rfl | ⟨rest, rfl | ⟨i, h⟩ | ⟨ope, st, rfl⟩⟩
  · exact hi
  · exact applyReset_inv (hi.withInQ rest).data
  · exact exec_inv (hi.withInQ rest) h
  · exact (hi.withInQ rest).respond ..

/-! ### The reset state (R38) -/

/-- Settles O11, by evaluating the reset state. -/
theorem resetRegisters : Obligations.ResetRegisters := ⟨rfl, rfl, rfl, rfl, rfl, rfl, rfl, rfl⟩

/-! ### Minimal widths (R34) -/

/-- A width covers the maximum of a sequence exactly when it covers each of its Values. -/
theorem bitsNeeded_maxValue_le_iff {vs : List Word} {w : Nat} :
    bitsNeeded (maxValue vs) ≤ w ↔ ∀ v ∈ vs, bitsNeeded v ≤ w := by
  constructor
  · intro h v hv
    exact (bitsNeeded_le_of_lt (fit_maxValue v hv)).trans h
  · intro h
    by_cases hne : vs = []
    · subst hne; exact Nat.zero_le w
    · exact h _ (maxValue_mem hne)

/-- One more Value widens the minimal width to what it needs (R202). -/
theorem bitsNeeded_maxValue_concat (vs : List Word) (v : Word) :
    bitsNeeded (maxValue (vs ++ [v])) = max (bitsNeeded (maxValue vs)) (bitsNeeded v) :=
  eq_of_forall_ge_iff fun w => by
    simp only [max_le_iff, bitsNeeded_maxValue_le_iff, List.forall_mem_append, List.forall_mem_singleton]

theorem vals_bitsNeeded_le {s : State} (h : StoreInv s) {b : Nat} (hb : b < s.nblk.toNat) :
    ∀ v ∈ vals s b, bitsNeeded v ≤ widthAt s b := fun v hv =>
  bitsNeeded_le_of_lt ((h.holdsBlock hb).fit v hv)

theorem minimalWidths_of_empty {s : State} (h : s.nblk = 0) : minimalWidths s := by
  intro b hb
  simp [h] at hb

theorem minimalWidths_respond {s : State} (h : minimalWidths s) (ope : Byte) (st : Status) (body : List Word) :
    minimalWidths (respond ope st body s) := by
  intro b hb
  rw [vals_respond]
  exact h b hb

/-- A `PUSH` widens no block but the one it appends to, and that one no further than its Values need (R34 (c)). -/
theorem HasRoom.push_minimal {s s0 t : State} {w : Nat} {vs : List Word} {v : Word} (h : HasRoom s s0 w vs)
    (hm : minimalWidths s) (e : pushLast v s0 = .ok t) : minimalWidths t := by
  obtain ⟨ho, hnb, -, hh⟩ := h.push_holds e
  intro b hb
  rcases Nat.lt_succ_iff_lt_or_eq.mp (hnb ▸ hb) with hlt | rfl
  · rw [ho.width b (by omega), ho.vals (by omega)]
    exact hm b (lt_of_lt_of_le hlt h.live)
  · rw [hh.width, hh.vals, bitsNeeded_maxValue_concat, h.minimal hm]

/-- `BUILD` gives each block the width of its own maximum (R206). -/
theorem build_minimal {vs : List Word} {s t : State} (hd : DataInv s) (hle : vs.length ≤ s.nbMax * 256)
    (e : replaceStore (blocksOf vs) s = .ok t) : minimalWidths t := by
  rw [blocksOf_eq_packed] at e
  obtain ⟨-, hn, hh, -⟩ :=
    replaceStore_stackable hd (build_stackable vs) (by rw [List.length_map, chunksOf_length]; omega) e
  intro b hb
  have hb' := hh b (hn ▸ hb)
  rw [hb'.width, hb'.vals, List.getElem_map]
  rfl

/-- Settles O49: a block's Values fit the width they are decoded at, and once the answers that change nothing are set aside only
the effects of `NEW`, `PUSH` and `BUILD` remain. -/
theorem pushAndBuildKeepMinimalWidths : Obligations.PushAndBuildKeepMinimalWidths := by
  refine ⟨fun s hi b hb => ?_, fun s => minimalWidths_of_empty, fun i s t hi hm hcmd h => ?_⟩
  · have hfit := vals_bitsNeeded_le hi.store hb
    exact ⟨hfit, bitsNeeded_maxValue_le_iff.mpr hfit⟩
  · rcases exec_cases h with ⟨st, body, rfl, -⟩ | ⟨s', body, rfl, ha⟩
    · exact minimalWidths_respond hm _ _ _
    · refine minimalWidths_respond ?_ _ _ _
      rcases hcmd with rfl | ⟨v, rfl⟩ | ⟨vs, rfl⟩ <;> cases ha
      case inl.new => exact minimalWidths_of_empty rfl
      case inr.inl.push hc hroom e =>
        obtain ⟨w, vs, hr⟩ := push_hasRoom hi.data hi.store hroom
        exact hr.push_minimal hm e
      case inr.inr.build hc hle e => exact build_minimal hi.data hle e

end Sys2Proof.Machine

namespace Sys2Proof

/-! ### What the decoder accepts (30_encoding.md R84, R85, R88) -/

/-- The checks of R88 on a packet whose header has selected row `r`, and the command it then stands for. -/
theorem decodeRow_eq_ok {r : Row} {h : Word} {ws : List Word} {i : Instr} :
    decodeRow r h ws = .ok i ↔
      ws.length = r.fmt.fixedWords + r.fmt.payloadWords (countWord r.fmt ws) ∧
        (r.fmt.hasBytes = true → padZero (countWord r.fmt ws) (ws.drop r.fmt.fixedWords) = true) ∧
        assemble r.op h ws (countWord r.fmt ws) (ws.drop r.fmt.fixedWords) = i := by
  simp only [decodeRow]
  split
  next hshort => exact ⟨nofun, fun ⟨hlen, _⟩ => by omega⟩
  next =>
    split
    next hlen => exact ⟨nofun, fun ⟨hlen', _⟩ => absurd hlen' hlen⟩
    next hlen =>
      rw [ne_eq, not_not] at hlen
      split
      next hpad => exact ⟨nofun, fun ⟨_, hpad', _⟩ => by simp_all⟩
      next hpad => simp_all

/-- A packet that decodes has a header that selects a row, and passes that row's checks. -/
theorem decode_eq_ok {p : Packet} {i : Instr} :
    decode p = .ok i ↔ ∃ h ws r, p = h :: ws ∧ rowOf h = some r ∧ decodeRow r h ws = .ok i := by
  cases p with
  | nil => simp [decode]
  | cons h ws => cases hr : rowOf h <;> simp [decode, hr]

@[simp] theorem assemble_op (op : Op) (h : Word) (ws : List Word) (cnt : Nat) (payload : List Word) :
    (assemble op h ws cnt payload).op = op := by cases op <;> rfl

/-- No payload has more words than its count: a word holds at least one element. -/
theorem Format.payloadWords_le (fmt : Format) (cnt : Nat) : fmt.payloadWords cnt ≤ cnt := by
  cases fmt <;> simp only [Format.payloadWords] <;> omega

theorem countWord_lt (fmt : Format) (ws : List Word) : countWord fmt ws < 2 ^ 32 := BitVec.isLt _

/-- A command assembled with a count that fits a word is well-formed: its Values are no more than the count, and its bytes are
cut to the count. -/
theorem assemble_wellFormed (op : Op) (h : Word) (ws : List Word) {cnt : Nat} {payload : List Word} (hcnt : cnt < 2 ^ 32)
    (hpay : payload.length ≤ cnt) : (assemble op h ws cnt payload).WellFormed := by
  have hvals : valuesFit payload := hpay.trans_lt hcnt
  have hbytes : bytesFit ((unpackBytes payload).take cnt) := (List.length_take_le _ _).trans_lt hcnt
  cases op with
  | enc | build => exact hvals
  | dec1 | deca | wr1 | rpk | importImage => exact hbytes
  | _ => trivial

theorem decode_wellFormed {p : Packet} {i : Instr} (hd : decode p = .ok i) : i.WellFormed := by
  obtain ⟨h, ws, r, -, -, hrow⟩ := decode_eq_ok.mp hd
  obtain ⟨hlen, -, rfl⟩ := decodeRow_eq_ok.mp hrow
  have hpay : (ws.drop r.fmt.fixedWords).length ≤ countWord r.fmt ws := by
    rw [List.length_drop, hlen, Nat.add_sub_cancel_left]
    exact Format.payloadWords_le _ _
  exact assemble_wellFormed r.op h ws (countWord_lt _ _) hpay

/-- The header byte a response echoes is the opcode of the command the packet stands for (R87, R91). -/
theorem echoOf_of_decode {p : Packet} {i : Instr} (hd : decode p = .ok i) : Machine.echoOf p = i.op.code := by
  obtain ⟨h, ws, r, rfl, hr, hrow⟩ := decode_eq_ok.mp hd
  obtain ⟨-, hop, -⟩ := rowOf_eq_some.mp hr
  obtain ⟨-, -, rfl⟩ := decodeRow_eq_ok.mp hrow
  rw [assemble_op]
  exact hop

end Sys2Proof

namespace Sys2Proof.Machine

/-! ### A step on a packet, and its one response (20_memory.md R60, R61) -/

theorem step_of_decode_ok {s : State} {p : Packet} {rest : List HostEvent} {i : Instr} (hq : s.inQ = .packet p :: rest)
    (hd : decode p = .ok i) : step s = exec i { s with inQ := rest } := by
  simp only [step, takeEvent, hq, hd]

theorem step_of_decode_error {s : State} {p : Packet} {rest : List HostEvent} {e : DecodeFail}
    (hq : s.inQ = .packet p :: rest) (hd : decode p = .error e) :
    step s = .next (respond (echoOf p) (failStatus e) [] { s with inQ := rest }) := by
  simp only [step, takeEvent, hq, hd, rejectPacket]

/-- From `s` to `t` no event is taken and one response is appended, which echoes `ope` and has a body only when its status is
`OK` (R61, R91, R282). -/
def AddsOneResponse (ope : Byte) (s t : State) : Prop :=
  t.inQ = s.inQ ∧ ∃ st body, t.outQ = s.outQ ++ [rspHeader ope st :: body] ∧ (st ≠ .ok → body = [])

/-- Answering adds one response, whatever the command did first, as long as that left the ports alone. -/
theorem SamePort.addsOneResponse {s s' : State} (h : SamePort s s') (ope : Byte) {st : Status} {body : List Word}
    (hbody : st ≠ .ok → body = []) : AddsOneResponse ope s (respond ope st body s') :=
  ⟨h.inQ, st, body, by rw [respond_outQ, h.outQ], hbody⟩

theorem exec_addsOneResponse {i : Instr} {s t : State} (h : exec i s = .next t) : AddsOneResponse i.op.code s t := by
  rcases exec_cases h with ⟨st, body, rfl, hbody⟩ | ⟨s', body, rfl, hact⟩
  · exact (SamePort.refl s).addsOneResponse _ hbody
  · exact hact.samePort.addsOneResponse _ fun hne => absurd rfl hne

theorem step_packet_addsOneResponse {s t : State} {p : Packet} {rest : List HostEvent} (hq : s.inQ = .packet p :: rest)
    (h : step s = .next t) : AddsOneResponse (echoOf p) { s with inQ := rest } t := by
  cases hd : decode p with
  | ok i =>
    rw [echoOf_of_decode hd]
    exact exec_addsOneResponse ((step_of_decode_ok hq hd).symm.trans h)
  | error e =>
    cases (step_of_decode_error hq hd).symm.trans h
    exact (SamePort.refl _).addsOneResponse _ fun _ => rfl

/-- Settles O9: a rejected packet is answered at once, and a command answers after an effect that leaves the ports alone. -/
theorem eachPacketGetsOneResponse : Obligations.EachPacketGetsOneResponse := by
  intro s t p rest hq h
  exact step_packet_addsOneResponse hq h

/-- Settles O7: the decoder's checks bound the payload by its count word. -/
theorem stepRunsDecodedCommand : Obligations.StepRunsDecodedCommand := by
  intro s p rest i hq hd
  exact ⟨decode_wellFormed hd, step_of_decode_ok hq hd⟩

end Sys2Proof.Machine

namespace Sys2Proof

/-! ### Byte positions of a payload (30_encoding.md R84) -/

/-- Byte position `k` of payload words is byte `k mod 4` of word `k div 4`; past the last word both sides are 0. -/
theorem unpackBytes_getD (ws : List Word) (k : Nat) :
    (unpackBytes ws).getD k 0 = (ws.getD (k / 4) 0).extractLsb' (8 * (k % 4)) 8 := by
  induction ws generalizing k with
  | nil => simp [unpackBytes]
  | cons w ws ih =>
    match k with
    | 0 | 1 | 2 | 3 => rfl
    | k + 4 =>
      have hdiv : (k + 4) / 4 = k / 4 + 1 := by omega
      have hmod : (k + 4) % 4 = k % 4 := by omega
      rw [hdiv, hmod, List.getD_cons_succ, ← ih]
      rfl

/-- Settles O5: the words of a payload are its bytes and then zero pad bytes. -/
theorem bytePayloadLayout : Obligations.BytePayloadLayout := by
  intro bs
  refine ⟨packBytes_length bs, fun k _ => ?_⟩
  rw [← unpackBytes_getD, unpackBytes_packBytes]
  split
  next hlt => exact List.getD_append _ _ _ _ hlt
  next hge =>
    rw [List.getD_append_right _ _ _ _ (Nat.le_of_not_lt hge), List.getD_eq_getElem?_getD, List.getElem?_replicate]
    split <;> rfl

/-- Cutting the byte positions of a payload to its length gives its bytes back. -/
theorem take_unpackBytes_packBytes (bs : List Byte) : (unpackBytes (packBytes bs)).take bs.length = bs := by
  rw [unpackBytes_packBytes, List.take_left]

/-- The pad bytes of a packed payload pass the decoder's check. -/
theorem padZero_packBytes (bs : List Byte) : padZero bs.length (packBytes bs) = true := by
  rw [padZero, unpackBytes_packBytes, List.drop_left]
  simp

/-! ### Payloads and their count words (R83 to R85) -/

theorem lengthWord_toNat {n : Nat} (hn : n < 2 ^ 32) : (lengthWord n).toNat = n := by
  rw [lengthWord, BitVec.toNat_ofNat, Nat.mod_eq_of_lt hn]

theorem eq_toNat_iff_lengthWord {c : Word} {n : Nat} : n = c.toNat ↔ n < 2 ^ 32 ∧ lengthWord n = c := by
  constructor
  · rintro rfl
    exact ⟨c.isLt, by rw [lengthWord, BitVec.ofNat_toNat, BitVec.setWidth_eq]⟩
  · rintro ⟨hn, rfl⟩
    exact (lengthWord_toNat hn).symm

/-- A count word and payload words that pass the checks of a byte payload and read as `bs` are the length word and the packed
words of `bs`, and conversely. -/
theorem bytePayload_iff {c : Word} {payload : List Word} {bs : List Byte} :
    (payload.length = (c.toNat + 3) / 4 ∧ padZero c.toNat payload = true) ∧ (unpackBytes payload).take c.toNat = bs ↔
      bytesFit bs ∧ lengthWord bs.length = c ∧ packBytes bs = payload := by
  constructor
  · rintro ⟨⟨hlen, hpad⟩, rfl⟩
    have hcount : ((unpackBytes payload).take c.toNat).length = c.toNat := by
      rw [List.length_take, unpackBytes_length]
      omega
    obtain ⟨hfit, hc⟩ := eq_toNat_iff_lengthWord.mp hcount
    have hzero : ∀ x ∈ (unpackBytes payload).drop c.toNat, x = 0 := by simpa [padZero] using hpad
    exact ⟨hfit, hc, packBytes_unpackBytes hlen hzero⟩
  · rintro ⟨hfit, rfl, rfl⟩
    rw [lengthWord_toNat hfit]
    exact ⟨⟨packBytes_length bs, padZero_packBytes bs⟩, take_unpackBytes_packBytes bs⟩

/-! ### What a format accepts (R86, R88) -/

/-- The format of a mnemonic's row (R87); `fmt_of_mem_opTable` ties it to the opcode map. -/
def Op.fmt : Op → Format
  | .len | .isemp | .bytelen | .new | .pop | .cnext | .cclose | .cstat | .exportImage => .n
  | .maxr => .a
  | .copen => .f
  | .bits | .idx | .get | .binfo | .push => .x
  | .enc | .build => .v
  | .importImage => .b
  | .dec1 | .deca | .rpk => .xb
  | .wr1 => .xxb

theorem fmt_of_mem_opTable : ∀ r ∈ opTable, r.fmt = r.op.fmt := by decide

/-- The words after a header pass the length and padding checks of R88. -/
def Format.Accepts (fmt : Format) (ws : List Word) : Prop :=
  ws.length = fmt.fixedWords + fmt.payloadWords (countWord fmt ws) ∧
    (fmt.hasBytes = true → padZero (countWord fmt ws) (ws.drop fmt.fixedWords) = true)

/-- The byte payload that the words after a header carry, cut to its count. -/
def Format.bytesOf (fmt : Format) (ws : List Word) : List Byte :=
  (unpackBytes (ws.drop fmt.fixedWords)).take (countWord fmt ws)

theorem not_accepts_of_length_lt {fmt : Format} {ws : List Word} (hlt : ws.length < fmt.fixedWords) : ¬ fmt.Accepts ws :=
  fun ⟨hlen, _⟩ => by omega

theorem accepts_of_fixedWords_eq_zero {fmt : Format} (hf : fmt.fixedWords = 0) {ws : List Word} :
    fmt.Accepts ws ↔ [] = ws := by
  rw [eq_comm]
  cases fmt with
  | n | a | f => simp [Format.Accepts, Format.fixedWords, Format.payloadWords, Format.hasBytes]
  | x | v | b | xb | xxb => nomatch hf

theorem accepts_x {ws : List Word} {x : Word} : Format.x.Accepts ws ∧ ws.getD 0 0 = x ↔ [x] = ws := by
  match ws with
  | [] => exact ⟨fun ⟨ha, _⟩ => absurd ha (not_accepts_of_length_lt (Nat.lt_add_one _)), nofun⟩
  | w :: ws =>
    rw [eq_comm (a := [x])]
    simp [Format.Accepts, Format.fixedWords, Format.payloadWords, Format.hasBytes, and_comm]

theorem accepts_v {ws vs : List Word} :
    Format.v.Accepts ws ∧ ws.drop 1 = vs ↔ valuesFit vs ∧ lengthWord vs.length :: vs = ws := by
  match ws with
  | [] => exact ⟨fun ⟨ha, _⟩ => absurd ha (not_accepts_of_length_lt (Nat.lt_add_one _)), nofun⟩
  | c :: payload =>
    have hcheck : Format.v.Accepts (c :: payload) ↔ payload.length = c.toNat := by
      simp [Format.Accepts, Format.fixedWords, Format.payloadWords, Format.hasBytes, countWord, Nat.add_comm 1]
    rw [hcheck, eq_toNat_iff_lengthWord, List.cons.injEq]
    constructor
    · rintro ⟨⟨hfit, hc⟩, rfl⟩
      exact ⟨hfit, hc, rfl⟩
    · rintro ⟨hfit, hc, rfl⟩
      exact ⟨⟨hfit, hc⟩, rfl⟩

/-- A byte format accepts the operand words `xs`, a count word and a payload, and reads `bs` from them, exactly when the
last two are the length word and the packed words of `bs`. -/
theorem accepts_append_cons {fmt : Format} (hb : fmt.hasBytes = true) {xs payload : List Word} {c : Word} {bs : List Byte}
    (hx : xs.length + 1 = fmt.fixedWords) :
    fmt.Accepts (xs ++ c :: payload) ∧ fmt.bytesOf (xs ++ c :: payload) = bs ↔
      bytesFit bs ∧ lengthWord bs.length = c ∧ packBytes bs = payload := by
  have hcount : countWord fmt (xs ++ c :: payload) = c.toNat := by
    rw [countWord, ← hx, Nat.add_sub_cancel, List.getD_append_right _ _ _ _ le_rfl, Nat.sub_self, List.getD_cons_zero]
  have hdrop : (xs ++ c :: payload).drop fmt.fixedWords = payload := by
    rw [← hx, ← List.drop_drop, List.drop_left]
    rfl
  have hwords : fmt.payloadWords c.toNat = (c.toNat + 3) / 4 := by
    cases fmt with
    | b | xb | xxb => rfl
    | n | a | f | x | v => nomatch hb
  have hlen : (xs ++ c :: payload).length = fmt.fixedWords + payload.length := by
    rw [List.length_append, List.length_cons, ← hx]
    omega
  rw [← bytePayload_iff, Format.Accepts, Format.bytesOf, hcount, hdrop, hwords, hlen, Nat.add_left_cancel_iff]
  simp only [hb, forall_const]

theorem accepts_b {ws : List Word} {bs : List Byte} :
    Format.b.Accepts ws ∧ Format.b.bytesOf ws = bs ↔ bytesFit bs ∧ lengthWord bs.length :: packBytes bs = ws := by
  match ws with
  | [] => exact ⟨fun ⟨ha, _⟩ => absurd ha (not_accepts_of_length_lt (Nat.lt_add_one _)), nofun⟩
  | c :: payload =>
    rw [List.cons.injEq]
    exact accepts_append_cons (fmt := .b) (xs := []) rfl rfl

theorem accepts_xb {ws : List Word} {x : Word} {bs : List Byte} :
    Format.xb.Accepts ws ∧ ws.getD 0 0 = x ∧ Format.xb.bytesOf ws = bs ↔
      bytesFit bs ∧ x :: lengthWord bs.length :: packBytes bs = ws := by
  match ws with
  | [] | [_] => exact ⟨fun ⟨ha, _⟩ => absurd ha (not_accepts_of_length_lt (by simp [Format.fixedWords])), nofun⟩
  | x' :: c :: payload =>
    have key := accepts_append_cons (fmt := .xb) (xs := [x']) (c := c) (payload := payload) (bs := bs) rfl rfl
    rw [List.cons.injEq, List.cons.injEq, and_left_comm (a := bytesFit bs), ← key]
    exact ⟨fun ⟨ha, hx, hbs⟩ => ⟨hx.symm, ha, hbs⟩, fun ⟨hx, ha, hbs⟩ => ⟨ha, hx.symm, hbs⟩⟩

theorem accepts_xxb {ws : List Word} {x y : Word} {bs : List Byte} :
    Format.xxb.Accepts ws ∧ ws.getD 0 0 = x ∧ ws.getD 1 0 = y ∧ Format.xxb.bytesOf ws = bs ↔
      bytesFit bs ∧ x :: y :: lengthWord bs.length :: packBytes bs = ws := by
  match ws with
  | [] | [_] | [_, _] => exact ⟨fun ⟨ha, _⟩ => absurd ha (not_accepts_of_length_lt (by simp [Format.fixedWords])), nofun⟩
  | x' :: y' :: c :: payload =>
    have key := accepts_append_cons (fmt := .xxb) (xs := [x', y']) (c := c) (payload := payload) (bs := bs) rfl rfl
    rw [List.cons.injEq, List.cons.injEq, List.cons.injEq, and_left_comm (a := bytesFit bs),
      and_left_comm (a := bytesFit bs), ← key]
    exact ⟨fun ⟨ha, hx, hy, hbs⟩ => ⟨hx.symm, hy.symm, ha, hbs⟩, fun ⟨hx, hy, ha, hbs⟩ => ⟨ha, hx.symm, hy.symm, hbs⟩⟩

/-! ### What a command's header and words carry (R82, R89) -/

/-- The fields of `h` that `i` has operands in hold these operands. -/
def Instr.HeaderReads (h : Word) : Instr → Prop
  | .maxr w | .enc w _ | .dec1 w _ _ | .deca w _ _ | .wr1 w _ _ _ => fieldA h = w
  | .rpk oldW newW _ _ => fieldB h = oldW ∧ fieldA h = newW
  | .copen own => fieldF h = own
  | _ => True

/-- The words after the header hold the operand words and the payload of `i`. -/
def Instr.WordsRead (ws : List Word) : Instr → Prop
  | .bits x | .idx x | .get x | .binfo x | .push x => ws.getD 0 0 = x
  | .enc _ vs | .build vs => ws.drop 1 = vs
  | .dec1 _ x bs | .deca _ x bs | .rpk _ _ x bs => ws.getD 0 0 = x ∧ Format.xb.bytesOf ws = bs
  | .wr1 _ x y bs => ws.getD 0 0 = x ∧ ws.getD 1 0 = y ∧ Format.xxb.bytesOf ws = bs
  | .importImage bs => Format.b.bytesOf ws = bs
  | _ => True

/-- The decoder assembles `i` exactly when header and words hold its operands. -/
theorem assemble_eq_iff {h : Word} {ws : List Word} {i : Instr} :
    assemble i.op h ws (countWord i.op.fmt ws) (ws.drop i.op.fmt.fixedWords) = i ↔ i.HeaderReads h ∧ i.WordsRead ws := by
  cases i with
  | len | isemp | bytelen | new | pop | cnext | cclose | cstat | exportImage => exact iff_of_true rfl ⟨trivial, trivial⟩
  | _ => simp [assemble, Instr.op, Op.fmt, Instr.HeaderReads, Instr.WordsRead, Format.bytesOf, Format.fixedWords, and_assoc]

/-- A header is the one built for `op` from given fields exactly when it asks for the row of `op` and has these fields, the
fields `op` does not use being given as zero. -/
theorem headerWord_eq_iff {op : Op} {a b : Byte} {f : Bool} {h : Word} (ha : Machine.usesA op = true ∨ a = 0)
    (hb : op = .rpk ∨ b = 0) (hf : op = .copen ∨ f = false) :
    headerWord op a b f = h ↔ headerOf op h ∧ fieldA h = a ∧ fieldB h = b ∧ fieldF h = f := by
  constructor
  · rintro rfl
    exact ⟨headerOf_headerWord op a b f ha hb hf, fieldA_headerWord .., fieldB_headerWord .., fieldF_headerWord ..⟩
  · rintro ⟨hh, rfl, rfl, rfl⟩
    exact (headerWord_of_headerOf hh).symm

theorem headerOf_iff_of_noFields {op : Op} {h : Word} (ha : Machine.usesA op = false) (hb : op ≠ .rpk) (hf : op ≠ .copen) :
    headerOf op h ↔ headerWord op 0 0 false = h := by
  rw [headerWord_eq_iff (.inr rfl) (.inr rfl) (.inr rfl), iff_self_and]
  rintro ⟨-, hA, hB, hF, -⟩
  exact ⟨hA.resolve_left (by simp [ha]), hB.resolve_left hb, hF.resolve_left hf⟩

theorem headerOf_and_fieldA_iff {op : Op} {h : Word} {w : Byte} (ha : Machine.usesA op = true) (hb : op ≠ .rpk)
    (hf : op ≠ .copen) : headerOf op h ∧ fieldA h = w ↔ headerWord op w 0 false = h := by
  rw [headerWord_eq_iff (.inl ha) (.inr rfl) (.inr rfl), ← and_assoc, iff_self_and]
  rintro ⟨⟨-, -, hB, hF, -⟩, -⟩
  exact ⟨hB.resolve_left hb, hF.resolve_left hf⟩

theorem headerOf_rpk_and_fields_iff {h : Word} {oldW newW : Byte} :
    headerOf .rpk h ∧ fieldB h = oldW ∧ fieldA h = newW ↔ headerWord .rpk newW oldW false = h := by
  rw [headerWord_eq_iff (.inl rfl) (.inl rfl) (.inr rfl)]
  constructor
  · rintro ⟨hh, hB, hA⟩
    obtain ⟨-, -, -, hF, -⟩ := id hh
    exact ⟨hh, hA, hB, hF.resolve_left nofun⟩
  · rintro ⟨hh, hA, hB, -⟩
    exact ⟨hh, hB, hA⟩

theorem headerOf_copen_and_fieldF_iff {h : Word} {own : Bool} :
    headerOf .copen h ∧ fieldF h = own ↔ headerWord .copen 0 0 own = h := by
  rw [headerWord_eq_iff (.inr rfl) (.inr rfl) (.inl rfl)]
  constructor
  · rintro ⟨hh, hF⟩
    obtain ⟨-, hA, hB, -⟩ := id hh
    exact ⟨hh, hA.resolve_left nofun, hB.resolve_left nofun, hF⟩
  · rintro ⟨hh, -, -, hF⟩
    exact ⟨hh, hF⟩

/-- A header that asks for the row of `i` and holds the operands of `i` is the header of its packet. -/
theorem headerReads_iff {h : Word} {i : Instr} : headerOf i.op h ∧ i.HeaderReads h ↔ (encode i).head? = some h := by
  cases i with
  | maxr | enc | dec1 | deca | wr1 => exact (headerOf_and_fieldA_iff (by rfl) (by nofun) (by nofun)).trans Option.some_inj.symm
  | rpk => exact headerOf_rpk_and_fields_iff.trans Option.some_inj.symm
  | copen => exact headerOf_copen_and_fieldF_iff.trans Option.some_inj.symm
  | _ =>
    exact (and_iff_left trivial).trans
      ((headerOf_iff_of_noFields (by rfl) (by nofun) (by nofun)).trans Option.some_inj.symm)

/-- Words that the format of `i` accepts and that hold the operands of `i` are those of its packet, and `i` fits one. -/
theorem wordsRead_iff {ws : List Word} {i : Instr} :
    i.op.fmt.Accepts ws ∧ i.WordsRead ws ↔ i.WellFormed ∧ (encode i).tail = ws := by
  cases i with
  | bits | idx | get | binfo | push => exact accepts_x.trans (and_iff_right trivial).symm
  | enc | build => exact accepts_v
  | dec1 | deca | rpk => exact accepts_xb
  | wr1 => exact accepts_xxb
  | importImage => exact accepts_b
  | _ => exact (and_iff_left trivial).trans ((accepts_of_fixedWords_eq_zero rfl).trans (and_iff_right trivial).symm)

/-! ### The decoder and the encoder are inverse (R82 to R90) -/

/-- A packet decodes to `i` exactly when its header asks for the row of `i`, the words after it pass that row's checks, and
its fields and words are the operands of `i`. -/
theorem decode_cons_eq_ok {h : Word} {ws : List Word} {i : Instr} :
    decode (h :: ws) = .ok i ↔
      headerOf i.op h ∧ i.op.fmt.Accepts ws ∧
        assemble i.op h ws (countWord i.op.fmt ws) (ws.drop i.op.fmt.fixedWords) = i := by
  rw [decode_eq_ok]
  constructor
  · rintro ⟨h, ws, r, ⟨⟩, hr, hrow⟩
    obtain ⟨hmem, hh⟩ := rowOf_eq_some.mp hr
    obtain ⟨hlen, hpad, hi⟩ := decodeRow_eq_ok.mp hrow
    have hop : i.op = r.op := hi ▸ assemble_op ..
    rw [hop, ← fmt_of_mem_opTable r hmem]
    exact ⟨hh, ⟨hlen, hpad⟩, hi⟩
  · rintro ⟨hh, ⟨hlen, hpad⟩, hi⟩
    obtain ⟨r, hmem, hop⟩ := exists_row i.op
    have hfmt : i.op.fmt = r.fmt := hop ▸ (fmt_of_mem_opTable r hmem).symm
    rw [hfmt] at hlen hpad hi
    rw [← hop] at hh hi
    exact ⟨h, ws, r, rfl, rowOf_eq_some.mpr ⟨hmem, hh⟩, decodeRow_eq_ok.mpr ⟨hlen, hpad, hi⟩⟩

theorem encode_ne_nil (i : Instr) : encode i ≠ [] := by
  cases i <;> exact List.cons_ne_nil _ _

/-- A packet decodes to a command exactly when it is the packet of that command and the command fits one. -/
theorem decode_eq_ok_iff_encode {p : Packet} {i : Instr} : decode p = .ok i ↔ i.WellFormed ∧ encode i = p := by
  cases p with
  | nil => exact ⟨nofun, fun ⟨_, he⟩ => absurd he (encode_ne_nil i)⟩
  | cons h ws =>
    rw [decode_cons_eq_ok, assemble_eq_iff]
    calc headerOf i.op h ∧ i.op.fmt.Accepts ws ∧ i.HeaderReads h ∧ i.WordsRead ws
      _ ↔ (headerOf i.op h ∧ i.HeaderReads h) ∧ (i.op.fmt.Accepts ws ∧ i.WordsRead ws) := by
        rw [and_assoc, and_left_comm (a := i.op.fmt.Accepts ws)]
      _ ↔ (encode i).head? = some h ∧ i.WellFormed ∧ (encode i).tail = ws := and_congr headerReads_iff wordsRead_iff
      _ ↔ i.WellFormed ∧ encode i = h :: ws := by
        rw [and_left_comm]
        cases encode i <;> simp

/-- Settles O1: a well-formed command's packet passes every check of R88 and reads back as its operands. -/
theorem decodeUndoesEncode : Obligations.DecodeUndoesEncode := by
  intro i hi
  exact decode_eq_ok_iff_encode.mpr ⟨hi, rfl⟩

/-- Settles O2: the checks of R88 leave no field, word or byte of a packet that its command does not determine. -/
theorem decodedPacketIsItsEncoding : Obligations.DecodedPacketIsItsEncoding := by
  intro p i hd
  exact decode_eq_ok_iff_encode.mp hd

/-- Settles O6, by running the decoder on each of the eight packets. -/
theorem specWordsDecode : Obligations.SpecWordsDecode :=
  ⟨rfl, rfl, rfl, rfl, rfl, rfl, rfl, rfl⟩

end Sys2Proof

namespace Sys2Proof.Machine

/-- Settles O8: rejecting a packet is one answer without a body. -/
theorem stepAnswersRejectedPacket : Obligations.StepAnswersRejectedPacket := by
  intro s p rest e hq hd
  exact step_of_decode_error hq hd

end Sys2Proof.Machine

namespace Sys2Proof.Machine

/-! ### The width of a Value as the length of its number (40_bitwidth.md R121, R122) -/

theorem bitsNeeded_le_iff {v : Word} {w : Nat} : bitsNeeded v ≤ w ↔ v.toNat < 2 ^ w :=
  ⟨lt_two_pow_of_bitsNeeded_le, bitsNeeded_le_of_lt⟩

theorem bitsNeeded_eq_size (v : Word) : bitsNeeded v = v.toNat.size :=
  eq_of_forall_ge_iff fun _ => bitsNeeded_le_iff.trans Nat.size_le.symm

theorem toNat_pos_of_ne_zero {v : Word} (h : v ≠ 0) : 0 < v.toNat :=
  Nat.pos_of_ne_zero (BitVec.toNat_ne_iff_ne.mpr h)

theorem bitsNeeded_pos {v : Word} (h : v ≠ 0) : 0 < bitsNeeded v := by
  rw [bitsNeeded_eq_size, Nat.size_pos]
  exact toNat_pos_of_ne_zero h

theorem bitsNeeded_eq_log2 {v : Word} (h : v ≠ 0) : bitsNeeded v = Nat.log2 v.toNat + 1 :=
  have hne : v.toNat ≠ 0 := (toNat_pos_of_ne_zero h).ne'
  eq_of_forall_ge_iff fun _ => by rw [bitsNeeded_le_iff, Nat.succ_le_iff, Nat.log2_lt hne]

theorem clz32_eq (v : Word) : clz32 v = 32 - bitsNeeded v := by
  have hle : clz32 v ≤ 32 := zerosFrom_le v 32
  rw [bitsNeeded_eq]
  omega

theorem clz32_lt {v : Word} (h : v ≠ 0) : clz32 v < 32 := by
  have := bitsNeeded_pos h
  rw [clz32_eq]
  omega

/-- Settles O19: `zerosFrom` stops at a one bit, and no bit above it can be one in a number below `2 ^ bits_needed(v)`. -/
theorem clzCountsLeadingZeros : Obligations.ClzCountsLeadingZeros := by
  refine ⟨rfl, fun v hv => ?_⟩
  have hlt := clz32_lt hv
  have htop : v.getLsbD (31 - clz32 v) = true := by
    have hbit := testBit_of_zerosFrom v hlt
    rwa [Nat.sub_right_comm] at hbit
  have habove : ∀ j, 31 - clz32 v < j → v.getLsbD j = false := fun j hj =>
    Nat.testBit_lt_two_pow (bitsNeeded_le_iff.mp (by rw [bitsNeeded_eq]; omega))
  have hlog : clz32 v = 31 - Nat.log2 v.toNat := by rw [clz32_eq, bitsNeeded_eq_log2 hv]; omega
  exact ⟨hlt, htop, habove, clz32_eq v, hlog⟩

/-! ### The reference circuit (40_bitwidth.md R128) -/

/-- The top `n` bits are zero, as a stage tests it, exactly when there are `n` leading zeros. -/
theorem ushiftRight_eq_zero_iff_le_clz32 {x : Word} {n : Nat} (hn : n ≤ 32) : x >>> (32 - n) = 0 ↔ n ≤ clz32 x := by
  calc x >>> (32 - n) = 0
    _ ↔ x.toNat / 2 ^ (32 - n) = 0 := by
      rw [← BitVec.toNat_inj, BitVec.toNat_ushiftRight, Nat.shiftRight_eq_div_pow]; rfl
    _ ↔ bitsNeeded x ≤ 32 - n := by rw [Nat.div_eq_zero_iff_lt (Nat.two_pow_pos _), bitsNeeded_le_iff]
    _ ↔ n ≤ clz32 x := by
      have := bitsNeeded_le x
      rw [clz32_eq]
      omega

/-- Shifting leading zeros out loses no bit, so it lengthens the number by as much. -/
theorem bitsNeeded_shiftLeft {x : Word} {n : Nat} (hx : x ≠ 0) (h : n ≤ clz32 x) :
    bitsNeeded (x <<< n) = bitsNeeded x + n := by
  have hsize : (x.toNat <<< n).size = bitsNeeded x + n := by
    rw [Nat.size_shiftLeft (toNat_pos_of_ne_zero hx).ne', bitsNeeded_eq_size]
  have hle : bitsNeeded x + n ≤ 32 := by
    have := clz32_lt hx
    rw [bitsNeeded_eq]
    omega
  have hlt : x.toNat <<< n < 2 ^ 32 := Nat.size_le.mp (hsize ▸ hle)
  rw [bitsNeeded_eq_size, BitVec.toNat_shiftLeft, Nat.mod_eq_of_lt hlt, hsize]

theorem clz32_shiftLeft {x : Word} {n : Nat} (hx : x ≠ 0) (h : n ≤ clz32 x) : clz32 (x <<< n) = clz32 x - n := by
  rw [clz32_eq, bitsNeeded_shiftLeft hx h, clz32_eq, Nat.sub_sub]

theorem shiftLeft_ne_zero_of_le_clz32 {x : Word} {n : Nat} (hx : x ≠ 0) (h : n ≤ clz32 x) : x <<< n ≠ 0 := by
  intro h0
  have hlen := bitsNeeded_shiftLeft hx h
  have hpos := bitsNeeded_pos hx
  have hzero : bitsNeeded (x <<< n) = 0 := by rw [h0]; rfl
  omega

/-- What holds between two stages on the way to counting `v`: what is left is not zero and has fewer than `n` leading zeros,
which with those counted so far make `clz32(v)`. -/
def Counting (v : Word) (n : Nat) (p : Nat × Word) : Prop :=
  p.2 ≠ 0 ∧ clz32 p.2 < n ∧ p.1 + clz32 p.2 = clz32 v

theorem clzStage_of_le_clz32 {n c : Nat} {x : Word} (hn : n ≤ 32) (h : n ≤ clz32 x) :
    clzStage n (c, x) = (c + n, x <<< n) :=
  if_pos ((ushiftRight_eq_zero_iff_le_clz32 hn).mpr h)

theorem clzStage_of_clz32_lt {n c : Nat} {x : Word} (hn : n ≤ 32) (h : clz32 x < n) : clzStage n (c, x) = (c, x) :=
  if_neg (mt (ushiftRight_eq_zero_iff_le_clz32 hn).mp (Nat.not_le.mpr h))

/-- The stage of `n` bits halves the bound on the zeros not yet counted. -/
theorem Counting.stage {v : Word} {n : Nat} {p : Nat × Word} (hn : n ≤ 32) (h : Counting v (n + n) p) :
    Counting v n (clzStage n p) := by
  obtain ⟨c, x⟩ := p
  obtain ⟨hx, hbound, hsum⟩ : x ≠ 0 ∧ clz32 x < n + n ∧ c + clz32 x = clz32 v := h
  rcases Nat.lt_or_ge (clz32 x) n with hlt | hle
  · rw [clzStage_of_clz32_lt hn hlt]
    exact ⟨hx, hlt, hsum⟩
  · rw [clzStage_of_le_clz32 hn hle]
    have hclz := clz32_shiftLeft hx hle
    have hsum' : c + n + clz32 (x <<< n) = clz32 v := by omega
    have hbound' : clz32 (x <<< n) < n := by omega
    exact ⟨shiftLeft_ne_zero_of_le_clz32 hx hle, hbound', hsum'⟩

/-- Settles O20: five stages bring the bound on the zeros not yet counted from 32 down to 1. -/
theorem referenceCircuitCountsLeadingZeros : Obligations.ReferenceCircuitCountsLeadingZeros := by
  intro v
  unfold clz32Ref
  split
  next hv => subst hv; rfl
  next hv =>
    have start : Counting v 32 (0, v) := ⟨hv, clz32_lt hv, Nat.zero_add _⟩
    have h16 : Counting v 16 _ := start.stage (by decide)
    have h8 : Counting v 8 _ := h16.stage (by decide)
    have h4 : Counting v 4 _ := h8.stage (by decide)
    have h2 : Counting v 2 _ := h4.stage (by decide)
    obtain ⟨-, hnone, hsum⟩ : Counting v 1 _ := h2.stage (by decide)
    omega

/-! ### The fit test and the laws of the calculator (40_bitwidth.md R125 to R127) -/

theorem fits_iff_bitsNeeded_le (v : Word) (w : Nat) : fits v w = true ↔ bitsNeeded v ≤ w :=
  (fits_iff v w).trans bitsNeeded_le_iff.symm

/-- Settles O21: the first form is the definition, the second holds because both sides say `v < 2 ^ w`. -/
theorem fitTestIsWidthTest : Obligations.FitTestIsWidthTest :=
  fun v w _ => ⟨decide_eq_true_iff, fits_iff_bitsNeeded_le v w⟩

/-- R127 (a). -/
theorem bitsNeeded_mono {u v : Word} (h : u.toNat ≤ v.toNat) : bitsNeeded u ≤ bitsNeeded v :=
  bitsNeeded_le_iff.mpr (h.trans_lt (lt_two_pow_bitsNeeded v))

theorem toNat_ofNat_maxRepresentable {w : Nat} (hw : w ≤ 32) :
    (BitVec.ofNat 32 (maxRepresentable w)).toNat = maxRepresentable w := by
  have hpow : 2 ^ w ≤ 2 ^ 32 := Nat.pow_le_pow_right two_pos hw
  rw [BitVec.toNat_ofNat, Nat.mod_eq_of_lt]
  unfold maxRepresentable
  omega

/-- R127 (b): below `2 ^ w'` lies `2 ^ w - 1` exactly when `w ≤ w'`. -/
theorem bitsNeeded_maxRepresentable {w : Nat} (hw : w ≤ 32) : bitsNeeded (BitVec.ofNat 32 (maxRepresentable w)) = w :=
  eq_of_forall_ge_iff fun w' => by
    have hpos : 0 < 2 ^ w := Nat.two_pow_pos w
    rw [bitsNeeded_le_iff, toNat_ofNat_maxRepresentable hw, ← Nat.pow_le_pow_iff_right Nat.one_lt_two]
    unfold maxRepresentable
    omega

/-- R127 (c), upper half. -/
theorem le_maxRepresentable_bitsNeeded (v : Word) : v.toNat ≤ maxRepresentable (bitsNeeded v) :=
  Nat.le_sub_one_of_lt (lt_two_pow_bitsNeeded v)

/-- R127 (c), lower half: one width less would not do. -/
theorem maxRepresentable_lt_of_ne_zero {v : Word} (h : v ≠ 0) : maxRepresentable (bitsNeeded v - 1) < v.toNat := by
  have hpos := bitsNeeded_pos h
  have hno : ¬ v.toNat < 2 ^ (bitsNeeded v - 1) := by
    rw [← bitsNeeded_le_iff]
    omega
  have : 0 < 2 ^ (bitsNeeded v - 1) := Nat.two_pow_pos _
  unfold maxRepresentable
  omega

theorem foldr_max_le_iff {ns : List Nat} {w : Nat} : ns.foldr max 0 ≤ w ↔ ∀ n ∈ ns, n ≤ w :=
  ⟨fun h _ hn => (List.le_max_of_le' 0 hn le_rfl).trans h, List.max_le_of_forall_le ns w⟩

theorem bitsNeeded_or_le_iff {u v : Word} {w : Nat} :
    bitsNeeded (u ||| v) ≤ w ↔ bitsNeeded u ≤ w ∧ bitsNeeded v ≤ w := by
  simp only [bitsNeeded_le_iff, BitVec.toNat_or]
  exact ⟨fun h => ⟨Nat.left_le_or.trans_lt h, Nat.right_le_or.trans_lt h⟩, fun ⟨hu, hv⟩ => Nat.or_lt_two_pow hu hv⟩

theorem bitsNeeded_foldr_or_le_iff {vs : List Word} {w : Nat} :
    bitsNeeded (vs.foldr (· ||| ·) 0) ≤ w ↔ ∀ v ∈ vs, bitsNeeded v ≤ w := by
  induction vs with
  | nil => exact iff_of_true (Nat.zero_le w) nofun
  | cons v vs ih => rw [List.foldr_cons, bitsNeeded_or_le_iff, ih, List.forall_mem_cons]

/-- R127 (d): a width covers the maximum and the greatest of the widths alike when it covers each Value. -/
theorem bitsNeeded_maxValue_eq_foldr_max (vs : List Word) :
    bitsNeeded (maxValue vs) = (vs.map bitsNeeded).foldr max 0 :=
  eq_of_forall_ge_iff fun _ => by rw [bitsNeeded_maxValue_le_iff, foldr_max_le_iff, List.forall_mem_map]

/-- R127 (d): a width covers the bitwise or when it covers each Value. -/
theorem bitsNeeded_maxValue_eq_foldr_or (vs : List Word) :
    bitsNeeded (maxValue vs) = bitsNeeded (vs.foldr (· ||| ·) 0) :=
  eq_of_forall_ge_iff fun _ => bitsNeeded_maxValue_le_iff.trans bitsNeeded_foldr_or_le_iff.symm

/-- R127 (e). -/
theorem maxRepresentable_succ (w : Nat) : maxRepresentable (w + 1) = (maxRepresentable w <<< 1) ||| 1 := by
  have hpos : 0 < 2 ^ w := Nat.two_pow_pos w
  rw [← Nat.shiftLeft_add_eq_or_of_lt (by decide : 1 < 2 ^ 1), Nat.shiftLeft_eq]
  unfold maxRepresentable
  omega

/-- Settles O22, law by law. -/
theorem bitWidthLaws : Obligations.BitWidthLaws := by
  refine ⟨fun _ _ => bitsNeeded_mono, fun _ => bitsNeeded_maxRepresentable, fun v => ?c, fun vs hne => ?d, rfl,
    fun w hw _ => ?e⟩
  case c => exact ⟨le_maxRepresentable_bitsNeeded v, maxRepresentable_lt_of_ne_zero⟩
  case d =>
    exact ⟨maxValue_mem hne, fun _ => le_maxValue, bitsNeeded_maxValue_eq_foldr_max vs, bitsNeeded_maxValue_eq_foldr_or vs⟩
  case e =>
    obtain ⟨k, rfl⟩ := Nat.exists_eq_add_of_le' hw
    exact maxRepresentable_succ k

/-! ### `BITS` and `MAXR` (40_bitwidth.md R123, R124) -/

theorem exec_bits (v : Word) (s : State) :
    exec (.bits v) s = .next (answered s [rspHeader Op.bits.code .ok, BitVec.ofNat 32 (bitsNeeded v)]) := rfl

theorem exec_maxr_of_le {w : Byte} (h : w.toNat ≤ 32) (s : State) :
    exec (.maxr w) s = .next (answered s [rspHeader Op.maxr.code .ok, BitVec.ofNat 32 (maxRepresentable w.toNat)]) :=
  if_neg (Nat.not_lt.mpr h)

theorem exec_maxr_of_lt {w : Byte} (h : 32 < w.toNat) (s : State) :
    exec (.maxr w) s = .next (answered s [rspHeader Op.maxr.code .eWidth]) :=
  if_pos h

/-- Settles O18: the width answered is `bits_needed(v)`, the least with `v < 2 ^ w`. -/
theorem bitsAnswersMinimalWidth : Obligations.BitsAnswersMinimalWidth := by
  intro v s
  refine ⟨rfl, bitsNeeded v, bitsNeeded_le v, lt_two_pow_bitsNeeded v, fun _ => bitsNeeded_le_of_lt, ?_,
    fun _ => bitsNeeded_eq v, exec_bits v s⟩
  rintro rfl
  rfl

/-- Settles O23: the two branches of `MAXR`, with the first one's answer short of 32 bits. -/
theorem maxrAnswers : Obligations.MaxrAnswers := by
  intro w s
  refine ⟨rfl, fun h => ⟨?_, exec_maxr_of_le h s⟩, fun h => exec_maxr_of_lt h s⟩
  have : 2 ^ w.toNat ≤ 2 ^ 32 := Nat.pow_le_pow_right two_pos h
  omega

end Sys2Proof.Machine

namespace Sys2Proof.Machine

/-! ### The codec bit by bit (20_memory.md R53, R54; 41_codec.md R142, R144, R147)

A packed sequence is known by its stream bits, so the laws of the codec are statements about them. -/

/-- Byte sequences of one length are equal when their stream bits are. -/
theorem eq_of_streamBit_eq {as bs : List Byte} (hl : as.length = bs.length) (h : ∀ p, streamBit as p = streamBit bs p) :
    as = bs := by
  refine leNum_inj hl (Nat.eq_of_testBit_eq fun p => ?_)
  rw [← streamBit_eq_testBit, ← streamBit_eq_testBit, h]

theorem forall_fits_iff {vs : List Word} {w : Nat} : (∀ v ∈ vs, fits v w = true) ↔ ∀ v ∈ vs, v.toNat < 2 ^ w :=
  forall₂_congr fun v _ => fits_iff v w

theorem getLsbD_eq_false_of_fits {v : Word} {w j : Nat} (hv : v.toNat < 2 ^ w) (hj : w ≤ j) : v.getLsbD j = false :=
  Nat.testBit_lt_two_pow (hv.trans_le (Nat.pow_le_pow_right two_pos hj))

/-- The bits of a decoded Value are the stream bits of its field, and 0 above the width. -/
theorem decodeOne_getLsbD (bs : List Byte) (i j : Nat) {w : Nat} (hw : w ≤ 32) :
    (decodeOne bs i w).getLsbD j = (decide (j < w) && streamBit bs (i * w + j)) := by
  rw [BitVec.getLsbD, decodeOne_toNat bs i hw, Nat.testBit_mod_two_pow, Nat.testBit_div_two_pow, streamBit_eq_testBit,
    Nat.add_comm j]

theorem streamBit_encodeAll_field {vs : List Word} {w k j : Nat} (hw : w ≤ 32) (h : ∀ v ∈ vs, v.toNat < 2 ^ w)
    (hj : j < w) : streamBit (encodeAll vs w) (k * w + j) = (vs.getD k 0).getLsbD j := by
  rw [← decodeOne_encodeAll hw h, decodeOne_getLsbD _ _ _ hw, decide_eq_true hj, Bool.true_and]

theorem streamBit_encodeAll_padding {vs : List Word} {w p : Nat} (h : ∀ v ∈ vs, v.toNat < 2 ^ w)
    (hp : vs.length * w ≤ p) : streamBit (encodeAll vs w) p = false := by
  rw [streamBit_eq_testBit, leNum_encodeAll h]
  exact Nat.testBit_lt_two_pow ((packNum_lt h).trans_le (Nat.pow_le_pow_right two_pos hp))

/-- The canonical form keeps the bits of its elements and clears every other (R149 (b)). -/
theorem streamBit_canonical (bs : List Byte) (n p : Nat) {w : Nat} (hw : w ≤ 32) :
    streamBit (encodeAll (decodeAll bs n w) w) p = if p < n * w then streamBit bs p else false := by
  rw [streamBit_eq_testBit, leNum_canonical bs n hw, Nat.testBit_mod_two_pow, streamBit_eq_testBit]
  split <;> simp [*]

/-- Encoding what was decoded gives the same bytes exactly when there are `ceil(n*w/8)` of them with every padding bit 0
(R149 (b)). -/
theorem encodeAll_decodeAll_eq_self_iff {bs : List Byte} {n w : Nat} (hw : w ≤ 32) :
    encodeAll (decodeAll bs n w) w = bs ↔ bs.length = bytesFor (n * w) ∧ ∀ p, n * w ≤ p → streamBit bs p = false := by
  have hlen : (encodeAll (decodeAll bs n w) w).length = bytesFor (n * w) := by simp
  constructor
  · intro h
    rw [h] at hlen
    refine ⟨hlen, fun p hp => ?_⟩
    have hbit := streamBit_canonical bs n p hw
    rwa [h, if_neg hp.not_gt] at hbit
  · rintro ⟨hl, hpad⟩
    refine eq_of_streamBit_eq (hlen.trans hl.symm) fun p => ?_
    rw [streamBit_canonical bs n p hw]
    split
    next => rfl
    next hp => rw [hpad p (Nat.not_lt.mp hp)]

/-- `write_one` bit by bit (R147). -/
theorem streamBit_writeOne {bs : List Byte} {i w : Nat} {v : Word} (hw : w ≤ 32) (h : (i + 1) * w ≤ 8 * bs.length)
    (hv : v.toNat < 2 ^ w) (p : Nat) :
    streamBit (writeOne bs i w v) p
      = if i * w ≤ p ∧ p < (i + 1) * w then v.getLsbD (p - i * w) else streamBit bs p := by
  have hlow : leNum bs % 2 ^ (i * w) < 2 ^ (i * w) := Nat.mod_lt _ (Nat.two_pow_pos _)
  have hend : (i + 1) * w = i * w + w := Nat.succ_mul i w
  rw [streamBit_eq_testBit, leNum_writeOne hw h hv, Nat.add_comm, Nat.testBit_two_pow_mul_add _ hlow, Nat.add_comm v.toNat,
    Nat.testBit_two_pow_mul_add _ hv, Nat.testBit_mod_two_pow, Nat.testBit_div_two_pow, streamBit_eq_testBit]
  rcases Nat.lt_or_ge p (i * w) with hbelow | hge
  · simp [hbelow, Nat.not_le.mpr hbelow]
  rcases Nat.lt_or_ge p ((i + 1) * w) with hin | habove
  · have hin' : p - i * w < w := by omega
    simp [Nat.not_lt.mpr hge, hge, hin, hin', BitVec.getLsbD]
  · have hout : ¬ p - i * w < w := by omega
    have hpos : p - i * w - w + (i + 1) * w = p := by omega
    simp [Nat.not_lt.mpr hge, Nat.not_lt.mpr habove, hout, hpos]

theorem decodeOne_writeOne_same {bs : List Byte} {i w : Nat} {v : Word} (hw : w ≤ 32) (h : (i + 1) * w ≤ 8 * bs.length)
    (hv : v.toNat < 2 ^ w) : decodeOne (writeOne bs i w v) i w = v := by
  refine BitVec.eq_of_getLsbD_eq fun j _ => ?_
  rw [decodeOne_getLsbD _ _ _ hw, streamBit_writeOne hw h hv, Nat.succ_mul]
  rcases Nat.lt_or_ge j w with hj | hj
  · simp [hj]
  · simp [Nat.not_lt.mpr hj, getLsbD_eq_false_of_fits hv hj]

/-- Fields of one width do not overlap. -/
theorem field_disjoint {i k w j : Nat} (hk : k ≠ i) (hj : j < w) : ¬ (i * w ≤ k * w + j ∧ k * w + j < (i + 1) * w) := by
  rcases Nat.lt_or_gt_of_ne hk with hlt | hgt
  · have : (k + 1) * w ≤ i * w := Nat.mul_le_mul_right w hlt
    rw [Nat.succ_mul] at this
    omega
  · have : (i + 1) * w ≤ k * w := Nat.mul_le_mul_right w hgt
    omega

theorem decodeOne_writeOne_other {bs : List Byte} {i k w : Nat} {v : Word} (hw : w ≤ 32)
    (h : (i + 1) * w ≤ 8 * bs.length) (hv : v.toNat < 2 ^ w) (hk : k ≠ i) :
    decodeOne (writeOne bs i w v) k w = decodeOne bs k w := by
  refine BitVec.eq_of_getLsbD_eq fun j _ => ?_
  rw [decodeOne_getLsbD _ _ _ hw, decodeOne_getLsbD _ _ _ hw]
  rcases Nat.lt_or_ge j w with hj | hj
  · rw [streamBit_writeOne hw h hv, if_neg (field_disjoint hk hj)]
  · rw [decide_eq_false (Nat.not_lt.mpr hj), Bool.false_and, Bool.false_and]

theorem writeOne_width_zero {bs : List Byte} {i : Nat} {v : Word} (hv : v.toNat < 2 ^ 0) : writeOne bs i 0 v = bs := by
  have hin : (i + 1) * 0 ≤ 8 * bs.length := Nat.zero_le _
  refine eq_of_streamBit_eq (writeOne_length v hin) fun p => ?_
  rw [streamBit_writeOne (Nat.zero_le 32) hin hv, if_neg (fun ⟨_, hlt⟩ => Nat.not_lt_zero p hlt)]

/-- Settles O24: a field of an encoding decodes to its Value, and the packed number has no bit past the last field. -/
theorem encodeAllPlacesFields : Obligations.EncodeAllPlacesFields := by
  intro vs w hw hfit
  have hlt := forall_fits_iff.mp hfit
  exact ⟨encodeAll_length vs w, fun k j _ hj => streamBit_encodeAll_field hw hlt hj,
    fun p hp => streamBit_encodeAll_padding hlt hp⟩

/-- Settles O26: the window is cut so that no bit of the field is lost; the field need not even lie inside the bytes. -/
theorem decodeOneIsStreamField : Obligations.DecodeOneIsStreamField := by
  intro bs i w hw _
  refine ⟨?number, fun j hj => ?bit, fieldBytes_le hw, ?zero⟩
  case number => rw [decodeOne_toNat bs i hw, Nat.shiftRight_eq_div_pow]
  case bit => rw [decodeOne_getLsbD bs i j hw, decide_eq_true hj, Bool.true_and]
  case zero =>
    rintro rfl
    have hlt : (decodeOne bs i 0).toNat < 1 := decodeOne_lt bs i hw
    exact ⟨fieldBytes_width_zero i, BitVec.eq_of_toNat_eq (Nat.lt_one_iff.mp hlt)⟩

/-- Settles O29: each clause follows from what `write_one` does to a stream bit, as fields of one width do not overlap. -/
theorem writeOneReplacesOneField : Obligations.WriteOneReplacesOneField := by
  intro bs i w v hw hin hfit
  have hv : v.toNat < 2 ^ w := (fits_iff v w).mp hfit
  refine ⟨writeOne_length v hin, streamBit_writeOne hw hin hv, decodeOne_writeOne_same hw hin hv,
    fun k hk => decodeOne_writeOne_other hw hin hv hk, ?_⟩
  rintro rfl
  exact writeOne_width_zero hv

/-- Settles O32, law by law; (b) from the stream bits of a canonical form. -/
theorem codecLaws : Obligations.CodecLaws := by
  refine ⟨fun vs w hw h => ?roundTrip, fun bs n w hw _ => ⟨⟨?length, fun p => ?bits⟩, ?canonical⟩,
    fun bs n w w' _ hw' _ h => ?repack, fun vs v w hw h hv => ?append, fun vs w hw => ?bound⟩
  case roundTrip => exact decodeAll_of_encodeAll hw (forall_fits_iff.mp h)
  case length => rw [encodeAll_length, decodeAll_length, bytesFor]
  case bits => exact streamBit_canonical bs n p hw
  case canonical => exact encodeAll_decodeAll_eq_self_iff hw
  case repack => exact decodeAll_repack hw' (forall_fits_iff.mp h)
  case append => exact (growAndWrite_encodeAll hw (forall_fits_iff.mp h) ((fits_iff v w).mp hv)).symm
  case bound => exact encodeAll_length_bound vs hw

/-! ### The checks of the codec commands, as R150 to R154 write them -/

theorem bnot_fits_iff {v : Word} {w : Nat} : (!fits v w) = true ↔ 2 ^ w ≤ v.toNat := by
  rw [Bool.not_eq_true', ← Bool.not_eq_true, fits_iff, Nat.not_lt]

theorem bnot_allFit_iff {vs : List Word} {w : Nat} : (!allFit vs w) = true ↔ ∃ v ∈ vs, 2 ^ w ≤ v.toNat := by
  rw [Bool.not_eq_true', ← Bool.not_eq_true, allFit_iff]
  simp only [not_forall, exists_prop, Nat.not_lt]

theorem bnot_allFit_decodeAll_iff {bs : List Byte} {n w w' : Nat} :
    (!allFit (decodeAll bs n w) w') = true ↔ ∃ k, k < n ∧ 2 ^ w' ≤ (decodeOne bs k w).toNat := by
  rw [bnot_allFit_iff]
  simp [decodeAll]

theorem bnot_inBounds_iff {l i w : Nat} : (!inBounds l i w) = true ↔ 8 * l < (i + 1) * w := by
  rw [inBounds, Bool.not_eq_true', decide_eq_false_iff_not, Nat.not_le]

/-- The limit of `DECA` and `RPK` (R152, R154) is passed when both counts are. -/
theorem not_limit {n l : Nat} (hn : n ≤ 256) (hl : l ≤ 1024) : ¬ (256 < n ∨ 1024 < l) :=
  not_or.mpr ⟨hn.not_gt, hl.not_gt⟩

/-! ### The codec commands (41_codec.md R150 to R154) -/

/-- Settles O25: the branches of `ENC` in order. -/
theorem encAnswers : Obligations.EncAnswers := by
  intro w vs s
  refine ⟨rfl, fun hw => if_pos hw, fun hw hn => ?limit, fun hw hn hv => ?range, fun hw hn hv => ?encoded⟩
  case limit => exact (if_neg hw.not_gt).trans (if_pos hn)
  case range => exact (if_neg hw.not_gt).trans <| (if_neg hn.not_gt).trans <| if_pos (bnot_allFit_iff.mpr hv)
  case encoded =>
    have hfit : ¬ (!allFit vs w.toNat) = true := mt bnot_allFit_iff.mp fun ⟨v, hmem, hge⟩ => (hv v hmem).not_ge hge
    exact (if_neg hw.not_gt).trans <| (if_neg hn.not_gt).trans <| if_neg hfit

/-- Settles O27: the branches of `DEC1` in order. -/
theorem dec1Answers : Obligations.Dec1Answers := by
  intro w i bs s
  refine ⟨rfl, fun hw => if_pos hw, fun hw hl => ?limit, fun hw hl hb => ?bounds, fun hw hl hb => ?field⟩
  case limit => exact (if_neg hw.not_gt).trans (if_pos hl)
  case bounds => exact (if_neg hw.not_gt).trans <| (if_neg hl.not_gt).trans <| if_pos (bnot_inBounds_iff.mpr hb)
  case field =>
    exact (if_neg hw.not_gt).trans <| (if_neg hl.not_gt).trans <| if_neg (mt bnot_inBounds_iff.mp hb.not_gt)

/-- Settles O28: the branches of `DECA` in order; the count in the response is the operand `n`. -/
theorem decaAnswers : Obligations.DecaAnswers := by
  intro w n bs s
  refine ⟨rfl, fun hw => if_pos hw, fun hw hl => ?limit, fun hw hn hl hb => ?bounds, fun hw hn hl hb => ?fields⟩
  case limit => exact (if_neg hw.not_gt).trans (if_pos hl)
  case bounds => exact (if_neg hw.not_gt).trans <| (if_neg (not_limit hn hl)).trans <| if_pos hb
  case fields =>
    have hcount : lengthWord (decodeAll bs n.toNat w.toNat).length = n := by
      rw [decodeAll_length, lengthWord, BitVec.ofNat_toNat, BitVec.setWidth_eq]
    have hexec : exec (.deca w n bs) s = answerOk .deca (valuesBody (decodeAll bs n.toNat w.toNat)) s :=
      (if_neg hw.not_gt).trans <| (if_neg (not_limit hn hl)).trans <| if_neg hb.not_gt
    rw [hexec, valuesBody, hcount]
    rfl

/-- Settles O30: the branches of `WR1` in order; the written sequence has the length it had. -/
theorem wr1Answers : Obligations.Wr1Answers := by
  intro w i v bs s
  refine ⟨rfl, fun hw => if_pos hw, fun hw hl => ?limit, fun hw hl hb => ?bounds, fun hw hl hb hv => ?range,
    fun hw hl hb hv => ?written⟩
  case limit => exact (if_neg hw.not_gt).trans (if_pos hl)
  case bounds => exact (if_neg hw.not_gt).trans <| (if_neg hl.not_gt).trans <| if_pos (bnot_inBounds_iff.mpr hb)
  case range =>
    exact (if_neg hw.not_gt).trans <| (if_neg hl.not_gt).trans <| (if_neg (mt bnot_inBounds_iff.mp hb.not_gt)).trans <|
      if_pos (bnot_fits_iff.mpr hv)
  case written =>
    have hexec : exec (.wr1 w i v bs) s = answerOk .wr1 (bytesBody (writeOne bs i.toNat w.toNat v)) s :=
      (if_neg hw.not_gt).trans <| (if_neg hl.not_gt).trans <| (if_neg (mt bnot_inBounds_iff.mp hb.not_gt)).trans <|
        if_neg (mt bnot_fits_iff.mp hv.not_ge)
    rw [hexec, bytesBody, writeOne_length v hb]
    rfl

/-- Settles O31: the branches of `RPK` in order; the repacked sequence has `ceil(n*new_w/8)` bytes. -/
theorem rpkAnswers : Obligations.RpkAnswers := by
  intro oldW newW n bs s
  have widths (hnew : newW.toNat ≤ 32) (hold : oldW.toNat ≤ 32) : ¬ (32 < newW.toNat ∨ 32 < oldW.toNat) :=
    not_or.mpr ⟨hnew.not_gt, hold.not_gt⟩
  refine ⟨rfl, fun hw => if_pos hw, fun hnew hold hl => ?limit, fun hnew hold hn hl hb => ?bounds,
    fun hnew hold hn hl hb hv => ?range, fun hnew hold hn hl hb hv => ?repacked⟩
  case limit => exact (if_neg (widths hnew hold)).trans (if_pos hl)
  case bounds => exact (if_neg (widths hnew hold)).trans <| (if_neg (not_limit hn hl)).trans <| if_pos hb
  case range =>
    exact (if_neg (widths hnew hold)).trans <| (if_neg (not_limit hn hl)).trans <| (if_neg hb.not_gt).trans <|
      if_pos (bnot_allFit_decodeAll_iff.mpr hv)
  case repacked =>
    have hfit : ¬ (!allFit (decodeAll bs n.toNat oldW.toNat) newW.toNat) = true :=
      mt bnot_allFit_decodeAll_iff.mp fun ⟨k, hk, hge⟩ => (hv k hk).not_ge hge
    have hexec : exec (.rpk oldW newW n bs) s
        = answerOk .rpk (bytesBody (repack bs n.toNat oldW.toNat newW.toNat)) s :=
      (if_neg (widths hnew hold)).trans <| (if_neg (not_limit hn hl)).trans <| (if_neg hb.not_gt).trans <| if_neg hfit
    rw [hexec, bytesBody, repack, encodeAll_length, decodeAll_length]
    rfl

end Sys2Proof.Machine

namespace Sys2Proof.Machine

/-! ### The read gate (42_index_access.md R188) -/

theorem readGate_of_owned {s : State} (h : ownedByCursor s) : readGate s = some .eMoved := by
  simp [readGate, h.1, h.2]

theorem readGate_of_not_owned {s : State} (h : ¬ ownedByCursor s) : readGate s = none := by
  simpa [readGate] using h

/-- A store read: the answer `y` behind the read gate. -/
def gatedRead (op : Op) (s : State) (y : Host.Outcome State Fault Refusal) : Host.Outcome State Fault Refusal :=
  match readGate s with
  | some e => raise op e s
  | none => y

theorem gatedRead_of_owned {op : Op} {s : State} {y : Host.Outcome State Fault Refusal} (h : ownedByCursor s) :
    gatedRead op s y = .next (answered s [rspHeader op.code .eMoved]) := by
  rw [gatedRead, readGate_of_owned h]; rfl

theorem gatedRead_of_not_owned {op : Op} {s : State} {y : Host.Outcome State Fault Refusal} (h : ¬ ownedByCursor s) :
    gatedRead op s y = y := by
  rw [gatedRead, readGate_of_not_owned h]

/-! ### The store reads as gated reads (R183 to R187, 45_image.md R262) -/

theorem exec_get (i : Word) (s : State) :
    exec (.get i) s = gatedRead .get s
      (if s.len.toNat ≤ i.toNat then raise .get .eIndex s
        else finish .get (do let v ← ramField s (blockIndex i) (blockOffset i); return (s, [v]))) := rfl

theorem exec_len (s : State) : exec .len s = gatedRead .len s (answerOk .len [s.len] s) := rfl

theorem exec_isemp (s : State) :
    exec .isemp s = gatedRead .isemp s (answerOk .isemp [if s.len = 0 then 1 else 0] s) := rfl

theorem exec_bytelen (s : State) :
    exec .bytelen s = gatedRead .bytelen s (answerOk .bytelen [BitVec.ofNat 32 (storeBytes s s.nblk.toNat)] s) := rfl

theorem exec_binfo (b : Word) (s : State) :
    exec (.binfo b) s = gatedRead .binfo s
      (if s.nblk.toNat ≤ b.toNat then raise .binfo .eIndex s
        else answerOk .binfo [BitVec.ofNat 32 (widthAt s b.toNat), BitVec.ofNat 32 (occAt s b.toNat)] s) := rfl

theorem exec_exportImage (s : State) :
    exec .exportImage s = gatedRead .exportImage s
      (finish .exportImage (do let blks ← loadBlocks s s.nblk.toNat; return (s, bytesBody (imageOf blks)))) := rfl

/-! ### Element `i` of `contents` (R180, R181, R189) -/

theorem contents_length {s : State} (h : StoreInv s) : (contents s).length = s.len.toNat := by
  rw [contents, valsUpTo_length, h.len_sum]

/-- Every block is full but the last, which holds the rest (R33 (c), (d)): an index below `LEN` splits into a live block and
an offset that the block holds. -/
theorem StoreInv.index_split {s : State} (h : StoreInv s) {i : Nat} (hi : i < s.len.toNat) :
    i / 256 < s.nblk.toNat ∧ i % 256 < occAt s (i / 256) := by
  have hb : i / 256 < s.nblk.toNat := by have := h.len_le; omega
  refine ⟨hb, ?_⟩
  by_cases hlast : i / 256 + 1 < s.nblk.toNat
  · rw [h.full _ hlast]; exact Nat.mod_lt i (by decide)
  · obtain ⟨hnb, -, hh, hlen⟩ := h.last_spec (Nat.zero_lt_of_lt hb)
    have hi' : i / 256 = lastBlock s := by omega
    rw [hi', hh.occ]; omega

theorem contents_getD {s : State} (h : StoreInv s) {i : Nat} (hi : i < s.len.toNat) :
    (contents s).getD i 0 = (vals s (i / 256)).getD (i % 256) 0 := by
  obtain ⟨hb, hk⟩ := h.index_split hi
  rw [contents, ← valsUpTo_getD h.full hb hk, Nat.div_add_mod']

/-- The access window of element `i` reads element `i` of `contents` (R181, R183). -/
theorem ramField_index {s : State} (h : StoreInv s) {i : Word} (hi : i.toNat < s.len.toNat) :
    ramField s (blockIndex i) (blockOffset i) = .ok ((contents s).getD i.toNat 0) := by
  obtain ⟨hb, hk⟩ := h.index_split hi
  have hh := h.holdsBlock hb
  rw [contents_getD h hi]
  exact ramField_holds hh (hh.occ ▸ hk)

/-- Settles O34: behind the gate and the bound on `i` the window of R181 reads element `i`. -/
theorem getAnswersElement : Obligations.GetAnswersElement := by
  intro i s hs
  refine ⟨rfl, contents_length hs.store, fun hm => (exec_get i s).trans (gatedRead_of_owned hm),
    fun hm hi => ?past, fun hm hi => ⟨?element, contents_getD hs.store hi⟩⟩
  case past => rw [exec_get, gatedRead_of_not_owned hm, if_pos hi]; rfl
  case element =>
    rw [exec_get, gatedRead_of_not_owned hm, if_neg hi.not_ge, ramField_index hs.store hi]; rfl

/-! ### The footprint (R186, R189) -/

theorem storeBytes_eq_sum (s : State) (n : Nat) :
    storeBytes s n = ((List.range n).map (fun b => 3 + (occAt s b * widthAt s b + 7) / 8)).sum := by
  induction n with
  | zero => rfl
  | succ n ih => rw [List.sum_range_succ, ← ih]; rfl

theorem StoreInv.imageOf_blocks_length {s : State} (h : StoreInv s) :
    (imageOf (blocks s)).length = storeBytes s s.nblk.toNat := (storeBytes_eq_image h le_rfl).symm

/-- A record has three header bytes and, at a width of at most 32 bits, at most 4 buffer bytes an element (R186, R260). -/
theorem StoreInv.storeBytes_le {s : State} (h : StoreInv s) {n : Nat} (hn : n ≤ s.nblk.toNat) :
    storeBytes s n ≤ n * 3 + occUpTo s n * 4 := by
  induction n with
  | zero => exact le_rfl
  | succ n ih =>
    have hbits : occAt s n * widthAt s n ≤ occAt s n * 32 := Nat.mul_le_mul_left _ (h.width_le n hn)
    have hblen : blen s n ≤ occAt s n * 4 := bytesFor_le_of_le (by omega)
    have := ih (by omega)
    rw [storeBytes, occUpTo]; omega

theorem StoreInv.footprint_le {s : State} (h : StoreInv s) :
    (imageOf (blocks s)).length ≤ s.nblk.toNat * 3 + s.len.toNat * 4 := by
  rw [h.imageOf_blocks_length, h.len_sum]; exact h.storeBytes_le le_rfl

/-- `NBLK = ceil(LEN / 256)` (R33 (c), (d)). -/
theorem StoreInv.nblk_eq {s : State} (h : StoreInv s) : s.nblk.toNat = (s.len.toNat + 255) / 256 := by
  rcases Nat.eq_zero_or_pos s.nblk.toNat with h0 | hpos
  · have := h.len_le; omega
  · obtain ⟨hnb, -, hh, hlen⟩ := h.last_spec hpos
    have hocc := h.occ_range (lastBlock s) (by omega)
    rw [hh.occ] at hocc
    omega

theorem StoreInv.len_eq_zero_iff {s : State} (h : StoreInv s) : s.len = 0 ↔ s.nblk = 0 := by
  have := h.nblk_eq
  rw [← BitVec.toNat_inj, ← BitVec.toNat_inj]
  simp only [BitVec.ofNat_eq_ofNat, BitVec.toNat_ofNat, Nat.zero_mod]
  omega

/-- At most `2^21` blocks of at most `3 + 1024` bytes. -/
theorem Inv.storeBytes_lt {s : State} (h : Inv s) : storeBytes s s.nblk.toNat < 2 ^ 32 := by
  have hfoot := h.store.storeBytes_le le_rfl
  have hocc := h.store.occUpTo_le le_rfl
  have hnb := h.store.nblk_le
  have hmax := h.data.nbMax_le
  omega

/-- Settles O37: `storeBytes` is the sum of R186, the length of the image, and short of 32 bits. -/
theorem bytelenAnswers : Obligations.BytelenAnswers := by
  intro s hs
  refine ⟨rfl, fun hm => (exec_bytelen s).trans (gatedRead_of_owned hm), fun hm =>
    ⟨storeBytes s s.nblk.toNat, storeBytes_eq_sum s _, hs.store.imageOf_blocks_length.symm, hs.storeBytes_lt, ?_⟩⟩
  rw [exec_bytelen, gatedRead_of_not_owned hm]; rfl

/-- Settles O40: a block count of `ceil(LEN / 256)` in the bound on the footprint. -/
theorem footprintBound : Obligations.FootprintBound := by
  intro s hs
  have hnb := hs.store.nblk_eq
  have hfoot := hs.store.footprint_le
  exact ⟨hnb, hs.store.len_eq_zero_iff, hfoot, by omega⟩

/-! ### The index split (R180, R182) -/

theorem ofNat_blockIndex (i : Word) : BitVec.ofNat 32 (blockIndex i) = i >>> 8 := by
  apply BitVec.eq_of_toNat_eq
  rw [BitVec.toNat_ushiftRight, Nat.shiftRight_eq_div_pow, BitVec.toNat_ofNat, blockIndex]
  omega

theorem ofNat_blockOffset (i : Word) : BitVec.ofNat 32 (blockOffset i) = i &&& 0xFF#32 := by
  apply BitVec.eq_of_toNat_eq
  have hmask : (i &&& 0xFF#32).toNat = i.toNat % 256 := Nat.and_two_pow_sub_one_eq_mod i.toNat 8
  rw [hmask, BitVec.toNat_ofNat, blockOffset]
  omega

theorem exec_idx (i : Word) (s : State) :
    exec (.idx i) s = .next (answered s [0x00002000#32, i >>> 8, i &&& 0xFF#32]) := by
  rw [← ofNat_blockIndex, ← ofNat_blockOffset]; rfl

/-- Settles O33: the two words of the answer are quotient and remainder by 256. -/
theorem idxAnswers : Obligations.IdxAnswers := by
  intro i s
  refine ⟨rfl, exec_idx i s, ?_⟩
  rw [← ofNat_blockIndex, ← ofNat_blockOffset, BitVec.toNat_ofNat, BitVec.toNat_ofNat, blockIndex, blockOffset]
  omega

/-! ### The reads of the registers and of a descriptor (R184, R185, R187) -/

/-- Settles O35: behind the gate `LEN` is answered. -/
theorem lenAnswers : Obligations.LenAnswers := by
  intro s
  refine ⟨rfl, fun hm => (exec_len s).trans (gatedRead_of_owned hm), fun hm => ?_⟩
  rw [exec_len, gatedRead_of_not_owned hm]; rfl

/-- Settles O36: behind the gate the answer is the test of `LEN` against 0. -/
theorem isempAnswers : Obligations.IsempAnswers := by
  intro s
  refine ⟨rfl, fun hm => (exec_isemp s).trans (gatedRead_of_owned hm), fun hm h0 => ?empty, fun hm h0 => ?nonempty⟩
  case empty => rw [exec_isemp, gatedRead_of_not_owned hm, if_pos h0]; rfl
  case nonempty => rw [exec_isemp, gatedRead_of_not_owned hm, if_neg h0]; rfl

/-- Settles O38: behind the gate the test of `b` against `NBLK`. -/
theorem binfoAnswers : Obligations.BinfoAnswers := by
  intro b s
  refine ⟨rfl, fun hm => (exec_binfo b s).trans (gatedRead_of_owned hm), fun hm hb => ?dead, fun hm hb => ?live⟩
  case dead => rw [exec_binfo, gatedRead_of_not_owned hm, if_pos hb]; rfl
  case live => rw [exec_binfo, gatedRead_of_not_owned hm, if_neg hb.not_ge]; rfl

/-! ### Only the gate answers `E_MOVED` (R188) -/

theorem setWidth_rspHeader (ope : Byte) (st : Status) : (rspHeader ope st).setWidth 8 = st.code := by
  rw [rspHeader, BitVec.setWidth_append]; simp

/-- The outcome is not that of a read the gate refused. -/
def NotMoved (op : Op) (s : State) (r : Host.Outcome State Fault Refusal) : Prop :=
  r ≠ .next (answered s [rspHeader op.code .eMoved])

namespace NotMoved

variable {op : Op} {s : State}

/-- A response with another status differs in the status byte of its header (30_encoding.md R91). -/
theorem respond {st : Status} {body : List Word} (h : st.code ≠ Status.eMoved.code) :
    NotMoved op s (.next (Machine.respond op.code st body s)) := by
  intro e
  have hout := congrArg State.outQ (Host.Outcome.next.inj e)
  simp only [respond_outQ, answered_outQ, List.append_cancel_left_eq, List.cons.injEq, and_true] at hout
  apply h
  rw [← setWidth_rspHeader op.code, hout.1, setWidth_rspHeader]

theorem raise_eIndex : NotMoved op s (raise op .eIndex s) := respond (by decide)

theorem answerOk {body : List Word} : NotMoved op s (Machine.answerOk op body s) := respond (by decide)

/-- A read of the RAM that succeeds is answered `OK`; one that fails stops. -/
theorem finishRead {α : Type} {r : Except Fault α} {body : α → List Word} :
    NotMoved op s (finish op (do let a ← r; return (s, body a))) := by
  cases r with
  | error f => exact fun e => nomatch e
  | ok a => exact answerOk

theorem ite {c : Prop} [Decidable c] {x y : Host.Outcome State Fault Refusal} (hx : NotMoved op s x)
    (hy : NotMoved op s y) : NotMoved op s (if c then x else y) := by
  split
  · exact hx
  · exact hy

end NotMoved

/-- Each of the six store reads is behind the gate, and what stands behind it never answers `E_MOVED` (R188). -/
theorem storeRead_eq_gatedRead {i : Instr}
    (hi : i.op = .get ∨ i.op = .len ∨ i.op = .isemp ∨ i.op = .bytelen ∨ i.op = .binfo ∨ i.op = .exportImage) (s : State) :
    ∃ y, exec i s = gatedRead i.op s y ∧ NotMoved i.op s y := by
  cases i with
  | get j => exact ⟨_, exec_get j s, .ite .raise_eIndex .finishRead⟩
  | len => exact ⟨_, exec_len s, .answerOk⟩
  | isemp => exact ⟨_, exec_isemp s, .answerOk⟩
  | bytelen => exact ⟨_, exec_bytelen s, .answerOk⟩
  | binfo b => exact ⟨_, exec_binfo b s, .ite .raise_eIndex .answerOk⟩
  | exportImage => exact ⟨_, exec_exportImage s, .finishRead⟩
  | _ => simp [Instr.op] at hi

/-- Settles O39: the gate refuses exactly the reads of a store an owning cursor holds; `IDX` has no gate. -/
theorem owningCursorRefusesReads : Obligations.OwningCursorRefusesReads := by
  intro i s hi
  obtain ⟨y, hexec, hy⟩ := storeRead_eq_gatedRead hi s
  rw [hexec]
  refine ⟨⟨gatedRead_of_owned, fun hm => ?_⟩, fun x => exec_idx x s⟩
  rwa [gatedRead_of_not_owned hm]

end Sys2Proof.Machine

namespace Sys2Proof.Machine

/-! ### The mutation gate (43_store_mutation.md R200) -/

/-- A store-changing command: the outcome `y` behind the mutation gate. -/
def gatedMutation (op : Op) (s : State) (y : Host.Outcome State Fault Refusal) : Host.Outcome State Fault Refusal :=
  match mutationGate s with
  | some e => raise op e s
  | none => y

theorem gatedMutation_of_owning {op : Op} {s : State} {y : Host.Outcome State Fault Refusal} (ho : s.cOpen = true)
    (hw : s.cOwn = true) : gatedMutation op s y = .next (answered s [rspHeader op.code .eMoved]) := by
  have hgate : mutationGate s = some .eMoved := by simp [mutationGate, ho, hw]
  rw [gatedMutation, hgate]; rfl

theorem gatedMutation_of_borrowing {op : Op} {s : State} {y : Host.Outcome State Fault Refusal} (ho : s.cOpen = true)
    (hw : s.cOwn = false) : gatedMutation op s y = .next (answered s [rspHeader op.code .eBorrowed]) := by
  have hgate : mutationGate s = some .eBorrowed := by simp [mutationGate, ho, hw]
  rw [gatedMutation, hgate]; rfl

theorem gatedMutation_of_closed {op : Op} {s : State} {y : Host.Outcome State Fault Refusal} (hc : s.cOpen = false) :
    gatedMutation op s y = y := by
  rw [gatedMutation, mutationGate_eq_none.mpr hc]

/-! ### The store-changing commands behind the gate (R201 to R206, 45_image.md R263) -/

theorem exec_new (s : State) : exec .new s = gatedMutation .new s (answerOk .new [] (emptyStore s)) := rfl

/-- The state that a `PUSH` appends to: with a fresh last block where one is needed (R202). -/
def pushBase (s : State) : State := if needsBlock s then openBlock s else s

theorem exec_push (v : Word) (s : State) :
    exec (.push v) s = gatedMutation .push s
      (if needsBlock s && s.nblk.toNat = s.nbMax then raise .push .eFull s
        else finish .push (do let s1 ← pushLast v (pushBase s); return (s1, []))) := rfl

theorem exec_pop (s : State) :
    exec .pop s = gatedMutation .pop s
      (if s.len = 0 then answerNone .pop s
        else finish .pop (do let p ← popLast s; return (p.1, [p.2]))) := rfl

theorem exec_build (vs : List Word) (s : State) :
    exec (.build vs) s = gatedMutation .build s
      (if s.nbMax * 256 < vs.length then raise .build .eFull s
        else finish .build (do let s1 ← replaceStore (blocksOf vs) s; return (s1, []))) := rfl

/-- `IMPORT` behind the gate. -/
def importBody (d : List Byte) (s : State) : Host.Outcome State Fault Refusal :=
  match parseImage d with
  | none => raise .importImage .eMalformed s
  | some blks =>
    if s.nbMax < blks.length then raise .importImage .eFull s
    else finish .importImage (do let s1 ← replaceStore blks s; return (s1, []))

theorem exec_importImage (d : List Byte) (s : State) :
    exec (.importImage d) s = gatedMutation .importImage s (importBody d s) := rfl

/-- Each of the five store-changing commands is behind the gate, whatever its operands (R200). -/
theorem mutation_eq_gatedMutation {i : Instr}
    (hi : i.op = .new ∨ i.op = .push ∨ i.op = .pop ∨ i.op = .build ∨ i.op = .importImage) (s : State) :
    ∃ y, exec i s = gatedMutation i.op s y := by
  cases i with
  | new => exact ⟨_, exec_new s⟩
  | push v => exact ⟨_, exec_push v s⟩
  | pop => exact ⟨_, exec_pop s⟩
  | build vs => exact ⟨_, exec_build vs s⟩
  | importImage d => exact ⟨_, exec_importImage d s⟩
  | _ => simp [Instr.op] at hi

/-- Settles O41: the gate answers before the command looks at its operands. -/
theorem openCursorRefusesMutation : Obligations.OpenCursorRefusesMutation := by
  intro i s hi ho
  obtain ⟨y, hexec⟩ := mutation_eq_gatedMutation hi s
  rw [hexec]
  exact ⟨fun hw => gatedMutation_of_owning ho hw, fun hw => gatedMutation_of_borrowing ho hw⟩

/-- Settles O42: behind the gate `NBLK` and `LEN` are written. -/
theorem newAnswers : Obligations.NewAnswers := by
  intro s
  refine ⟨rfl, fun ho hw => (exec_new s).trans (gatedMutation_of_owning ho hw),
    fun ho hw => (exec_new s).trans (gatedMutation_of_borrowing ho hw), fun hc => ?_⟩
  rw [exec_new, gatedMutation_of_closed hc]; rfl

/-! ### What an answer and a change of one block leave alone -/

theorem holdsBlock_respond {s : State} {b w : Nat} {vs : List Word} (h : HoldsBlock s b w vs) (ope : Byte) (st : Status)
    (body : List Word) : HoldsBlock (respond ope st body s) b w vs := h.congr rfl rfl rfl fun _ _ => rfl

theorem SameCursor.respond {s t : State} (h : SameCursor s t) (ope : Byte) (st : Status) (body : List Word) :
    SameCursor s (respond ope st body t) := by
  obtain ⟨hOpen, hOwn, hBlk, hCnt, hPos, hBitoff, hCache⟩ := h
  exact ⟨hOpen, hOwn, hBlk, hCnt, hPos, hBitoff, hCache⟩

theorem SameOutside.respond {b : Nat} {s t : State} (h : SameOutside b s t) (ope : Byte) (st : Status)
    (body : List Word) : SameOutside b s (respond ope st body t) := by
  obtain ⟨hn, hw, hk, hr, hcur⟩ := h
  exact ⟨hn, hw, hk, hr, hcur.respond ope st body⟩

theorem OnlyBlock.samePort {b : Nat} {s t : State} (h : OnlyBlock b s t) : SamePort s t := by
  rw [h.rest]; exact ⟨rfl, rfl, rfl⟩

theorem OnlyBlocks.samePort {b n : Nat} {s t : State} (h : OnlyBlocks b n s t) : SamePort s t := by
  rw [h.rest]; exact ⟨rfl, rfl, rfl⟩

/-- A change of block `b` leaves the Values of the blocks before it. -/
theorem OnlyBlock.valsUpTo {b : Nat} {s t : State} (h : OnlyBlock b s t) : valsUpTo t b = Machine.valsUpTo s b :=
  valsUpTo_congr fun j hj => h.vals (by omega)

/-- The contents of a store whose block count is known. -/
theorem contents_of_nblk {s : State} {n : Nat} (h : s.nblk.toNat = n) : contents s = valsUpTo s n := by
  rw [contents, h]

/-! ### `PUSH` (R202, R203, R208) -/

/-- The block that a `PUSH` appends to (R202). -/
def pushBlock (s : State) : Nat := if pushOpensBlock s then s.nblk.toNat else s.nblk.toNat - 1

/-- The width of that block before the `PUSH`, 0 for a fresh one (R202). -/
def pushWidth (s : State) : Nat := if pushOpensBlock s then 0 else widthAt s (pushBlock s)

/-- The Values of that block before the `PUSH`. -/
def pushVals (s : State) : List Word := if pushOpensBlock s then [] else vals s (pushBlock s)

theorem push_of_opens {s : State} (h : pushOpensBlock s) :
    pushBlock s = s.nblk.toNat ∧ pushWidth s = 0 ∧ pushVals s = [] :=
  ⟨if_pos h, if_pos h, if_pos h⟩

theorem push_of_not_opens {s : State} (h : ¬ pushOpensBlock s) :
    pushBlock s = lastBlock s ∧ pushBlock s + 1 = s.nblk.toNat ∧ pushWidth s = widthAt s (pushBlock s) ∧
      pushVals s = vals s (pushBlock s) := by
  have hb : pushBlock s = s.nblk.toNat - 1 := if_neg h
  have h0 : s.nblk.toNat ≠ 0 := fun h0 => h (.inl h0)
  exact ⟨hb, by omega, if_neg h, if_neg h⟩

/-- The contents end with the Values of the block that a `PUSH` appends to. -/
theorem contents_eq_append_pushVals (s : State) : contents s = valsUpTo s (pushBlock s) ++ pushVals s := by
  by_cases h : pushOpensBlock s
  · obtain ⟨hb, -, hvs⟩ := push_of_opens h
    rw [hvs, List.append_nil, contents_of_nblk hb.symm]
  · obtain ⟨-, hnb, -, hvs⟩ := push_of_not_opens h
    rw [hvs, contents_of_nblk hnb.symm]; rfl

/-- A `PUSH` that is not refused finds room in that block. -/
theorem pushBase_hasRoom {s : State} (hi : Inv s) (hroom : ¬ (pushOpensBlock s ∧ s.nblk.toNat = s.nbMax)) :
    HasRoom s (pushBase s) (pushWidth s) (pushVals s) ∧ lastBlock (pushBase s) = pushBlock s ∧
      (pushBase s).len = s.len := by
  by_cases h : pushOpensBlock s
  · have hn : needsBlock s = true := (needsBlock_iff s).mpr h
    obtain ⟨hb, hw, hvs⟩ := push_of_opens h
    have hslot : s.nblk.toNat ≠ s.nbMax := fun hfull => hroom ⟨h, hfull⟩
    have hr := openBlock_hasRoom hi.data hi.store hn hslot
    obtain ⟨-, -, hlast, -⟩ := openBlock_holds (lt_of_le_of_ne hi.store.nblk_le hslot) hi.data.nbMax_le
    rw [pushBase, if_pos hn, hw, hvs, hb]
    exact ⟨hr, hlast, rfl⟩
  · have hn : needsBlock s ≠ true := mt (needsBlock_iff s).mp h
    obtain ⟨hb, -, hw, hvs⟩ := push_of_not_opens h
    rw [pushBase, if_neg hn, hw, hvs, hb]
    exact ⟨last_hasRoom hi.store hn, rfl, rfl⟩

/-- `t` is where a `PUSH` of `v` on `s` ends, but for the answer: one block has changed, and it holds one more Value. -/
structure Pushed (v : Word) (s t : State) : Prop where
  only : OnlyBlock (pushBlock s) s t
  nblk : t.nblk.toNat = pushBlock s + 1
  len : t.len.toNat = s.len.toNat + 1
  holds : HoldsBlock t (pushBlock s) (max (pushWidth s) (bitsNeeded v)) (pushVals s ++ [v])

theorem pushLast_pushed (v : Word) {s : State} (hi : Inv s) (hroom : ¬ (pushOpensBlock s ∧ s.nblk.toNat = s.nbMax)) :
    ∃ t, pushLast v (pushBase s) = .ok t ∧ Pushed v s t := by
  obtain ⟨hr, hlast, hlen⟩ := pushBase_hasRoom hi hroom
  obtain ⟨t, e, -⟩ := pushLast_holds v (hr.only.nbMax ▸ hr.inside) hr.holds hr.room
  obtain ⟨ho, hnb, hlen', hh⟩ := hr.push_holds e
  have hsum := hr.len
  have hin := hr.inside
  have hvs := hr.room
  have hmax := hi.data.nbMax_le
  rw [hlast] at ho hnb hh
  refine ⟨t, e, ho, hnb, ?_, hh⟩
  rw [hlen', BitVec.toNat_ofNat, Nat.mod_eq_of_lt (by omega), hlen]

/-- Everything a `PUSH` does where neither the cursor nor a lack of slots refuses it. -/
theorem exec_push_pushed (v : Word) {s : State} (hi : Inv s) (hc : s.cOpen = false)
    (hroom : ¬ (pushOpensBlock s ∧ s.nblk.toNat = s.nbMax)) :
    ∃ t, exec (.push v) s = .next (respond Op.push.code .ok [] t) ∧ Pushed v s t := by
  obtain ⟨t, e, ht⟩ := pushLast_pushed v hi hroom
  have hcheck : ¬ (needsBlock s && s.nblk.toNat = s.nbMax) = true := by
    rwa [Bool.and_eq_true, needsBlock_iff, decide_eq_true_iff]
  refine ⟨t, ?_, ht⟩
  rw [exec_push, gatedMutation_of_closed hc, if_neg hcheck, e]; rfl

theorem exec_push_full (v : Word) {s : State} (hc : s.cOpen = false) (h : pushOpensBlock s)
    (hfull : s.nblk.toNat = s.nbMax) : exec (.push v) s = .next (answered s [rspHeader Op.push.code .eFull]) := by
  have hcheck : (needsBlock s && s.nblk.toNat = s.nbMax) = true := by
    rw [Bool.and_eq_true, needsBlock_iff, decide_eq_true_iff]; exact ⟨h, hfull⟩
  rw [exec_push, gatedMutation_of_closed hc, if_pos hcheck]; rfl

theorem Pushed.contents {v : Word} {s t : State} (h : Pushed v s t) : contents t = Machine.contents s ++ [v] := by
  calc Machine.contents t
    _ = valsUpTo t (pushBlock s) ++ vals t (pushBlock s) := contents_of_nblk h.nblk
    _ = valsUpTo s (pushBlock s) ++ (pushVals s ++ [v]) := by rw [h.only.valsUpTo, h.holds.vals]
    _ = Machine.contents s ++ [v] := by rw [contents_eq_append_pushVals, List.append_assoc]

/-- Settles O43: the gate, the lack of a slot, and the block that holds one more Value. -/
theorem pushAnswers : Obligations.PushAnswers := by
  intro v s hi
  refine ⟨rfl, fun ho hw => (exec_push v s).trans (gatedMutation_of_owning ho hw),
    fun ho hw => (exec_push v s).trans (gatedMutation_of_borrowing ho hw), fun hc h hfull => exec_push_full v hc h hfull,
    fun hc hroom => ?_⟩
  obtain ⟨t, hexec, ho, hnb, hlen, hh⟩ := exec_push_pushed v hi hc hroom
  have hh' := holdsBlock_respond hh Op.push.code .ok []
  have hport := ho.samePort
  refine ⟨respond Op.push.code .ok [] t, pushBlock s, pushWidth s, pushVals s, rfl, rfl, rfl, hexec, ?_, hport.inQ, hnb,
    hlen, ?_, hh'.width, hh'.vals, hh'.width.symm ▸ hh'.buf, ho.sameOutside.respond _ _ _⟩
  · rw [respond_outQ, hport.outQ]; rfl
  · rw [hh'.occ, List.length_append]; rfl

/-- Settles O44: the contents end with the Values of the block appended to. -/
theorem pushAppendsToContents : Obligations.PushAppendsToContents := by
  intro v s hi hc hroom
  obtain ⟨t, hexec, ht⟩ := exec_push_pushed v hi hc hroom
  exact ⟨_, hexec, (contents_respond _ _ _ t).trans ht.contents⟩

end Sys2Proof.Machine

namespace Sys2Proof.Machine

/-! ### `POP` (R204, R205) -/

/-- `t` is where a `POP` of `v` on `s` ends, but for the answer: only the last block has changed, it holds the Values `vs`
that were before `v` at the width it had, and it is live no more when there are none. -/
structure Popped (v : Word) (vs : List Word) (s t : State) : Prop where
  vals : Machine.vals s (lastBlock s) = vs ++ [v]
  live : s.nblk.toNat = lastBlock s + 1
  only : OnlyBlock (lastBlock s) s t
  nblk : t.nblk.toNat = if vs = [] then lastBlock s else lastBlock s + 1
  len : t.len.toNat + 1 = s.len.toNat
  holds : HoldsBlock t (lastBlock s) (widthAt s (lastBlock s)) vs

theorem popLast_popped {s : State} (hs : StoreInv s) (hl : s.len ≠ 0) :
    ∃ t v vs, popLast s = .ok (t, v) ∧ Popped v vs s t := by
  have hpos := hs.nblk_pos_of_len hl
  have hmax := hs.nblk_le
  obtain ⟨hnb, -, hh, hsum⟩ := hs.last_spec hpos
  have hne : vals s (lastBlock s) ≠ [] :=
    List.ne_nil_of_length_pos (hh.occ ▸ (hs.occ_range (lastBlock s) (by omega)).1)
  obtain ⟨vs, v, hvs⟩ := (List.eq_nil_or_concat' _).resolve_left hne
  rw [hvs] at hh
  obtain ⟨t, e, ho, hnblk, hlen, hh'⟩ := popLast_holds hpos.ne' (by omega) hh
  refine ⟨t, v, vs, e, hvs, hnb, ho, ?_, ?_, hh'⟩
  · have := s.nblk.isLt
    rw [hnblk, apply_ite BitVec.toNat, BitVec.toNat_ofNat, Nat.mod_eq_of_lt (by omega), hnb, Nat.add_sub_cancel]
  · have := s.len.isLt
    rw [hvs, List.length_append, List.length_singleton] at hsum
    rw [hlen, BitVec.toNat_ofNat, Nat.mod_eq_of_lt (by omega)]
    omega

/-- Everything a `POP` does where no cursor refuses it and the store is not empty. -/
theorem exec_pop_popped {s : State} (hs : StoreInv s) (hc : s.cOpen = false) (hl : s.len ≠ 0) :
    ∃ t v vs, exec .pop s = .next (respond Op.pop.code .ok [v] t) ∧ Popped v vs s t := by
  obtain ⟨t, v, vs, e, ht⟩ := popLast_popped hs hl
  refine ⟨t, v, vs, ?_, ht⟩
  rw [exec_pop, gatedMutation_of_closed hc, if_neg hl, e]; rfl

theorem exec_pop_empty {s : State} (hc : s.cOpen = false) (hl : s.len = 0) :
    exec .pop s = .next (answered s [rspHeader Op.pop.code .none]) := by
  rw [exec_pop, gatedMutation_of_closed hc, if_pos hl]; rfl

/-- Whether or not the block is removed, the contents end with the Values it still holds. -/
theorem Popped.contents_after {v : Word} {vs : List Word} {s t : State} (h : Popped v vs s t) :
    contents t = valsUpTo s (lastBlock s) ++ vs := by
  rw [← h.only.valsUpTo]
  by_cases hvs : vs = []
  · rw [contents_of_nblk (h.nblk.trans (if_pos hvs)), hvs, List.append_nil]
  · rw [contents_of_nblk (h.nblk.trans (if_neg hvs)), valsUpTo, h.holds.vals]

theorem Popped.contents {v : Word} {vs : List Word} {s t : State} (h : Popped v vs s t) :
    Machine.contents s = Machine.contents t ++ [v] := by
  calc Machine.contents s
    _ = valsUpTo s (lastBlock s) ++ Machine.vals s (lastBlock s) := contents_of_nblk h.live
    _ = Machine.contents t ++ [v] := by rw [h.vals, h.contents_after, List.append_assoc]

/-- Settles O45: the gate, the empty store, and the last block without its last Value. -/
theorem popAnswers : Obligations.PopAnswers := by
  intro s hi
  refine ⟨rfl, fun ho hw => (exec_pop s).trans (gatedMutation_of_owning ho hw),
    fun ho hw => (exec_pop s).trans (gatedMutation_of_borrowing ho hw), fun hc hl => exec_pop_empty hc hl, fun hc hl => ?_⟩
  obtain ⟨t, v, vs, hexec, ht⟩ := exec_pop_popped hi.store hc hl
  have hh := holdsBlock_respond ht.holds Op.pop.code .ok [v]
  have hport := ht.only.samePort
  have hocc : occAt s (lastBlock s) = vs.length + 1 := by
    rw [(hi.store.holdsBlock (by have := ht.live; omega)).occ, ht.vals, List.length_append]; rfl
  refine ⟨respond Op.pop.code .ok [v] t, v, lastBlock s, ht.live.symm, hexec, ?_, hport.inQ, ht.len, ?_, hh.width, ?_, ?_,
    hh.vals.symm ▸ hh.buf, ?_, ht.only.sameOutside.respond _ _ _⟩
  · rw [respond_outQ, hport.outQ]; rfl
  · rw [hh.occ, hocc]
  · simp only [hh.occ, List.length_eq_zero_iff]; exact ht.nblk
  · rw [hh.vals]; exact ht.vals
  · rw [contents_respond]; exact ht.contents

/-! ### `PUSH` and then `POP` (R207 (d)) -/

/-- A block that holds Values is their packed form. -/
theorem HoldsBlock.blockAt {s : State} {b w : Nat} {vs : List Word} (h : HoldsBlock s b w vs) :
    blockAt s b = packed (w, vs) := by
  rw [Machine.blockAt, h.width, h.occ, h.bufOf]; rfl

/-- Two stores have the same blocks when each holds the same Values at the same width. -/
theorem blocks_eq_of_holds {s t : State} (hn : t.nblk = s.nblk)
    (h : ∀ b, b < s.nblk.toNat → ∃ w vs, HoldsBlock s b w vs ∧ HoldsBlock t b w vs) : blocks t = blocks s := by
  rw [blocks, blocks, hn]
  refine List.map_congr_left fun b hb => ?_
  obtain ⟨w, vs, hs, ht⟩ := h b (List.mem_range.mp hb)
  rw [hs.blockAt, ht.blockAt]

theorem blocks_respond (ope : Byte) (st : Status) (body : List Word) (s : State) :
    blocks (respond ope st body s) = blocks s :=
  List.map_congr_left fun b _ => by rw [blockAt, bufOf, buf_respond]; rfl

/-- A `POP` after the `PUSH` works on the block pushed to. -/
theorem Pushed.lastBlock_respond {v : Word} {s t : State} (h : Pushed v s t) (ope : Byte) (st : Status)
    (body : List Word) : lastBlock (respond ope st body t) = pushBlock s := by
  rw [lastBlock, respond_nblk, h.nblk, Nat.add_sub_cancel]

/-- `t1` is where a `PUSH` of `v` on `s` ends and `t` is where the `POP` after it ends, but for the answers: it took `v`
and left the Values that were there before. -/
structure PushedThenPopped (v : Word) (s t1 t : State) : Prop where
  push : Pushed v s t1
  pop : Popped v (pushVals s) (respond Op.push.code .ok [] t1) t

theorem exec_push_then_pop (v : Word) {s : State} (hi : Inv s) (hc : s.cOpen = false)
    (hroom : ¬ (pushOpensBlock s ∧ s.nblk.toNat = s.nbMax)) :
    ∃ t1 t, runAll [.push v, .pop] s = some (respond Op.pop.code .ok [v] t) ∧ PushedThenPopped v s t1 t := by
  obtain ⟨t1, hpush, h1⟩ := exec_push_pushed v hi hc hroom
  have hl : t1.len ≠ 0 := fun h0 => by have := h1.len; simp [h0] at this
  obtain ⟨t, u, us, hpop, h2⟩ := exec_pop_popped (exec_inv hi hpush).store (h1.only.sameCursor.cOpen.trans hc) hl
  have hvals := h2.vals
  rw [h1.lastBlock_respond, (holdsBlock_respond h1.holds _ _ _).vals] at hvals
  obtain ⟨rfl, hv⟩ := List.append_inj' hvals rfl
  obtain rfl : v = u := List.singleton_inj.mp hv
  refine ⟨t1, t, ?_, h1, h2⟩
  simp only [runAll, hpush, hpop]

namespace PushedThenPopped

variable {v : Word} {s t1 t : State}

theorem contents (h : PushedThenPopped v s t1 t) : contents t = Machine.contents s := by
  have hc := h.pop.contents
  rw [contents_respond, h.push.contents] at hc
  exact (List.append_cancel_right hc).symm

theorem len (h : PushedThenPopped v s t1 t) : t.len = s.len := by
  have h1 := h.push.len
  have h2 := h.pop.len
  rw [respond_len] at h2
  exact BitVec.eq_of_toNat_eq (by omega)

/-- The block that a `PUSH` opened is removed again; one that had Values stays. -/
theorem nblk (h : PushedThenPopped v s t1 t) (hs : StoreInv s) : t.nblk = s.nblk := by
  apply BitVec.eq_of_toNat_eq
  rw [h.pop.nblk, h.push.lastBlock_respond]
  by_cases ho : pushOpensBlock s
  · obtain ⟨hb, -, hvs⟩ := push_of_opens ho
    rw [if_pos hvs, hb]
  · obtain ⟨-, hnb, -, hvs⟩ := push_of_not_opens ho
    have hh := hs.holdsBlock (b := pushBlock s) (by omega)
    have hpos := (hs.occ_range (pushBlock s) (by omega)).1
    have hne : pushVals s ≠ [] := hvs ▸ List.ne_nil_of_length_pos (hh.occ ▸ hpos)
    rw [if_neg hne, hnb]

/-- Another block is held as before. -/
theorem holds {j w : Nat} {vs : List Word} (h : PushedThenPopped v s t1 t) (hj : j ≠ pushBlock s)
    (hh : HoldsBlock s j w vs) : HoldsBlock t j w vs :=
  h.pop.only.holds (h.push.lastBlock_respond _ _ _ ▸ hj) (holdsBlock_respond (h.push.only.holds hj hh) _ _ _)

/-- The block pushed to holds its Values again, at the width the `PUSH` left (R204). -/
theorem holds_pushBlock (h : PushedThenPopped v s t1 t) :
    HoldsBlock t (pushBlock s) (max (pushWidth s) (bitsNeeded v)) (pushVals s) := by
  have hh := h.pop.holds
  rwa [h.push.lastBlock_respond, widthAt_respond, h.push.holds.width] at hh

theorem blocks (h : PushedThenPopped v s t1 t) (hs : StoreInv s)
    (hw : pushOpensBlock s ∨ bitsNeeded v ≤ widthAt s (s.nblk.toNat - 1)) : blocks t = Machine.blocks s := by
  refine blocks_eq_of_holds (h.nblk hs) fun b hb => ⟨_, _, hs.holdsBlock hb, ?_⟩
  by_cases hne : b ≠ pushBlock s
  · exact h.holds hne (hs.holdsBlock hb)
  · obtain rfl : b = pushBlock s := not_not.mp hne
    have ho : ¬ pushOpensBlock s := fun ho => by
      obtain ⟨hbl, -⟩ := push_of_opens ho
      omega
    obtain ⟨hlast, -, hwidth, hvs⟩ := push_of_not_opens ho
    have hle : bitsNeeded v ≤ widthAt s (pushBlock s) := by rw [hlast]; exact hw.resolve_left ho
    have hh := h.holds_pushBlock
    rwa [hwidth, hvs, max_eq_left hle] at hh

end PushedThenPopped

/-- Settles O46: the `POP` finds the block that the `PUSH` left, and takes off it what the `PUSH` put there. -/
theorem pushThenPopRestores : Obligations.PushThenPopRestores := by
  intro v s hi hc hroom
  obtain ⟨t1, t, hrun, h⟩ := exec_push_then_pop v hi hc hroom
  refine ⟨_, hrun, ?_, (contents_respond _ _ _ t).trans h.contents, h.len, h.nblk hi.store,
    fun hw => (blocks_respond _ _ _ t).trans (h.blocks hi.store hw)⟩
  rw [respond_outQ, h.pop.only.samePort.outQ, respond_outQ, h.push.only.samePort.outQ, List.append_assoc]; rfl

end Sys2Proof.Machine

namespace Sys2Proof.Machine

/-! ### `BUILD` (R206) -/

/-- The Values of block `b` of a sequence (R206). -/
def chunk (vs : List Word) (b : Nat) : List Word := (vs.drop (b * 256)).take 256

theorem chunksOf_getElem {n b : Nat} {vs : List Word} (hb : b < (chunksOf n vs).length) :
    (chunksOf n vs)[b] = chunk vs b := by
  induction n generalizing b vs with
  | zero => exact absurd hb (Nat.not_lt_zero b)
  | succ n ih =>
    cases b with
    | zero => simp [chunksOf, chunk]
    | succ b =>
      simp only [chunksOf, List.getElem_cons_succ]
      rw [ih, chunk, chunk, List.drop_drop, Nat.succ_mul, Nat.add_comm]

/-- Blocks that hold the chunks of a sequence hold its Values. -/
theorem valsUpTo_eq_take {s : State} {vs : List Word} {n : Nat} (h : ∀ b, b < n → vals s b = chunk vs b) :
    valsUpTo s n = vs.take (n * 256) := by
  induction n with
  | zero => simp [valsUpTo]
  | succ n ih =>
    rw [valsUpTo, ih fun b hb => h b (by omega), h n (by omega), chunk, Nat.succ_mul, List.take_add]

/-- `t` is where a `BUILD` of `vs` on `s` ends, but for the answer. -/
structure Built (vs : List Word) (s t : State) : Prop where
  only : OnlyBlocks 0 ((vs.length + 255) / 256) s t
  nblk : t.nblk.toNat = (vs.length + 255) / 256
  store : StoreInv t
  holds : ∀ b, b < t.nblk.toNat → HoldsBlock t b (bitsNeeded (maxValue (chunk vs b))) (chunk vs b)

theorem replaceStore_built {vs : List Word} {s : State} (hd : DataInv s) (hle : vs.length ≤ s.nbMax * 256) :
    ∃ t, replaceStore (blocksOf vs) s = .ok t ∧ Built vs s t := by
  have hstack := build_stackable vs
  have hlen : ((chunksOf ((vs.length + 255) / 256) vs).map minimalPair).length = (vs.length + 255) / 256 := by
    rw [List.length_map, chunksOf_length]
  have hslots : ((chunksOf ((vs.length + 255) / 256) vs).map minimalPair).length ≤ s.nbMax := by omega
  rw [blocksOf_eq_packed]
  obtain ⟨t, e, -⟩ := replaceStore_holds (fun p hp => (hstack.mem p hp).1) hslots
  obtain ⟨ho, hn, hh, hs⟩ := replaceStore_stackable hd hstack hslots e
  rw [hlen] at ho hn
  refine ⟨t, e, ho, hn, hs, fun b hb => ?_⟩
  have hb' := hh b (by omega)
  rwa [List.getElem_map, chunksOf_getElem] at hb'

/-- Everything a `BUILD` does where neither the cursor nor its length refuses it. -/
theorem exec_build_built {vs : List Word} {s : State} (hd : DataInv s) (hc : s.cOpen = false)
    (hle : vs.length ≤ s.nbMax * 256) :
    ∃ t, exec (.build vs) s = .next (respond Op.build.code .ok [] t) ∧ Built vs s t := by
  obtain ⟨t, e, ht⟩ := replaceStore_built hd hle
  refine ⟨t, ?_, ht⟩
  rw [exec_build, gatedMutation_of_closed hc, if_neg hle.not_gt, e]; rfl

theorem exec_build_full {vs : List Word} {s : State} (hc : s.cOpen = false) (hgt : s.nbMax * 256 < vs.length) :
    exec (.build vs) s = .next (answered s [rspHeader Op.build.code .eFull]) := by
  rw [exec_build, gatedMutation_of_closed hc, if_pos hgt]; rfl

theorem Built.contents {vs : List Word} {s t : State} (h : Built vs s t) : contents t = vs := by
  rw [Machine.contents, valsUpTo_eq_take fun b hb => (h.holds b hb).vals, List.take_of_length_le]
  have := h.nblk
  omega

theorem Built.len {vs : List Word} {s t : State} (h : Built vs s t) : t.len.toNat = vs.length := by
  rw [← contents_length h.store, h.contents]

theorem Built.minimal {vs : List Word} {s t : State} (h : Built vs s t) : minimalWidths t := fun b hb => by
  rw [(h.holds b hb).width, (h.holds b hb).vals]

/-- Settles O47: the gate, the bound on the length, and the blocks that hold the chunks of the sequence. -/
theorem buildAnswers : Obligations.BuildAnswers := by
  intro vs s hi
  refine ⟨rfl, fun ho hw => (exec_build vs s).trans (gatedMutation_of_owning ho hw),
    fun ho hw => (exec_build vs s).trans (gatedMutation_of_borrowing ho hw), fun hc hgt => exec_build_full hc hgt,
    fun hc hle => ?_⟩
  obtain ⟨t, hexec, h⟩ := exec_build_built hi.data hc hle
  have hport := h.only.samePort
  have hnb := h.nblk
  refine ⟨respond Op.build.code .ok [] t, hexec, ?_, hport.inQ, hport.nbMax, hnb, h.len, fun b hb => ?block,
    (contents_respond _ _ _ t).trans h.contents,
    h.only.sameCursor.respond _ _ _, fun b hb => ?descriptor, fun a ha => ?ram⟩
  · rw [respond_outQ, hport.outQ]; rfl
  case block =>
    have hh := holdsBlock_respond (h.holds b hb) Op.build.code .ok []
    exact ⟨hh.width, hh.occ, hh.width.symm ▸ hh.buf⟩
  case descriptor =>
    rw [respond_nblk, hnb] at hb
    exact ⟨h.only.width b (by omega), h.only.occ b (by omega)⟩
  case ram =>
    rw [respond_nblk, hnb] at ha
    exact h.only.ramByte (by omega)

/-! ### `BUILD` and the pushes (R207 (a)) -/

/-- Every block of a store in shape holds its chunk of the contents (R33 (c), R180). -/
theorem valsUpTo_chunk {s : State} {n b : Nat} (hfull : ∀ j, j + 1 < n → occAt s j = 256)
    (hle : ∀ j, j < n → occAt s j ≤ 256) (hb : b < n) : chunk (valsUpTo s n) b = vals s b := by
  induction n with
  | zero => exact absurd hb (Nat.not_lt_zero b)
  | succ n ih =>
    have hlen : (valsUpTo s n).length = n * 256 := by
      rw [valsUpTo_length, occUpTo_full fun j hj => hfull j (by omega)]
    rw [valsUpTo]
    rcases Nat.lt_succ_iff_lt_or_eq.mp hb with hlt | rfl
    · rw [← ih (fun j hj => hfull j (by omega)) (fun j hj => hle j (by omega)) hlt, chunk, chunk,
        List.drop_append_of_le_length (by omega), List.take_append_of_le_length (by rw [List.length_drop]; omega)]
    · rw [chunk, ← hlen, List.drop_left, List.take_of_length_le]
      simpa [vals] using hle b hb

theorem StoreInv.chunk_contents {s : State} (h : StoreInv s) {b : Nat} (hb : b < s.nblk.toNat) :
    chunk (contents s) b = vals s b :=
  valsUpTo_chunk h.full (fun j hj => (h.occ_range j hj).2) hb

/-- `s` is in shape with no cursor open, its contents are `vs`, and every width is minimal. -/
structure StoresMinimally (vs : List Word) (s : State) : Prop where
  inv : Inv s
  closed : s.cOpen = false
  contents : contents s = vs
  minimal : minimalWidths s

namespace StoresMinimally

variable {vs : List Word} {s t : State}

/-- The contents determine each block: its Values are its chunk, its width what they need. -/
theorem holds (h : StoresMinimally vs s) {b : Nat} (hb : b < s.nblk.toNat) :
    HoldsBlock s b (bitsNeeded (maxValue (chunk vs b))) (chunk vs b) := by
  have hh := h.inv.store.holdsBlock hb
  rwa [h.minimal b hb, ← h.inv.store.chunk_contents hb, h.contents] at hh

theorem len (h : StoresMinimally vs s) : s.len.toNat = vs.length := by
  rw [← contents_length h.inv.store, h.contents]

/-- Minimal widths and the contents determine the whole store. -/
theorem unique (hs : StoresMinimally vs s) (ht : StoresMinimally vs t) :
    s.nblk = t.nblk ∧ s.len = t.len ∧ blocks s = blocks t := by
  have hn : s.nblk = t.nblk :=
    BitVec.eq_of_toNat_eq (by rw [hs.inv.store.nblk_eq, ht.inv.store.nblk_eq, hs.len, ht.len])
  refine ⟨hn, BitVec.eq_of_toNat_eq (hs.len.trans ht.len.symm), blocks_eq_of_holds hn fun b hb => ?_⟩
  exact ⟨_, _, ht.holds hb, hs.holds (hn ▸ hb)⟩

end StoresMinimally

theorem exec_new_storesMinimally {s : State} (hi : Inv s) (hc : s.cOpen = false) :
    ∃ t, exec .new s = .next t ∧ StoresMinimally [] t := by
  have hexec : exec .new s = .next (respond Op.new.code .ok [] (emptyStore s)) :=
    (exec_new s).trans (gatedMutation_of_closed hc)
  exact ⟨_, hexec, exec_inv hi hexec, hc, rfl, minimalWidths_of_empty rfl⟩

theorem exec_build_storesMinimally {vs : List Word} {s : State} (hi : Inv s) (hc : s.cOpen = false)
    (hle : vs.length ≤ s.nbMax * 256) : ∃ t, exec (.build vs) s = .next t ∧ StoresMinimally vs t := by
  obtain ⟨t, hexec, h⟩ := exec_build_built hi.data hc hle
  exact ⟨_, hexec, exec_inv hi hexec, h.only.sameCursor.cOpen.trans hc, (contents_respond _ _ _ t).trans h.contents,
    minimalWidths_respond h.minimal _ _ _⟩

/-- A store whose next `PUSH` opens a block has only full blocks. -/
theorem StoreInv.len_of_opens {s : State} (h : StoreInv s) (ho : pushOpensBlock s) :
    s.len.toNat = s.nblk.toNat * 256 := by
  by_cases h0 : s.nblk.toNat = 0
  · have := h.len_le
    omega
  · obtain ⟨hnb, -, hh, hsum⟩ := h.last_spec (Nat.pos_of_ne_zero h0)
    have hfull : occAt s (lastBlock s) = 256 := ho.resolve_left h0
    rw [hsum, hnb, ← hh.occ, hfull, Nat.succ_mul]

theorem exec_push_storesMinimally {us : List Word} {s : State} (h : StoresMinimally us s) (v : Word)
    (hlt : us.length < s.nbMax * 256) : ∃ t, exec (.push v) s = .next t ∧ StoresMinimally (us ++ [v]) t := by
  obtain ⟨hi, hc, hcont, hm⟩ := h
  have hroom : ¬ (pushOpensBlock s ∧ s.nblk.toNat = s.nbMax) := fun ⟨ho, hfull⟩ => by
    have hlen := hi.store.len_of_opens ho
    rw [← contents_length hi.store, hcont, hfull] at hlen
    omega
  obtain ⟨t, hexec, ht⟩ := exec_push_pushed v hi hc hroom
  obtain ⟨-, -, hkeep⟩ := pushAndBuildKeepMinimalWidths
  exact ⟨_, hexec, exec_inv hi hexec, ht.only.sameCursor.cOpen.trans hc,
    (contents_respond _ _ _ t).trans (hcont ▸ ht.contents), hkeep _ s _ hi hm (.inr (.inl ⟨v, rfl⟩)) hexec⟩

theorem runAll_cons {i : Instr} {is : List Instr} {s t : State} (h : exec i s = .next t) :
    runAll (i :: is) s = runAll is t := by
  rw [runAll, h]

/-- Pushing a sequence that the slots can hold appends it to the contents. -/
theorem runAll_pushes {us vs : List Word} {s : State} (h : StoresMinimally us s)
    (hle : us.length + vs.length ≤ s.nbMax * 256) :
    ∃ t, runAll (vs.map Instr.push) s = some t ∧ StoresMinimally (us ++ vs) t := by
  induction vs generalizing us s with
  | nil => exact ⟨s, rfl, by rwa [List.append_nil]⟩
  | cons v vs ih =>
    rw [List.length_cons] at hle
    obtain ⟨s1, hexec, h1⟩ := exec_push_storesMinimally h v (by omega)
    obtain ⟨t, hrun, ht⟩ := ih h1 (by rw [exec_nbMax hexec, List.length_append, List.length_singleton]; omega)
    rw [List.append_assoc] at ht
    exact ⟨t, (runAll_cons hexec).trans hrun, ht⟩

/-- Settles O48: both runs end with the contents `vs` at minimal widths, and these determine the store. -/
theorem buildEqualsPushes : Obligations.BuildEqualsPushes := by
  intro vs s hi hc hle
  obtain ⟨t, hbuild, ht⟩ := exec_build_storesMinimally hi hc hle
  obtain ⟨s0, hnew, h0⟩ := exec_new_storesMinimally hi hc
  obtain ⟨u, hrun, hu⟩ := runAll_pushes h0 (vs := vs) (by rw [exec_nbMax hnew, List.length_nil]; omega)
  exact ⟨t, u, runAll_cons hbuild, (runAll_cons hnew).trans hrun, ht.unique hu⟩

end Sys2Proof.Machine

namespace Sys2Proof.Machine

/-! ### States with the same store -/

theorem SameStore.refl (s : State) : SameStore s s := ⟨rfl, rfl, fun _ => rfl, fun _ => rfl, fun _ => rfl⟩

theorem SameStore.respond {s t : State} (h : SameStore s t) (ope : Byte) (st : Status) (body : List Word) :
    SameStore s (respond ope st body t) := by
  obtain ⟨hnblk, hlen, hwidth, hocc, hram⟩ := h
  exact ⟨hnblk, hlen, hwidth, hocc, hram⟩

theorem SameStore.bufOf {s t : State} (h : SameStore s t) (b : Nat) : bufOf t b = Machine.bufOf s b := by
  rw [Machine.bufOf, h.buf, ← Machine.bufOf]

theorem SameStore.contents {s t : State} (h : SameStore s t) : contents t = Machine.contents s := by
  rw [Machine.contents, h.nblk, valsUpTo_congr fun b _ => h.vals b, ← Machine.contents]

theorem nblk_pos {s : State} (h : s.nblk ≠ 0) : 0 < s.nblk.toNat :=
  Nat.pos_of_ne_zero (BitVec.toNat_ne_iff_ne.mpr h)

/-! ### The commands of the reader where they answer a status or registers only (44_cursor.md R233 to R237) -/

theorem exec_copen_busy (own : Bool) {s : State} (ho : s.cOpen = true) :
    exec (.copen own) s = .next (answered s [rspHeader Op.copen.code .eCBusy]) := if_pos ho

theorem exec_copen_closed (own : Bool) {s : State} (hc : s.cOpen = false) :
    exec (.copen own) s = finish .copen (do let s1 ← openReader (setCursor true own s); return (s1, [])) :=
  if_neg (by rw [hc]; decide)

theorem exec_cnext_closed {s : State} (hc : s.cOpen = false) :
    exec .cnext s = .next (answered s [rspHeader Op.cnext.code .eNoCursor]) := if_pos hc

theorem exec_cclose_closed {s : State} (hc : s.cOpen = false) :
    exec .cclose s = .next (answered s [rspHeader Op.cclose.code .eNoCursor]) := if_pos hc

/-- Everything a `CNEXT` can do while a cursor is open (R234). -/
theorem exec_cnext_open {s : State} (ho : s.cOpen = true) :
    exec .cnext s =
      if s.cPos = s.cCnt then
        if s.cBlk.toNat + 1 < s.nblk.toNat then
          finish .cnext (do let s1 ← fill (s.cBlk.toNat + 1) s; serve s1)
        else answerNone .cnext s
      else finish .cnext (serve s) := if_neg (by rw [ho]; decide)

theorem exec_cnext_exhausted {s : State} (ho : s.cOpen = true) (he : s.cPos = s.cCnt)
    (hlast : s.nblk.toNat ≤ s.cBlk.toNat + 1) :
    exec .cnext s = .next (answered s [rspHeader Op.cnext.code .none]) := by
  rw [exec_cnext_open ho, if_pos he, if_neg hlast.not_gt]; rfl

/-- The flag word of `CSTAT` as a number (R237). -/
theorem cursorFlags_eq (s : State) : cursorFlags s = BitVec.ofNat 32 (s.cOpen.toNat + 2 * s.cOwn.toNat) := by
  rw [cursorFlags]
  cases s.cOpen <;> cases s.cOwn <;> rfl

/-- Settles O53: the flag word as a number, and each register widened to a word. -/
theorem cstatAnswers : Obligations.CstatAnswers := by
  intro s
  refine ⟨rfl, ?_⟩
  simp only [← cursorFlags_eq, BitVec.ofNat_toNat]
  rfl

/-- The state a `CCLOSE` leaves where a cursor is open, but for the answer (R236). -/
def closeReader (s : State) : State :=
  setCache [] (setCounters 0 0 0 0 (setCursor false false (if s.cOwn then emptyStore s else s)))

theorem exec_cclose_open {s : State} (ho : s.cOpen = true) :
    exec .cclose s = .next (respond Op.cclose.code .ok [] (closeReader s)) := if_neg (by rw [ho]; decide)

theorem closeReader_of_owning {s : State} (hw : s.cOwn = true) :
    closeReader s = setCache [] (setCounters 0 0 0 0 (setCursor false false (emptyStore s))) := by
  rw [closeReader, if_pos hw]

theorem closeReader_of_borrowing {s : State} (hw : s.cOwn = false) :
    closeReader s = setCache [] (setCounters 0 0 0 0 (setCursor false false s)) := by
  rw [closeReader, if_neg (by rw [hw]; decide)]

/-- Settles O52: an owning cursor empties the store first, and the rest is the same for both. -/
theorem ccloseAnswers : Obligations.CcloseAnswers := by
  intro s
  refine ⟨rfl, exec_cclose_closed, fun ho => ⟨_, exec_cclose_open ho, ?_⟩⟩
  cases hw : s.cOwn with
  | true =>
    rw [closeReader_of_owning hw]
    exact ⟨rfl, rfl, rfl, rfl, rfl, rfl, rfl, rfl, fun _ => ⟨rfl, rfl⟩, nofun, fun _ => ⟨rfl, rfl⟩, fun _ => rfl⟩
  | false =>
    rw [closeReader_of_borrowing hw]
    exact ⟨rfl, rfl, rfl, rfl, rfl, rfl, rfl, rfl, nofun, fun _ => ⟨rfl, rfl⟩, fun _ => ⟨rfl, rfl⟩, fun _ => rfl⟩

/-! ### The store while a cursor is open (R231) -/

/-- Of the effects under an open cursor, those that leave it open are the two of `CNEXT`. -/
theorem Effect.sameStore_of_open {i : Instr} {s s' : State} (h : Effect s i s') (ho : s.cOpen = true)
    (ho' : s'.cOpen = true) : SameStore s s' := by
  cases h with
  | new hc | push hc | pop hc | build hc | importImage hc | copen hc => simp [ho] at hc
  | cnextFill _ _ hf h => exact ((fill_onlyReader hf).trans (serve_onlyReader h)).sameStore
  | cnextServe _ _ h => exact (serve_onlyReader h).sameStore
  | cclose => simp at ho'

/-- Settles O55: an answer changes no store, and no effect does that starts and ends with an open cursor. -/
theorem storeFixedWhileCursorOpen : Obligations.StoreFixedWhileCursorOpen := by
  intro i s t ho h ho'
  rcases exec_cases h with ⟨st, body, rfl, -⟩ | ⟨s', body, rfl, hact⟩
  · exact (SameStore.refl s).respond _ _ _
  · exact (hact.sameStore_of_open ho ho').respond _ _ _

/-! ### A block fill (R232) -/

/-- `t` is `s` with block `b` decoded into the cache and the reader at its start. -/
structure Filled (b : Nat) (s t : State) : Prop where
  only : OnlyReader s t
  cOpen : t.cOpen = s.cOpen
  cOwn : t.cOwn = s.cOwn
  cBlk : t.cBlk.toNat = b
  cCnt : t.cCnt.toNat = occAt s b
  cPos : t.cPos.toNat = 0
  cBitoff : t.cBitoff.toNat = 0
  cache : ∀ k (h : k < 256), k < t.cCnt.toNat → t.cache[k] = (vals s b).getD k 0

theorem fill_filled {s : State} {b : Nat} (hs : StoreInv s) (hb : b < s.nblk.toNat) :
    ∃ t, fill b s = .ok t ∧ Filled b s t := by
  have hh := hs.holdsBlock hb
  have hfill := fill_holds hh
  have hle := hh.length_le
  have hnblk := s.nblk.isLt
  have hBlk : (BitVec.ofNat 22 b).toNat = b := by rw [BitVec.toNat_ofNat, Nat.mod_eq_of_lt (by omega)]
  have hCnt : (BitVec.ofNat 9 (vals s b).length).toNat = (vals s b).length := by
    rw [BitVec.toNat_ofNat, Nat.mod_eq_of_lt (by omega)]
  refine ⟨_, hfill, fill_onlyReader hfill, rfl, rfl, hBlk, hCnt.trans hh.occ.symm, rfl, rfl, fun k hk hlt => ?_⟩
  rw [setCounters_cCnt, hCnt] at hlt
  exact cacheWith_get _ _ k hk hlt

/-! ### `COPEN` (R233) -/

/-- `t` is where a `COPEN` on `s` ends, but for the answer: block 0 is decoded, or there is none. -/
structure Opened (own : Bool) (s t : State) : Prop where
  only : OnlyReader s t
  cOpen : t.cOpen = true
  cOwn : t.cOwn = own
  cBlk : t.cBlk = 0
  cPos : t.cPos = 0
  cBitoff : t.cBitoff = 0
  cCnt : t.cCnt.toNat = if s.nblk = 0 then 0 else occAt s 0
  cache : ∀ k (h : k < 256), k < t.cCnt.toNat → t.cache[k] = (vals s 0).getD k 0

theorem setCursor_onlyReader (isOpen own : Bool) (s : State) : OnlyReader s (setCursor isOpen own s) := rfl

theorem openReader_opened (own : Bool) {s : State} (hs : StoreInv s) :
    ∃ t, openReader (setCursor true own s) = .ok t ∧ Opened own s t := by
  have ho := setCursor_onlyReader true own s
  by_cases h0 : s.nblk = 0
  · have hn : ¬ 0 < (setCursor true own s).nblk.toNat := by simp [h0]
    refine ⟨_, if_neg hn, rfl, rfl, rfl, rfl, rfl, rfl, ?_, fun k _ hk => absurd hk (Nat.not_lt_zero k)⟩
    rw [if_pos h0]; rfl
  · have hpos : 0 < (setCursor true own s).nblk.toNat := nblk_pos h0
    obtain ⟨t, hfill, ht⟩ := fill_filled (hs.congr ho.sameStore rfl) hpos
    refine ⟨t, (if_pos hpos).trans hfill, ho.trans ht.only, ht.cOpen, ht.cOwn, BitVec.eq_of_toNat_eq ht.cBlk,
      BitVec.eq_of_toNat_eq ht.cPos, BitVec.eq_of_toNat_eq ht.cBitoff, ?_, fun k hk hlt => ?_⟩
    · rw [if_neg h0]; exact ht.cCnt
    · rw [ht.cache k hk hlt, ho.sameStore.vals]

theorem exec_copen_opened (own : Bool) {s : State} (hs : StoreInv s) (hc : s.cOpen = false) :
    ∃ t, exec (.copen own) s = .next (respond Op.copen.code .ok [] t) ∧ Opened own s t := by
  obtain ⟨t, e, ht⟩ := openReader_opened own hs
  refine ⟨t, ?_, ht⟩
  rw [exec_copen_closed own hc]
  exact finish_next.mpr ⟨t, [], bind_eq_ok.mpr ⟨t, e, rfl⟩, rfl⟩

theorem encode_copen (own : Bool) : encode (.copen own) = [0#7 ++ BitVec.ofBool own ++ 0#16 ++ 0x40#8] := by
  cases own <;> rfl

/-- Settles O50: the check of `C_OPEN`, and the reader's registers and cache after the fill of block 0. -/
theorem copenAnswers : Obligations.CopenAnswers := by
  intro own s hi
  refine ⟨encode_copen own, exec_copen_busy own, fun hc => ?_⟩
  obtain ⟨t, hexec, ht⟩ := exec_copen_opened own hi.store hc
  have hport := ht.only.samePort
  refine ⟨_, hexec, ?_, hport.inQ, ht.cOpen, ht.cOwn, ht.cBlk, ht.cPos, ht.cBitoff, ht.cCnt, ht.cache,
    ht.only.sameStore.respond _ _ _⟩
  rw [respond_outQ, hport.outQ]; rfl

/-! ### Serving a Value (R234) -/

/-- `t` is `s` with the reader moved on by one element, after the cache entry `v` was served. -/
structure Served (v : Word) (s t : State) : Prop where
  only : OnlyReader s t
  value : s.cache[s.cPos.toNat]? = some v
  cOpen : t.cOpen = s.cOpen
  cOwn : t.cOwn = s.cOwn
  cBlk : t.cBlk = s.cBlk
  cCnt : t.cCnt = s.cCnt
  cache : t.cache = s.cache
  cPos : t.cPos.toNat = s.cPos.toNat + 1
  cBitoff : t.cBitoff.toNat = s.cBitoff.toNat + widthAt s s.cBlk.toNat

/-- A reader before the end of its block is in a live block, decoded in the cache, with its bit offset at its position
(R35 (b)). -/
structure Reading (s : State) : Prop where
  live : s.cBlk.toNat < s.nblk.toNat
  cCnt : s.cCnt.toNat = occAt s s.cBlk.toNat
  before : s.cPos.toNat < s.cCnt.toNat
  cBitoff : s.cBitoff.toNat = s.cPos.toNat * widthAt s s.cBlk.toNat
  cache : ∀ k (h : k < 256), k < s.cCnt.toNat → s.cache[k] = (vals s s.cBlk.toNat).getD k 0

theorem CursorInv.reading {s : State} (h : CursorInv s) (ho : s.cOpen = true) (hlt : s.cPos.toNat < s.cCnt.toNat) :
    Reading s := by
  have hne : s.cPos ≠ s.cCnt := fun he => hlt.ne (congrArg BitVec.toNat he)
  obtain ⟨hlive, hCnt, -, hBitoff, hCache⟩ := h.openLive ho (h.nblk_ne_zero ho hne)
  exact ⟨hlive, hCnt, hlt, hBitoff, hCache⟩

theorem serve_served {s : State} (hs : StoreInv s) (h : Reading s) : ∃ t v, serve s = .ok (t, [v]) ∧ Served v s t := by
  obtain ⟨hlive, hCnt, hlt, hBitoff, -⟩ := h
  have hocc := (hs.occ_range _ hlive).2
  have hpos : s.cPos.toNat < 256 := by omega
  have hserve := serve_ok.mpr ⟨hpos, rfl⟩
  have hbits : (s.cPos.toNat + 1) * widthAt s s.cBlk.toNat ≤ 256 * 32 := Nat.mul_le_mul hpos (hs.width_le _ hlive)
  rw [Nat.add_mul, Nat.one_mul, ← hBitoff] at hbits
  refine ⟨_, _, hserve, serve_onlyReader hserve, Vector.getElem?_eq_getElem hpos, rfl, rfl, ?_, ?_, rfl, ?_, ?_⟩
  · simp
  · simp
  · rw [setCounters_cPos, BitVec.toNat_ofNat, Nat.mod_eq_of_lt (by omega)]
  · rw [setCounters_cBitoff, BitVec.toNat_ofNat, Nat.mod_eq_of_lt (by omega)]

theorem Reading.value {s : State} {v : Word} (h : Reading s) (hs : StoreInv s)
    (hv : s.cache[s.cPos.toNat]? = some v) : v = (vals s s.cBlk.toNat).getD s.cPos.toNat 0 := by
  obtain ⟨hlive, hCnt, hlt, -, hCache⟩ := h
  have hpos : s.cPos.toNat < 256 := by have := (hs.occ_range _ hlive).2; omega
  rw [Vector.getElem?_eq_getElem hpos, Option.some_inj] at hv
  rw [← hv, hCache _ hpos hlt]

/-- The Value served is the element of `contents` at the reader's place (R238 (a)). -/
theorem Served.eq_contents {v : Word} {s t : State} (h : Served v s t) (hs : StoreInv s) (hr : Reading s) :
    v = (contents s).getD (s.cBlk.toNat * 256 + s.cPos.toNat) 0 := by
  rw [hr.value hs h.value, contents, valsUpTo_getD hs.full hr.live (hr.cCnt ▸ hr.before)]

/-- Element `k` of a block is the field of its buffer's number at bit `k * w` (41_codec.md R144). -/
theorem HoldsBlock.getD_toNat {s : State} {b w : Nat} {vs : List Word} (h : HoldsBlock s b w vs) (k : Nat) :
    (vs.getD k 0).toNat = (leNum (Machine.bufOf s b) >>> (k * w)) % 2 ^ w := by
  rw [← decodeOne_encodeAll h.width_le h.fit, decodeOne_toNat _ _ h.width_le, h.bufOf, Nat.shiftRight_eq_div_pow]

/-- The Value served is the field at the tracked bit offset (R234). -/
theorem Served.eq_field {v : Word} {s t : State} (h : Served v s t) (hs : StoreInv s) (hr : Reading s) :
    v.toNat = (leNum (bufOf s s.cBlk.toNat) >>> s.cBitoff.toNat) % 2 ^ widthAt s s.cBlk.toNat := by
  rw [hr.value hs h.value, (hs.holdsBlock hr.live).getD_toNat, hr.cBitoff]

/-! ### `CNEXT` (R234) -/

theorem exec_cnext_served {s : State} (hi : Inv s) (ho : s.cOpen = true) (hlt : s.cPos.toNat < s.cCnt.toNat) :
    ∃ t v, exec .cnext s = .next (respond Op.cnext.code .ok [v] t) ∧ Served v s t := by
  obtain ⟨t, v, hserve, ht⟩ := serve_served hi.store (hi.cursor.reading ho hlt)
  have hne : s.cPos ≠ s.cCnt := fun he => hlt.ne (congrArg BitVec.toNat he)
  refine ⟨t, v, ?_, ht⟩
  rw [exec_cnext_open ho, if_neg hne, hserve]; rfl

/-- `t` is where a `CNEXT` at the end of a block ends, but for the answer: the next block was decoded, as in `s1`, and its
first Value served from there. -/
structure FilledServed (v : Word) (s s1 t : State) : Prop where
  fill : Filled (s.cBlk.toNat + 1) s s1
  inv : Inv s1
  reading : Reading s1
  serve : Served v s1 t

theorem exec_cnext_filledServed {s : State} (hi : Inv s) (ho : s.cOpen = true) (he : s.cPos = s.cCnt)
    (hnext : s.cBlk.toNat + 1 < s.nblk.toNat) :
    ∃ s1 t v, exec .cnext s = .next (respond Op.cnext.code .ok [v] t) ∧ FilledServed v s s1 t := by
  obtain ⟨s1, hfill, h1⟩ := fill_filled hi.store hnext
  obtain ⟨hcur, ho1, hlt⟩ := fill_cursorInv hi.store hnext ho hfill
  have hi1 : Inv s1 := h1.only.inv hi.data hi.store hcur
  have hr := hcur.reading ho1 hlt
  obtain ⟨t, v, hserve, ht⟩ := serve_served hi1.store hr
  refine ⟨s1, t, v, ?_, h1, hi1, hr, ht⟩
  rw [exec_cnext_open ho, if_pos he, if_pos hnext]
  exact finish_next.mpr ⟨t, [v], bind_eq_ok.mpr ⟨s1, hfill, hserve⟩, rfl⟩

namespace FilledServed

variable {v : Word} {s s1 t : State}

theorem only (h : FilledServed v s s1 t) : OnlyReader s t := h.fill.only.trans h.serve.only

theorem cOpen (h : FilledServed v s s1 t) : t.cOpen = s.cOpen := h.serve.cOpen.trans h.fill.cOpen

theorem cOwn (h : FilledServed v s s1 t) : t.cOwn = s.cOwn := h.serve.cOwn.trans h.fill.cOwn

theorem eq_contents (h : FilledServed v s s1 t) : v = (contents s).getD ((s.cBlk.toNat + 1) * 256) 0 := by
  have hv := h.serve.eq_contents h.inv.store h.reading
  rwa [h.fill.only.sameStore.contents, h.fill.cBlk, h.fill.cPos, Nat.add_zero] at hv

theorem eq_field (h : FilledServed v s s1 t) :
    v.toNat = leNum (bufOf s (s.cBlk.toNat + 1)) % 2 ^ widthAt s (s.cBlk.toNat + 1) := by
  have hv := h.serve.eq_field h.inv.store h.reading
  rwa [h.fill.cBlk, h.fill.cBitoff, h.fill.only.sameStore.bufOf, h.fill.only.sameStore.width, Nat.shiftRight_zero]
    at hv

theorem cPos (h : FilledServed v s s1 t) : t.cPos.toNat = 1 := by rw [h.serve.cPos, h.fill.cPos]

theorem cBitoff (h : FilledServed v s s1 t) : t.cBitoff.toNat = widthAt s (s.cBlk.toNat + 1) := by
  rw [h.serve.cBitoff, h.fill.cBitoff, h.fill.cBlk, h.fill.only.sameStore.width, Nat.zero_add]

theorem cBlk (h : FilledServed v s s1 t) : t.cBlk.toNat = s.cBlk.toNat + 1 := by rw [h.serve.cBlk, h.fill.cBlk]

theorem cCnt (h : FilledServed v s s1 t) : t.cCnt.toNat = occAt s (s.cBlk.toNat + 1) := by
  rw [h.serve.cCnt, h.fill.cCnt]

theorem cache (h : FilledServed v s s1 t) (k : Nat) (hk : k < 256) (hlt : k < t.cCnt.toNat) :
    t.cache[k] = (vals s (s.cBlk.toNat + 1)).getD k 0 := by
  simp only [h.serve.cache]
  exact h.fill.cache k hk (h.serve.cCnt ▸ hlt)

end FilledServed

/-- Settles O51: no cursor, an exhausted one, a Value from the cache, a Value from the next block. -/
theorem cnextAnswers : Obligations.CnextAnswers := by
  intro s hi
  refine ⟨rfl, exec_cnext_closed, exec_cnext_exhausted, fun ho hlt => ?serving, fun ho he hnext => ?blockEnd⟩
  case serving =>
    obtain ⟨t, v, hexec, h⟩ := exec_cnext_served hi ho hlt
    have hr := hi.cursor.reading ho hlt
    have hport := h.only.samePort
    refine ⟨_, v, hexec, ?_, hport.inQ, h.value, h.eq_contents hi.store hr, h.eq_field hi.store hr, h.cPos, h.cBitoff,
      h.cBlk, h.cCnt, h.cache, h.cOpen.trans ho, h.cOwn, h.only.sameStore.respond _ _ _⟩
    rw [respond_outQ, hport.outQ]; rfl
  case blockEnd =>
    obtain ⟨s1, t, v, hexec, h⟩ := exec_cnext_filledServed hi ho he hnext
    have hport := h.only.samePort
    refine ⟨_, v, hexec, ?_, hport.inQ, h.eq_contents, h.eq_field, BitVec.eq_of_toNat_eq h.cPos, h.cBitoff,
      h.cBlk, h.cCnt, h.cache, h.cOpen.trans ho, h.cOwn, h.only.sameStore.respond _ _ _⟩
    rw [respond_outQ, hport.outQ]; rfl

/-! ### The reader's states (R235) -/

theorem readerState_eq_closed_iff {s : State} : readerState s = .closed ↔ s.cOpen = false := by
  unfold readerState
  split_ifs <;> simp [*]

theorem readerState_ne_closed_iff {s : State} : readerState s ≠ .closed ↔ s.cOpen = true := by
  rw [Ne, readerState_eq_closed_iff, Bool.not_eq_false]

theorem readerState_eq_serving_iff {s : State} :
    readerState s = .serving ↔ s.cOpen = true ∧ s.cPos.toNat < s.cCnt.toNat := by
  unfold readerState
  split_ifs <;> simp [*]

theorem readerState_eq_blockEnd_iff {s : State} :
    readerState s = .blockEnd ↔
      s.cOpen = true ∧ ¬ s.cPos.toNat < s.cCnt.toNat ∧ s.cBlk.toNat + 1 < s.nblk.toNat := by
  unfold readerState
  split_ifs <;> simp [*]

theorem readerState_eq_exhausted_iff {s : State} :
    readerState s = .exhausted ↔
      s.cOpen = true ∧ ¬ s.cPos.toNat < s.cCnt.toNat ∧ ¬ s.cBlk.toNat + 1 < s.nblk.toNat := by
  unfold readerState
  split_ifs <;> simp [*]

/-- An open reader that is not before the end of its block is at its end (R35 (b)). -/
theorem CursorInv.cPos_eq {s : State} (h : CursorInv s) (ho : s.cOpen = true) (hge : ¬ s.cPos.toNat < s.cCnt.toNat) :
    s.cPos = s.cCnt := by
  by_cases h0 : s.nblk = 0
  · obtain ⟨-, hCnt, hPos, -⟩ := h.openEmpty ho h0
    exact hPos.trans hCnt.symm
  · obtain ⟨-, -, hle, -⟩ := h.openLive ho h0
    exact BitVec.eq_of_toNat_eq (by omega)

/-- A reader just opened serves, as a live block has an element, unless there is no block (R233). -/
theorem Opened.readerState {own : Bool} {s t : State} (h : Opened own s t) (hs : StoreInv s) :
    readerState t = if s.nblk = 0 then .exhausted else .serving := by
  have hCnt := h.cCnt
  by_cases h0 : s.nblk = 0
  · rw [if_pos h0] at hCnt ⊢
    have hnblk : t.nblk = 0 := h.only.sameStore.nblk.trans h0
    exact readerState_eq_exhausted_iff.mpr ⟨h.cOpen, by simp [hCnt], by simp [hnblk]⟩
  · rw [if_neg h0] at hCnt ⊢
    obtain ⟨hpos, -⟩ := hs.occ_range 0 (nblk_pos h0)
    refine readerState_eq_serving_iff.mpr ⟨h.cOpen, ?_⟩
    rw [hCnt, h.cPos]
    exact hpos

/-- Settles O54: each state of the reader says which branch of a command is taken. -/
theorem readerTransitions : Obligations.ReaderTransitions := by
  intro s hi
  refine ⟨fun hr own => ?opens, fun hr => ?closed, fun hr => ?serving, fun hr => ?blockEnd, fun hr => ?exhausted,
    fun hr own => exec_copen_busy own (readerState_ne_closed_iff.mp hr), fun hr => ?closes⟩
  case opens =>
    obtain ⟨t, hexec, ht⟩ := exec_copen_opened own hi.store (readerState_eq_closed_iff.mp hr)
    exact ⟨_, hexec, ht.readerState hi.store⟩
  case closed =>
    have hc := readerState_eq_closed_iff.mp hr
    exact ⟨exec_cnext_closed hc, exec_cclose_closed hc⟩
  case serving =>
    obtain ⟨ho, hlt⟩ := readerState_eq_serving_iff.mp hr
    obtain ⟨t, v, hexec, h⟩ := exec_cnext_served hi ho hlt
    exact ⟨_, hexec, readerState_ne_closed_iff.mpr (h.cOpen.trans ho)⟩
  case blockEnd =>
    obtain ⟨ho, hge, hnext⟩ := readerState_eq_blockEnd_iff.mp hr
    obtain ⟨s1, t, v, hexec, h⟩ := exec_cnext_filledServed hi ho (hi.cursor.cPos_eq ho hge) hnext
    exact ⟨_, hexec, readerState_ne_closed_iff.mpr (h.cOpen.trans ho), h.cBlk⟩
  case exhausted =>
    obtain ⟨ho, hge, hlast⟩ := readerState_eq_exhausted_iff.mp hr
    exact exec_cnext_exhausted ho (hi.cursor.cPos_eq ho hge) (Nat.le_of_not_lt hlast)
  case closes =>
    exact ⟨_, exec_cclose_open (readerState_ne_closed_iff.mp hr), readerState_eq_closed_iff.mpr rfl⟩

/-! ### A cursor pass (R238) -/

/-- How many Values a pass has served: the place of the reader in `contents`. -/
def passPos (s : State) : Nat := s.cBlk.toNat * 256 + s.cPos.toNat

/-- At the end of the last block every Value has been served. -/
theorem passPos_of_exhausted {s : State} (hi : Inv s) (ho : s.cOpen = true) (he : s.cPos = s.cCnt)
    (hlast : s.nblk.toNat ≤ s.cBlk.toNat + 1) : passPos s = s.len.toNat := by
  by_cases h0 : s.nblk = 0
  · obtain ⟨hBlk, -, hPos, -⟩ := hi.cursor.openEmpty ho h0
    rw [passPos, hBlk, hPos, hi.store.len_eq_zero_iff.mpr h0]; rfl
  · obtain ⟨hlive, hCnt, -⟩ := hi.cursor.openLive ho h0
    obtain ⟨hnb, -, hh, hsum⟩ := hi.store.last_spec (Nat.zero_lt_of_lt hlive)
    have hBlk : s.cBlk.toNat = lastBlock s := by omega
    rw [passPos, he, hCnt, hBlk, hsum, hh.occ]

/-- At the end of an earlier block the next Value is the first of the block after it. -/
theorem passPos_of_blockEnd {s : State} (hi : Inv s) (ho : s.cOpen = true) (he : s.cPos = s.cCnt)
    (hnext : s.cBlk.toNat + 1 < s.nblk.toNat) : passPos s = (s.cBlk.toNat + 1) * 256 := by
  have h0 : s.nblk ≠ 0 := by rintro h0; simp [h0] at hnext
  obtain ⟨-, hCnt, -⟩ := hi.cursor.openLive ho h0
  rw [passPos, he, hCnt, hi.store.full _ hnext, Nat.succ_mul]

/-- An element of a live block is an element of `contents`. -/
theorem StoreInv.index_lt {s : State} (h : StoreInv s) {b k : Nat} (hb : b < s.nblk.toNat) (hk : k < occAt s b) :
    b * 256 + k < s.len.toNat := by
  obtain ⟨hnb, -, hh, hsum⟩ := h.last_spec (Nat.zero_lt_of_lt hb)
  by_cases hlast : b = lastBlock s
  · rw [hlast, hh.occ] at hk
    omega
  · have := (h.occ_range b hb).2
    omega

/-- What a pass over `vs` answers to its `CNEXT` number `k` (R238 (a)). -/
def passAnswer (vs : List Word) (k : Nat) : Packet :=
  if k < vs.length then [0x00004100#32, vs.getD k 0] else [0x00004101#32]

/-- A pass over `vs` after `k` `CNEXT` commands: the reader is behind the first `k` Values, or behind all of them. -/
structure PassAfter (vs : List Word) (k : Nat) (s : State) : Prop where
  inv : Inv s
  cOpen : s.cOpen = true
  contents : contents s = vs
  pos : passPos s = min k vs.length

theorem PassAfter.len {vs : List Word} {k : Nat} {s : State} (h : PassAfter vs k s) : s.len.toNat = vs.length := by
  rw [← contents_length h.inv.store, h.contents]

/-- A `CNEXT` that serves the Value at the reader's place and moves it on by one is one step of the pass. -/
theorem PassAfter.served {vs : List Word} {k : Nat} {v : Word} {s t : State} (h : PassAfter vs k s)
    (hexec : exec .cnext s = .next (respond Op.cnext.code .ok [v] t)) (hread : OnlyReader s t) (ho : t.cOpen = true)
    (hlt : passPos s < s.len.toNat) (hv : v = (Machine.contents s).getD (passPos s) 0)
    (hpos : passPos t = passPos s + 1) :
    ∃ t, exec .cnext s = .next t ∧ t.outQ = s.outQ ++ [passAnswer vs k] ∧ PassAfter vs (k + 1) t := by
  have hlen := h.len
  have hk := h.pos
  obtain rfl : k = passPos s := by omega
  refine ⟨_, hexec, ?_, exec_inv h.inv hexec, ho, ?_, ?_⟩
  · rw [respond_outQ, hread.samePort.outQ, passAnswer, if_pos (hlen ▸ hlt), hv, h.contents]; rfl
  · rw [contents_respond, hread.sameStore.contents, h.contents]
  · have : passPos (respond Op.cnext.code .ok [v] t) = passPos t := rfl
    omega

/-- A `CNEXT` on an exhausted reader is one step of the pass, too. -/
theorem PassAfter.exhausted {vs : List Word} {k : Nat} {s : State} (h : PassAfter vs k s)
    (hexec : exec .cnext s = .next (answered s [rspHeader Op.cnext.code .none])) (hpos : passPos s = s.len.toNat) :
    ∃ t, exec .cnext s = .next t ∧ t.outQ = s.outQ ++ [passAnswer vs k] ∧ PassAfter vs (k + 1) t := by
  have hlen := h.len
  have hk := h.pos
  refine ⟨_, hexec, ?_, exec_inv h.inv hexec, h.cOpen, ?_, ?_⟩
  · rw [answered_outQ, passAnswer, if_neg (by omega)]; rfl
  · exact (contents_respond Op.cnext.code .none [] s).trans h.contents
  · have : passPos (answered s [rspHeader Op.cnext.code .none]) = passPos s := rfl
    omega

/-- One `CNEXT` of a pass, in whichever state the reader is. -/
theorem PassAfter.step {vs : List Word} {k : Nat} {s : State} (h : PassAfter vs k s) :
    ∃ t, exec .cnext s = .next t ∧ t.outQ = s.outQ ++ [passAnswer vs k] ∧ PassAfter vs (k + 1) t := by
  have hi := h.inv
  have ho := h.cOpen
  by_cases hlt : s.cPos.toNat < s.cCnt.toNat
  · have hr := hi.cursor.reading ho hlt
    obtain ⟨t, v, hexec, ht⟩ := exec_cnext_served hi ho hlt
    refine h.served hexec ht.only (ht.cOpen.trans ho) (hi.store.index_lt hr.live (hr.cCnt ▸ hlt))
      (ht.eq_contents hi.store hr) ?_
    rw [passPos, passPos, ht.cBlk, ht.cPos, Nat.add_assoc]
  have he := hi.cursor.cPos_eq ho hlt
  by_cases hnext : s.cBlk.toNat + 1 < s.nblk.toNat
  · have hpos := passPos_of_blockEnd hi ho he hnext
    obtain ⟨s1, t, v, hexec, ht⟩ := exec_cnext_filledServed hi ho he hnext
    have hfirst := hi.store.index_lt (k := 0) hnext (hi.store.occ_range _ hnext).1
    refine h.served hexec ht.only (ht.cOpen.trans ho) (by omega) (hpos ▸ ht.eq_contents) ?_
    rw [passPos, ht.cBlk, ht.cPos, hpos]
  · exact h.exhausted (exec_cnext_exhausted ho he (Nat.le_of_not_lt hnext))
      (passPos_of_exhausted hi ho he (Nat.le_of_not_lt hnext))

/-- The next `n` `CNEXT` commands of a pass. -/
theorem PassAfter.runAll {vs : List Word} {k : Nat} {s : State} (h : PassAfter vs k s) (n : Nat) :
    ∃ t, runAll (List.replicate n .cnext) s = some t ∧ t.outQ = s.outQ ++ (List.range' k n).map (passAnswer vs) := by
  induction n generalizing k s with
  | zero => exact ⟨s, rfl, (List.append_nil _).symm⟩
  | succ n ih =>
    obtain ⟨s1, hexec, hout, h1⟩ := h.step
    obtain ⟨t, hrun, hrest⟩ := ih h1
    refine ⟨t, (runAll_cons hexec).trans hrun, ?_⟩
    rw [hrest, hout, List.append_assoc]; rfl

/-- A `COPEN` begins a pass. -/
theorem exec_copen_passAfter (own : Bool) {s : State} (hi : Inv s) (hc : s.cOpen = false) :
    ∃ t, exec (.copen own) s = .next t ∧ t.outQ = s.outQ ++ [[0x00004000#32]] ∧ PassAfter (contents s) 0 t := by
  obtain ⟨t, hexec, ht⟩ := exec_copen_opened own hi.store hc
  refine ⟨_, hexec, ?_, exec_inv hi hexec, ht.cOpen, ?_, ?_⟩
  · rw [respond_outQ, ht.only.samePort.outQ]; rfl
  · rw [contents_respond, ht.only.sameStore.contents]
  · rw [passPos, respond_cBlk, respond_cPos, ht.cBlk, ht.cPos, Nat.zero_min]; rfl

/-- Settles O56: `COPEN` begins a pass over the contents, and each `CNEXT` takes it on by one, or leaves it at its end. -/
theorem cursorServesContents : Obligations.CursorServesContents := by
  intro own s n hi hc
  obtain ⟨s1, hexec, hout, h1⟩ := exec_copen_passAfter own hi hc
  obtain ⟨t, hrun, hrest⟩ := h1.runAll n
  refine ⟨t, (runAll_cons hexec).trans hrun, ?_⟩
  rw [hrest, hout, List.append_assoc, ← List.range_eq_range', ← contents_length hi.store]; rfl

end Sys2Proof.Machine

namespace Sys2Proof.Machine

/-! ### Records and their bytes (45_image.md R260, R264) -/

/-- The header of a record is in range and its buffer has the length that the header says (R263 (b), (c), (d), (f)). -/
structure ShapedRecord (blk : Block) : Prop where
  width_le : blk.width ≤ 32
  occ_pos : 1 ≤ blk.occ
  occ_le : blk.occ ≤ 256
  buf_length : blk.buf.length = bytesFor (blk.occ * blk.width)

theorem wellShaped_cons {blk : Block} {rest : List Block} :
    wellShaped (blk :: rest) ↔ ShapedRecord blk ∧ (rest ≠ [] → blk.occ = 256) ∧ wellShaped rest :=
  ⟨fun ⟨⟨hw, hpos, hle, hlen⟩, hfull, hrest⟩ => ⟨⟨hw, hpos, hle, hlen⟩, hfull, hrest⟩,
    fun ⟨⟨hw, hpos, hle, hlen⟩, hfull, hrest⟩ => ⟨⟨hw, hpos, hle, hlen⟩, hfull, hrest⟩⟩

theorem imageOf_cons (blk : Block) (rest : List Block) : imageOf (blk :: rest) = recordBytes blk ++ imageOf rest := rfl

/-- Three header bytes are the header of a record, whatever they are. -/
theorem recordBytes_of_header (w lo hi : Byte) (bs : List Byte) :
    recordBytes ⟨w.toNat, lo.toNat + 256 * hi.toNat, bs⟩ = w :: lo :: hi :: bs := by
  have hlo : BitVec.ofNat 8 (lo.toNat + 256 * hi.toNat) = lo := by bv_omega
  have hhi : BitVec.ofNat 8 ((lo.toNat + 256 * hi.toNat) / 256) = hi := by bv_omega
  simp only [recordBytes, BitVec.ofNat_toNat, BitVec.setWidth_eq, hlo, hhi]

/-- The parser's check (e) of R263 passes: no record stands behind one that is not full. -/
def MayFollow (prev : Option Nat) (recs : List Block) : Prop := recs ≠ [] → prev.any (· < 256) = false

theorem mayFollow_some {k : Nat} (hk : k ≤ 256) {recs : List Block} :
    MayFollow (some k) recs ↔ (recs ≠ [] → k = 256) := by
  simp only [MayFollow, Option.any_some, decide_eq_false_iff_not]
  exact imp_congr_right fun _ => by omega

/-! ### The parser on one record (R263) -/

/-- A shaped record that may stand where it does is taken, with its padding bits cleared. -/
theorem parseRecords_record {blk : Block} {prev : Option Nat} (h : ShapedRecord blk)
    (hprev : prev.any (· < 256) = false) (fuel : Nat) (d : List Byte) :
    parseRecords (fuel + 1) prev (recordBytes blk ++ d) =
      (parseRecords fuel (some blk.occ) d).map (canonicalBlock blk :: ·) := by
  obtain ⟨hw, hpos, hle, hlen⟩ := h
  have hwidth : (BitVec.ofNat 8 blk.width).toNat = blk.width := by
    rw [BitVec.toNat_ofNat, Nat.mod_eq_of_lt (by omega)]
  have hocc : (BitVec.ofNat 8 blk.occ).toNat + 256 * (BitVec.ofNat 8 (blk.occ / 256)).toNat = blk.occ := by
    rw [BitVec.toNat_ofNat, BitVec.toNat_ofNat]; omega
  have hroom : ¬ (blk.buf ++ d).length < bytesFor (blk.occ * blk.width) := by rw [List.length_append]; omega
  simp only [recordBytes, List.cons_append, parseRecords, hwidth, hocc]
  rw [if_neg hw.not_gt, if_neg hle.not_gt, if_neg (by omega), if_neg (by simp [hprev]), if_neg hroom, ← hlen,
    List.drop_left, List.take_left]
  cases parseRecords fuel (some blk.occ) d <;> rfl

/-- What the parser takes from bytes that are left is a shaped record that may stand there. -/
theorem parseRecords_cons_inv {fuel : Nat} {prev : Option Nat} {x : Byte} {xs : List Byte} {out : List Block}
    (h : parseRecords (fuel + 1) prev (x :: xs) = some out) :
    ∃ blk d rest, ShapedRecord blk ∧ prev.any (· < 256) = false ∧ x :: xs = recordBytes blk ++ d ∧
      parseRecords fuel (some blk.occ) d = some rest ∧ out = canonicalBlock blk :: rest := by
  match xs, h with
  | [], h => cases h
  | [_], h => cases h
  | lo :: hi :: tail, h =>
    simp only [parseRecords, Option.ite_none_left_eq_some] at h
    obtain ⟨hw, hocc, hpos, hprev, hroom, h⟩ := h
    split at h
    · cases h
    · next rest hrest =>
      cases h
      refine ⟨⟨x.toNat, lo.toNat + 256 * hi.toNat, tail.take _⟩, _, rest,
        ⟨Nat.le_of_not_lt hw, Nat.one_le_iff_ne_zero.mpr hpos, Nat.le_of_not_lt hocc, ?_⟩, by simpa using hprev, ?_,
        hrest, rfl⟩
      · exact List.length_take_of_le (Nat.le_of_not_lt hroom)
      · rw [recordBytes_of_header, List.cons_append, List.cons_append, List.cons_append, List.take_append_drop]

/-! ### The parser on a whole image (R263, R264) -/

/-- The parser takes every list of well-shaped records, one record for each unit of fuel. -/
theorem parseRecords_imageOf {recs : List Block} (hr : wellShaped recs) {fuel : Nat} {prev : Option Nat}
    (hprev : MayFollow prev recs) (hfuel : (imageOf recs).length ≤ fuel) :
    parseRecords fuel prev (imageOf recs) = some (recs.map canonicalBlock) := by
  induction recs generalizing fuel prev with
  | nil => cases fuel <;> rfl
  | cons blk rest ih =>
    obtain ⟨hblk, hfull, hrest⟩ := wellShaped_cons.mp hr
    rw [imageOf_cons, List.length_append, recordBytes, List.length_cons] at hfuel
    obtain ⟨n, rfl⟩ : ∃ n, fuel = n + 1 := ⟨fuel - 1, by omega⟩
    have htail := ih hrest (fuel := n) ((mayFollow_some hblk.occ_le).mpr hfull) (by omega)
    rw [imageOf_cons, parseRecords_record hblk (hprev (List.cons_ne_nil _ _)), htail]
    rfl

/-- What the parser takes is the image of well-shaped records. -/
theorem parseRecords_inv {fuel : Nat} {prev : Option Nat} {d : List Byte} {out : List Block}
    (h : parseRecords fuel prev d = some out) :
    ∃ recs, wellShaped recs ∧ MayFollow prev recs ∧ d = imageOf recs ∧ out = recs.map canonicalBlock := by
  induction fuel generalizing prev d out with
  | zero =>
    cases d with
    | nil => cases h; exact ⟨[], trivial, fun hne => absurd rfl hne, rfl, rfl⟩
    | cons x xs => cases h
  | succ fuel ih =>
    cases d with
    | nil => cases h; exact ⟨[], trivial, fun hne => absurd rfl hne, rfl, rfl⟩
    | cons x xs =>
      obtain ⟨blk, d, rest, hblk, hprev, hd, hrest, rfl⟩ := parseRecords_cons_inv h
      obtain ⟨recs, hrecs, hnext, rfl, rfl⟩ := ih hrest
      have hshape := wellShaped_cons.mpr ⟨hblk, (mayFollow_some hblk.occ_le).mp hnext, hrecs⟩
      exact ⟨blk :: recs, hshape, fun _ => hprev, hd, rfl⟩

/-- The fuel is the number of bytes, which is enough, and the first record may always stand where it does. -/
theorem parseImage_imageOf {recs : List Block} (h : wellShaped recs) :
    parseImage (imageOf recs) = some (recs.map canonicalBlock) :=
  parseRecords_imageOf h (fun _ => rfl) le_rfl

/-- Settles O58: the parser takes the image of well-shaped records, and what it takes is one. -/
theorem importAcceptsExactlyImages : Obligations.ImportAcceptsExactlyImages := by
  intro d out
  constructor
  · intro h
    obtain ⟨recs, hrecs, -, hd, hout⟩ := parseRecords_inv h
    exact ⟨recs, hrecs, hd, hout⟩
  · rintro ⟨recs, hrecs, rfl, rfl⟩
    exact parseImage_imageOf hrecs

/-! ### `EXPORT` (R260, R262) -/

theorem blocks_length (s : State) : (blocks s).length = s.nblk.toNat := by rw [blocks, List.length_map, List.length_range]

/-- The image of a store is its records in block order, the occupancy's low byte written as a remainder (R260). -/
theorem imageOf_blocks (s : State) :
    imageOf (blocks s) = (List.range s.nblk.toNat).flatMap (fun b =>
      BitVec.ofNat 8 (widthAt s b) :: BitVec.ofNat 8 (occAt s b % 256) :: BitVec.ofNat 8 (occAt s b / 256) :: bufOf s b) := by
  rw [imageOf, blocks, List.flatMap_map]
  congr 1
  funext b
  have hlow : BitVec.ofNat 8 (occAt s b % 256) = BitVec.ofNat 8 (occAt s b) := by bv_omega
  rw [hlow]; rfl

theorem exec_export_image {s : State} (hs : StoreInv s) (hm : ¬ ownedByCursor s) :
    exec .exportImage s = .next (respond Op.exportImage.code .ok (bytesBody (imageOf (blocks s))) s) := by
  rw [exec_exportImage, gatedRead_of_not_owned hm, loadBlocks_ok hs le_rfl]; rfl

/-- Settles O57: the image of the live blocks, and its length as the footprint that `BYTELEN` answers. -/
theorem exportAnswers : Obligations.ExportAnswers := by
  intro s hs
  refine ⟨rfl, fun hm => (exec_exportImage s).trans (gatedRead_of_owned hm), fun hm =>
    ⟨imageOf (blocks s), imageOf_blocks s, ?_, ?_, exec_export_image hs.store hm⟩⟩
  · rw [hs.store.imageOf_blocks_length]; exact hs.storeBytes_lt
  · rw [exec_bytelen, gatedRead_of_not_owned hm, hs.store.imageOf_blocks_length]; rfl

/-! ### `IMPORT` (R263, R265) -/

/-- `t` is where an `IMPORT` of the blocks `out` on `s` ends, but for the answer. -/
structure Imported (out : List Block) (s t : State) : Prop where
  only : OnlyBlocks 0 out.length s t
  store : StoreInv t
  blocks : blocks t = out

theorem occUpTo_eq_sum_blockAt (s : State) (n : Nat) :
    occUpTo s n = (((List.range n).map (blockAt s)).map Block.occ).sum := by
  induction n with
  | zero => rfl
  | succ n ih => rw [occUpTo, ih, List.range_succ]; simp [blockAt]

/-- `LEN` is the sum of the occupancies (R33 (d)). -/
theorem StoreInv.len_eq_sum {s : State} (h : StoreInv s) : s.len.toNat = ((blocks s).map Block.occ).sum := by
  rw [h.len_sum, occUpTo_eq_sum_blockAt, blocks]

/-- The blocks of a store that holds `ps` are their packed forms. -/
theorem blocks_eq_packed {t : State} {ps : List (Nat × List Word)} (hn : t.nblk.toNat = ps.length)
    (h : ∀ j (hj : j < ps.length), HoldsBlock t j (ps[j]).1 (ps[j]).2) : blocks t = ps.map packed := by
  refine List.ext_getElem (by rw [blocks_length, List.length_map, hn]) fun j hj _ => ?_
  simp only [blocks, List.getElem_map, List.getElem_range]
  exact (h j (by rwa [blocks_length, hn] at hj)).blockAt

theorem replaceStore_imported {d : List Byte} {out : List Block} {s : State} (hs : DataInv s)
    (hd : parseImage d = some out) (hle : out.length ≤ s.nbMax) :
    ∃ t, replaceStore out s = .ok t ∧ Imported out s t := by
  obtain ⟨ps, rfl, hps, -⟩ := parseRecords_stackable hd
  rw [List.length_map] at hle
  obtain ⟨t, e, -⟩ := replaceStore_holds (fun p hp => (hps.mem p hp).1) hle
  obtain ⟨ho, hn, hh, ht⟩ := replaceStore_stackable hs hps hle e
  exact ⟨t, e, by rwa [List.length_map], ht, blocks_eq_packed hn hh⟩

theorem exec_import_malformed {d : List Byte} {s : State} (hc : s.cOpen = false) (hd : parseImage d = none) :
    exec (.importImage d) s = .next (answered s [rspHeader Op.importImage.code .eMalformed]) := by
  rw [exec_importImage, gatedMutation_of_closed hc, importBody, hd]; rfl

theorem exec_import_full {d : List Byte} {out : List Block} {s : State} (hc : s.cOpen = false)
    (hd : parseImage d = some out) (hgt : s.nbMax < out.length) :
    exec (.importImage d) s = .next (answered s [rspHeader Op.importImage.code .eFull]) := by
  rw [exec_importImage, gatedMutation_of_closed hc, importBody, hd]
  exact if_pos hgt

theorem exec_import_imported {d : List Byte} {out : List Block} {s : State} (hs : DataInv s) (hc : s.cOpen = false)
    (hd : parseImage d = some out) (hle : out.length ≤ s.nbMax) :
    ∃ t, exec (.importImage d) s = .next (respond Op.importImage.code .ok [] t) ∧ Imported out s t := by
  obtain ⟨t, e, ht⟩ := replaceStore_imported hs hd hle
  refine ⟨t, ?_, ht⟩
  rw [exec_importImage, gatedMutation_of_closed hc, importBody, hd]
  simp only [if_neg hle.not_gt, e]
  rfl

theorem Imported.nblk {out : List Block} {s t : State} (h : Imported out s t) : t.nblk.toNat = out.length := by
  rw [← blocks_length, h.blocks]

theorem Imported.len {out : List Block} {s t : State} (h : Imported out s t) : t.len.toNat = (out.map Block.occ).sum := by
  rw [h.store.len_eq_sum, h.blocks]

/-- Settles O59: the gate, the parser's refusal, the bound on the records, and the store of the image's blocks. -/
theorem importAnswers : Obligations.ImportAnswers := by
  intro d s hi
  refine ⟨rfl, fun ho hw => (exec_importImage d s).trans (gatedMutation_of_owning ho hw),
    fun ho hw => (exec_importImage d s).trans (gatedMutation_of_borrowing ho hw), exec_import_malformed,
    fun out hc hd => ⟨exec_import_full hc hd, fun hle => ?_⟩⟩
  obtain ⟨t, hexec, h⟩ := exec_import_imported hi.data hc hd hle
  have hport := h.only.samePort
  refine ⟨_, hexec, ?_, hport.inQ, hport.nbMax, h.nblk, (blocks_respond _ _ _ t).trans h.blocks, h.len,
    h.only.sameCursor.respond _ _ _, fun b hb => ⟨h.only.width b (by omega), h.only.occ b (by omega)⟩,
    fun a ha => h.only.ramByte (by omega)⟩
  rw [respond_outQ, hport.outQ]; rfl

/-! ### `EXPORT` and then `IMPORT` (R266 (a)) -/

/-- The Values of a block (R32). -/
def Block.vals (blk : Block) : List Word := decodeAll blk.buf blk.occ blk.width

theorem valsUpTo_eq_flatMap_blockAt (s : State) (n : Nat) :
    valsUpTo s n = ((List.range n).map (blockAt s)).flatMap Block.vals := by
  induction n with
  | zero => rfl
  | succ n ih => rw [valsUpTo, ih, List.range_succ]; simp [blockAt, vals, Block.vals]

/-- The blocks determine the contents (R32). -/
theorem contents_eq_flatMap_blocks (s : State) : contents s = (blocks s).flatMap Block.vals :=
  valsUpTo_eq_flatMap_blockAt s s.nblk.toNat

theorem wellShaped_of_full {recs : List Block} (hr : ∀ blk ∈ recs, ShapedRecord blk)
    (hfull : ∀ j (hj : j + 1 < recs.length), (recs[j]).occ = 256) : wellShaped recs := by
  induction recs with
  | nil => trivial
  | cons blk rest ih =>
    refine wellShaped_cons.mpr ⟨hr blk (List.mem_cons_self ..), fun hne => ?first,
      ih (fun b hb => hr b (List.mem_cons_of_mem _ hb)) fun j hj => ?later⟩
    case first => exact hfull 0 (Nat.succ_lt_succ (List.length_pos_iff.mpr hne))
    case later => exact hfull (j + 1) (Nat.succ_lt_succ hj)

theorem StoreInv.shapedRecord_blockAt {s : State} (h : StoreInv s) {b : Nat} (hb : b < s.nblk.toNat) :
    ShapedRecord (blockAt s b) := by
  obtain ⟨hpos, hle⟩ := h.occ_range b hb
  exact ⟨h.width_le b hb, hpos, hle, buf_length (h.buf_bufOf hb)⟩

/-- A live buffer has no padding bit set (R33 (e)). -/
theorem StoreInv.canonicalBlock_blockAt {s : State} (h : StoreInv s) {b : Nat} (hb : b < s.nblk.toNat) :
    canonicalBlock (blockAt s b) = blockAt s b := by
  have hcanon : canonicalForm (bufOf s b) (occAt s b) (widthAt s b) = bufOf s b := (h.holdsBlock hb).bufOf.symm
  rw [canonicalBlock, blockAt, hcanon]

/-- The blocks of a store in shape are records that `IMPORT` accepts (R33 (b), (c)). -/
theorem StoreInv.wellShaped_blocks {s : State} (h : StoreInv s) : wellShaped (blocks s) := by
  refine wellShaped_of_full (List.forall_mem_map.mpr fun b hb => ?shape) fun j hj => ?full
  case shape => exact h.shapedRecord_blockAt (List.mem_range.mp hb)
  case full =>
    rw [blocks_length] at hj
    simp only [blocks, List.getElem_map, List.getElem_range]
    exact h.full j hj

/-- `IMPORT` parses the image of a store to the store's own blocks. -/
theorem StoreInv.parseImage_blocks {s : State} (h : StoreInv s) : parseImage (imageOf (blocks s)) = some (blocks s) := by
  have hcanon : (blocks s).map canonicalBlock = blocks s := by
    rw [blocks, List.map_map]
    exact List.map_congr_left fun b hb => h.canonicalBlock_blockAt (List.mem_range.mp hb)
  rw [parseImage_imageOf h.wellShaped_blocks, hcanon]

/-- Two stores in shape with the same blocks have the same contents and the same `LEN`. -/
theorem contents_and_len_of_blocks {s t : State} (hs : StoreInv s) (ht : StoreInv t) (h : blocks t = blocks s) :
    contents t = contents s ∧ t.len = s.len := by
  refine ⟨?_, BitVec.eq_of_toNat_eq ?_⟩
  · rw [contents_eq_flatMap_blocks, contents_eq_flatMap_blocks, h]
  · rw [ht.len_eq_sum, hs.len_eq_sum, h]

/-- Settles O60: the image of a store in shape parses to its blocks, and the blocks determine contents and `LEN`. -/
theorem exportThenImportRestores : Obligations.ExportThenImportRestores := by
  intro s u hs hu hc hnb
  have hle : (blocks s).length ≤ u.nbMax := by rw [blocks_length, hnb]; exact hs.store.nblk_le
  obtain ⟨t, hexec, h⟩ := exec_import_imported hu.data hc hs.store.parseImage_blocks hle
  obtain ⟨hcont, hlen⟩ := contents_and_len_of_blocks hs.store h.store h.blocks
  refine ⟨_, hexec, ?_, (blocks_respond _ _ _ t).trans h.blocks, (contents_respond _ _ _ t).trans hcont, hlen⟩
  rw [respond_outQ, h.only.samePort.outQ]; rfl

end Sys2Proof.Machine

namespace Sys2Proof.Machine

/-! ### Progress (60_exceptions.md R284, 10_state.md R36)

A check or a gate that refuses answers its status, so a command can only stop where it reads or writes the block RAM or the
cache. There the invariants give what the operation finds: `ramField_index`, `loadBlocks_ok`, `pushLast_pushed`,
`popLast_popped`, `replaceStore_built`, `replaceStore_imported`, `openReader_opened`, `fill_filled` and `serve_served`. -/

/-- The outcome is a next state: no fault and no refusal. -/
def Completes (r : Host.Outcome State Fault Refusal) : Prop := ∃ t, r = .next t

namespace Completes

variable {op : Op} {s : State} {y : Host.Outcome State Fault Refusal}

theorem next {t : State} : Completes (.next t) := ⟨t, rfl⟩

/-- Both a status and an `OK` answer are next states, so a check completes when what follows it does. -/
theorem check {c : Prop} [Decidable c] {t : State} (hy : ¬ c → Completes y) :
    Completes (if c then .next t else y) := by
  split
  · exact next
  · exact hy ‹_›

theorem gatedRead (hy : ¬ ownedByCursor s → Completes y) : Completes (gatedRead op s y) := by
  by_cases hm : ownedByCursor s
  · exact ⟨_, gatedRead_of_owned hm⟩
  · rw [gatedRead_of_not_owned hm]
    exact hy hm

theorem gatedMutation (hy : s.cOpen = false → Completes y) : Completes (gatedMutation op s y) := by
  cases ho : s.cOpen with
  | false =>
    rw [gatedMutation_of_closed ho]
    exact hy ho
  | true =>
    cases hw : s.cOwn with
    | true => exact ⟨_, gatedMutation_of_owning ho hw⟩
    | false => exact ⟨_, gatedMutation_of_borrowing ho hw⟩

/-- An operation that succeeds is answered. -/
theorem finish {α : Type} {r : Except Fault α} {a : α} (h : r = .ok a) {f : α → State × List Word} :
    Completes (finish op (do let x ← r; return f x)) := by
  rw [h]
  exact next

end Completes

theorem exec_push_completes (v : Word) {s : State} (hi : Inv s) : Completes (exec (.push v) s) := by
  rw [exec_push]
  refine .gatedMutation fun _ => .check fun hfull => ?_
  rw [Bool.and_eq_true, needsBlock_iff, decide_eq_true_iff] at hfull
  obtain ⟨t, e, -⟩ := pushLast_pushed v hi hfull
  exact .finish e

theorem exec_pop_completes {s : State} (hs : StoreInv s) : Completes (exec .pop s) := by
  rw [exec_pop]
  refine .gatedMutation fun _ => .check fun hl => ?_
  obtain ⟨t, v, vs, e, -⟩ := popLast_popped hs hl
  exact .finish e

theorem exec_build_completes (vs : List Word) {s : State} (hd : DataInv s) : Completes (exec (.build vs) s) := by
  rw [exec_build]
  refine .gatedMutation fun _ => .check fun hgt => ?_
  obtain ⟨t, e, -⟩ := replaceStore_built hd (Nat.le_of_not_lt hgt)
  exact .finish e

theorem exec_import_completes (d : List Byte) {s : State} (hd : DataInv s) : Completes (exec (.importImage d) s) := by
  rw [exec_importImage]
  refine .gatedMutation fun hc => ?_
  unfold importBody
  cases hparse : parseImage d with
  | none => exact .next
  | some blks =>
    refine .check fun hgt => ?_
    obtain ⟨t, e, -⟩ := replaceStore_imported hd hparse (Nat.le_of_not_lt hgt)
    exact .finish e

theorem exec_copen_completes (own : Bool) {s : State} (hs : StoreInv s) : Completes (exec (.copen own) s) := by
  cases hc : s.cOpen with
  | true => exact ⟨_, exec_copen_busy own hc⟩
  | false =>
    obtain ⟨t, hexec, -⟩ := exec_copen_opened own hs hc
    exact ⟨_, hexec⟩

/-- `CNEXT` in each state of the reader (R235): the invariants leave no position past the end of the block. -/
theorem exec_cnext_completes {s : State} (hi : Inv s) : Completes (exec .cnext s) := by
  cases hr : readerState s with
  | closed => exact ⟨_, exec_cnext_closed (readerState_eq_closed_iff.mp hr)⟩
  | serving =>
    obtain ⟨ho, hlt⟩ := readerState_eq_serving_iff.mp hr
    obtain ⟨t, v, hexec, -⟩ := exec_cnext_served hi ho hlt
    exact ⟨_, hexec⟩
  | blockEnd =>
    obtain ⟨ho, hge, hnext⟩ := readerState_eq_blockEnd_iff.mp hr
    obtain ⟨s1, t, v, hexec, -⟩ := exec_cnext_filledServed hi ho (hi.cursor.cPos_eq ho hge) hnext
    exact ⟨_, hexec⟩
  | exhausted =>
    obtain ⟨ho, hge, hlast⟩ := readerState_eq_exhausted_iff.mp hr
    exact ⟨_, exec_cnext_exhausted ho (hi.cursor.cPos_eq ho hge) (Nat.le_of_not_lt hlast)⟩

/-- Every command answers in every state of the invariants. -/
theorem exec_completes (i : Instr) {s : State} (hi : Inv s) : Completes (exec i s) := by
  cases i with
  | bits v => exact .next
  | maxr w => exact .check fun _ => .next
  | enc w vs => exact .check fun _ => .check fun _ => .check fun _ => .next
  | dec1 w j bs => exact .check fun _ => .check fun _ => .check fun _ => .next
  | deca w n bs => exact .check fun _ => .check fun _ => .check fun _ => .next
  | wr1 w j v bs => exact .check fun _ => .check fun _ => .check fun _ => .check fun _ => .next
  | rpk oldW newW n bs => exact .check fun _ => .check fun _ => .check fun _ => .check fun _ => .next
  | idx j => exact .next
  | get j =>
    rw [exec_get]
    exact .gatedRead fun _ => .check fun hlt => .finish (ramField_index hi.store (Nat.lt_of_not_le hlt))
  | len => exact .gatedRead fun _ => .next
  | isemp => exact .gatedRead fun _ => .next
  | bytelen => exact .gatedRead fun _ => .next
  | binfo b => exact .gatedRead fun _ => .check fun _ => .next
  | new => exact .gatedMutation fun _ => .next
  | push v => exact exec_push_completes v hi
  | pop => exact exec_pop_completes hi.store
  | build vs => exact exec_build_completes vs hi.data
  | copen own => exact exec_copen_completes own hi.store
  | cnext => exact exec_cnext_completes hi
  | cclose => exact .check fun _ => .next
  | cstat => exact .next
  | exportImage =>
    rw [exec_exportImage]
    exact .gatedRead fun _ => .finish (loadBlocks_ok hi.store le_rfl)
  | importImage d => exact exec_import_completes d hi.data

/-- Settles O14: a reset, a rejected packet and a missing event give a next state at once, and a command by
`exec_completes`, as the invariants do not speak of the events. -/
theorem invariantStatesNeverStop : Obligations.InvariantStatesNeverStop := by
  intro s hi
  cases hq : s.inQ with
  | nil => exact ⟨s, by simp only [step, takeEvent, hq]⟩
  | cons event rest =>
    cases event with
    | reset => exact ⟨applyReset { s with inQ := rest }, by simp only [step, takeEvent, hq]⟩
    | resetDuring p => exact ⟨abandonPacket p { s with inQ := rest }, by simp only [step, takeEvent, hq]⟩
    | packet p =>
      cases hd : decode p with
      | ok i =>
        rw [step_of_decode_ok hq hd]
        exact exec_completes i (hi.withInQ rest)
      | error e => exact ⟨_, step_of_decode_error hq hd⟩

end Sys2Proof.Machine

namespace Sys2Proof

/-! ### Which packets the decoder rejects (60_exceptions.md R291, R292) -/

/-- A header selects no row exactly when its opcode is none of the table's, or a field that its opcode leaves unused is not
zero (R90). -/
theorem rowOf_eq_none_iff_fields {h : Word} :
    rowOf h = none ↔
      (∀ op : Op, op.code ≠ fieldOp h) ∨ h.extractLsb' 25 7 ≠ 0 ∨
        ∃ op : Op, op.code = fieldOp h ∧
          ((Machine.usesA op = false ∧ fieldA h ≠ 0) ∨ (op ≠ .rpk ∧ fieldB h ≠ 0) ∨
            (op ≠ .copen ∧ fieldF h = true)) := by
  by_cases hop : ∃ op : Op, op.code = fieldOp h
  · obtain ⟨op, hop⟩ := hop
    have only_op (q : Op) : q.code = fieldOp h ↔ q = op :=
      ⟨fun hq => code_injective _ _ (hq.trans hop.symm), fun hq => hq ▸ hop⟩
    have only_header : (∀ q, ¬ headerOf q h) ↔ ¬ headerOf op h :=
      ⟨fun hall => hall op, fun hnot q hq => hnot ((only_op q).mp hq.1.symm ▸ hq)⟩
    rw [rowOf_eq_none, only_header]
    simp only [headerOf, ne_eq, only_op, exists_eq_left, hop, true_and, forall_eq, false_or]
    grind
  · have hnone : ∀ op : Op, op.code ≠ fieldOp h := fun op h' => hop ⟨op, h'⟩
    exact iff_of_true (rowOf_eq_none.mpr fun op hh => hnone op hh.1.symm) (.inl hnone)

/-- The checks of R88 fail with `E_FORMAT` only. -/
theorem decodeRow_eq_error {r : Row} {h : Word} {ws : List Word} {e : DecodeFail} :
    decodeRow r h ws = .error e ↔
      e = .format ∧ (ws.length < r.fmt.fixedWords ∨
        ws.length ≠ r.fmt.fixedWords + r.fmt.payloadWords (countWord r.fmt ws) ∨
        (r.fmt.hasBytes = true ∧ padZero (countWord r.fmt ws) (ws.drop r.fmt.fixedWords) = false)) := by
  have herr : (.error .format : Except DecodeFail Instr) = .error e ↔ e = .format := by
    rw [Except.error.injEq, eq_comm]
  simp only [decodeRow]
  split
  next hshort => simp [herr, hshort]
  next hshort =>
    split
    next hlen => simp [herr, hlen]
    next hlen =>
      split
      next hpad => simp_all
      next hpad => simp_all

theorem decode_cons_eq_opcode {h : Word} {ws : List Word} : decode (h :: ws) = .error .opcode ↔ rowOf h = none := by
  cases hr : rowOf h with
  | none => simp [decode, hr]
  | some r => simp [decode, hr, decodeRow_eq_error]

theorem decode_eq_format {p : Packet} :
    decode p = .error .format ↔
      p = [] ∨ ∃ h ws r, p = h :: ws ∧ rowOf h = some r ∧ decodeRow r h ws = .error .format := by
  cases p with
  | nil => simp [decode]
  | cons h ws => cases hr : rowOf h <;> simp [decode, hr]

/-- The pad check fails exactly when some byte position from the payload's length on is not zero (R84). -/
theorem padZero_eq_false {l : Nat} {payload : List Word} :
    padZero l payload = false ↔
      ∃ k, l ≤ k ∧ k < 4 * payload.length ∧ (payload.getD (k / 4) 0).extractLsb' (8 * (k % 4)) 8 ≠ 0 := by
  simp only [← unpackBytes_getD, ← unpackBytes_length, padZero, List.all_eq_false, List.mem_drop_iff_getElem]
  constructor
  · rintro ⟨x, ⟨j, hj, rfl⟩, hx⟩
    refine ⟨l + j, Nat.le_add_right l j, by omega, ?_⟩
    rw [List.getD_eq_getElem _ _ (by omega)]
    simpa using hx
  · rintro ⟨k, hlk, hk, hx⟩
    obtain ⟨j, rfl⟩ := Nat.exists_eq_add_of_le hlk
    rw [List.getD_eq_getElem _ _ hk] at hx
    exact ⟨_, ⟨j, by omega, rfl⟩, by simpa using hx⟩

/-- No format takes four zero words: their count is 0, so no payload word follows, and no format has four fixed words. -/
theorem fixedWords_add_payloadWords_lt_four (fmt : Format) :
    fmt.fixedWords + fmt.payloadWords (countWord fmt (List.replicate 4 0)) < 4 := by
  cases fmt <;> decide

/-- Every command's header followed by four zero words is a packet of the wrong length. -/
theorem decode_four_zero_words (op : Op) :
    decode (headerWord op 0 0 false :: List.replicate 4 0) = .error .format := by
  obtain ⟨r, hmem, rfl⟩ := exists_row op
  have hrow : rowOf (headerWord r.op 0 0 false) = some r :=
    rowOf_eq_some.mpr ⟨hmem, Laws.HeaderSelectsRow.plain r.op⟩
  have hlt := fixedWords_add_payloadWords_lt_four r.fmt
  refine decode_eq_format.mpr (.inr ⟨_, _, r, rfl, hrow, decodeRow_eq_error.mpr ⟨rfl, .inr (.inl ?_)⟩⟩)
  rw [List.length_replicate]
  exact hlt.ne'

end Sys2Proof

namespace Sys2Proof.Machine

/-- A rejected packet's response, with the number of its status written out (R283). -/
theorem rspHeader_failStatus (ope : Byte) :
    rspHeader ope (failStatus .opcode) = 0#16 ++ ope ++ 0x20#8 ∧
      rspHeader ope (failStatus .format) = 0#16 ++ ope ++ 0x21#8 := ⟨rfl, rfl⟩

/-- Settles O3: the opcode failure is a header that selects no row. -/
theorem opcodeFailureConditions : Obligations.OpcodeFailureConditions := by
  intro h ws
  refine ⟨decode_cons_eq_opcode.trans rowOf_eq_none_iff_fields, fun hd s rest hq => ?_⟩
  rw [← (rspHeader_failStatus (fieldOp h)).1]
  exact stepAnswersRejectedPacket s (h :: ws) rest .opcode hq hd

/-- Settles O4: the checks of R88 once a header has selected a row; any command's header with four zero words fails them. -/
theorem formatFailureConditions : Obligations.FormatFailureConditions := by
  refine ⟨fun p => ?_, fun op => ⟨_, decode_four_zero_words op, fieldOp_headerWord op 0 0 false⟩,
    fun p s rest hd hq => ?_⟩
  · simp only [decode_eq_format, decodeRow_eq_error, padZero_eq_false, true_and]
    rfl
  · rw [← (rspHeader_failStatus (echoOf p)).2]
    exact stepAnswersRejectedPacket s p rest .format hq hd

/-! ### Failing commands (60_exceptions.md R282) -/

/-- The one response that an answer appends. -/
theorem respond_outQ_eq_append {ope : Byte} {st : Status} {body : List Word} {s s' : State} {rsp : Packet}
    (hs : s'.outQ = s.outQ) : (respond ope st body s').outQ = s.outQ ++ [rsp] ↔ rspHeader ope st :: body = rsp := by
  rw [respond_outQ, hs, List.append_cancel_left_eq, List.singleton_inj]

/-- No other status has the number of `OK` (R283). -/
theorem Status.code_eq_ok {st : Status} : st.code = Status.ok.code ↔ st = .ok := by
  cases st <;> decide

theorem rspHeader_eq_ok {ope ope' : Byte} {st : Status} (h : rspHeader ope .ok = rspHeader ope' st) : st = .ok := by
  rw [← Status.code_eq_ok, ← setWidth_rspHeader ope', ← h, setWidth_rspHeader]

/-- What a step on a packet can do: answer alone, with a body only when the status is `OK`, or answer `OK` after a
command's effect, which leaves the ports alone. -/
theorem step_packet_cases {s t : State} {p : Packet} {rest : List HostEvent} (hq : s.inQ = .packet p :: rest)
    (h : step s = .next t) :
    (∃ st body, t = respond (echoOf p) st body { s with inQ := rest } ∧ (st ≠ .ok → body = [])) ∨
      ∃ s' body, t = respond (echoOf p) .ok body s' ∧ SamePort { s with inQ := rest } s' := by
  cases hd : decode p with
  | ok i =>
    rw [echoOf_of_decode hd]
    exact (exec_cases ((step_of_decode_ok hq hd).symm.trans h)).imp_right
      fun ⟨s', body, ht, hact⟩ => ⟨s', body, ht, hact.samePort⟩
  | error e =>
    cases (step_of_decode_error hq hd).symm.trans h
    exact .inl ⟨_, [], rfl, fun _ => rfl⟩

/-- Settles O16: the response tells which of the two a step did, as only `OK` has the number of `OK`. -/
theorem failingCommandChangesNothing : Obligations.FailingCommandChangesNothing := by
  intro s t p rest st body hq h hout hst
  rcases step_packet_cases hq h with ⟨st', body', rfl, hbody⟩ | ⟨s', body', rfl, hport⟩
  · obtain ⟨hhead, rfl⟩ := List.cons_eq_cons.mp ((respond_outQ_eq_append rfl).mp hout)
    have hfail : st' ≠ .ok := by
      rintro rfl
      exact hst (rspHeader_eq_ok hhead)
    rw [hbody hfail, ← hhead]
    exact ⟨rfl, rfl⟩
  · obtain ⟨hhead, -⟩ := List.cons_eq_cons.mp ((respond_outQ_eq_append hport.outQ).mp hout)
    exact absurd (rspHeader_eq_ok hhead) hst

/-! ### The statuses of each command (60_exceptions.md R306) -/

/-- Every next state of the outcome ends with an answer whose status the table of R306 gives the command. -/
def AnswersInTable (op : Op) (r : Host.Outcome State Fault Refusal) : Prop :=
  ∀ t, r = .next t → ∃ st ∈ possibleStatuses op, ∃ body s', t = respond op.code st body s'

namespace AnswersInTable

variable {op : Op} {s : State} {y : Host.Outcome State Fault Refusal}

theorem respond {st : Status} {body : List Word} (hst : st ∈ possibleStatuses op) :
    AnswersInTable op (.next (Machine.respond op.code st body s)) := by
  rintro _ ⟨⟩; exact ⟨st, hst, body, s, rfl⟩

theorem ok {body : List Word} : AnswersInTable op (answerOk op body s) :=
  respond (by cases op <;> exact List.mem_cons_self)

/-- A command that reads or writes the RAM or the cache answers `OK` or stops. -/
theorem finish {r : Except Fault (State × List Word)} : AnswersInTable op (finish op r) := by
  cases r with
  | ok p => exact ok
  | error f => exact nofun

theorem ite {c : Prop} [Decidable c] {x : Host.Outcome State Fault Refusal} (hx : AnswersInTable op x)
    (hy : AnswersInTable op y) : AnswersInTable op (if c then x else y) := by
  split
  · exact hx
  · exact hy

/-- A check that fails answers its status. -/
theorem check {c : Prop} [Decidable c] {e : Status} (he : e ∈ possibleStatuses op) (hy : AnswersInTable op y) :
    AnswersInTable op (if c then raise op e s else y) := ite (respond he) hy

theorem gatedRead (hm : .eMoved ∈ possibleStatuses op) (hy : AnswersInTable op y) :
    AnswersInTable op (gatedRead op s y) := by
  by_cases hown : ownedByCursor s
  · rw [gatedRead_of_owned hown]
    exact respond hm
  · rwa [gatedRead_of_not_owned hown]

theorem gatedMutation (hm : .eMoved ∈ possibleStatuses op) (hb : .eBorrowed ∈ possibleStatuses op)
    (hy : AnswersInTable op y) : AnswersInTable op (gatedMutation op s y) := by
  cases ho : s.cOpen with
  | false => rwa [gatedMutation_of_closed ho]
  | true =>
    cases hw : s.cOwn with
    | true =>
      rw [gatedMutation_of_owning ho hw]
      exact respond hm
    | false =>
      rw [gatedMutation_of_borrowing ho hw]
      exact respond hb

end AnswersInTable

theorem importBody_answersInTable (d : List Byte) (s : State) : AnswersInTable .importImage (importBody d s) := by
  unfold importBody
  split
  · exact .respond (by decide)
  · exact .check (by decide) .finish

/-- The checks of each command, against its row of the table of R306. -/
theorem exec_answersInTable (i : Instr) (s : State) : AnswersInTable i.op (exec i s) := by
  cases i with
  | bits | idx | cstat => exact .ok
  | maxr w => exact .check (op := .maxr) (by decide) .ok
  | enc w vs => exact .check (op := .enc) (by decide) <| .check (by decide) <| .check (by decide) .ok
  | dec1 w j bs => exact .check (op := .dec1) (by decide) <| .check (by decide) <| .check (by decide) .ok
  | deca w n bs => exact .check (op := .deca) (by decide) <| .check (by decide) <| .check (by decide) .ok
  | wr1 w j v bs =>
    exact .check (op := .wr1) (by decide) <| .check (by decide) <| .check (by decide) <| .check (by decide) .ok
  | rpk oldW newW n bs =>
    exact .check (op := .rpk) (by decide) <| .check (by decide) <| .check (by decide) <| .check (by decide) .ok
  | get j => exact .gatedRead (op := .get) (by decide) <| .check (by decide) .finish
  | len => exact .gatedRead (op := .len) (by decide) .ok
  | isemp => exact .gatedRead (op := .isemp) (by decide) .ok
  | bytelen => exact .gatedRead (op := .bytelen) (by decide) .ok
  | binfo b => exact .gatedRead (op := .binfo) (by decide) <| .check (by decide) .ok
  | exportImage => exact .gatedRead (op := .exportImage) (by decide) .finish
  | new => exact .gatedMutation (op := .new) (by decide) (by decide) .ok
  | push v => exact .gatedMutation (op := .push) (by decide) (by decide) <| .check (by decide) .finish
  | build vs => exact .gatedMutation (op := .build) (by decide) (by decide) <| .check (by decide) .finish
  | pop => exact .gatedMutation (op := .pop) (by decide) (by decide) <| .ite (.respond (by decide)) .finish
  | importImage d => exact .gatedMutation (op := .importImage) (by decide) (by decide) <| importBody_answersInTable d s
  | copen own => exact .check (op := .copen) (by decide) .finish
  | cnext =>
    exact .check (op := .cnext) (by decide) <| .ite (.ite .finish (.respond (by decide))) .finish
  | cclose => exact .check (op := .cclose) (by decide) .ok

/-- Settles O17: the one response a command adds is the one it ends with. -/
theorem statusesOfEachCommand : Obligations.StatusesOfEachCommand := by
  intro i s t h
  obtain ⟨st, hmem, body, s', rfl⟩ := exec_answersInTable i s t h
  obtain ⟨-, _, _, hout, -⟩ := exec_addsOneResponse h
  rw [respond_outQ] at hout
  obtain ⟨hprev, -⟩ := List.append_inj' hout rfl
  exact ⟨st, hmem, body, by rw [respond_outQ, hprev]⟩

end Sys2Proof.Machine

namespace Sys2Proof.Machine

/-! ### Reset (70_reset_and_hazards.md R310 to R312) -/

/-- A reset between commands is applied to the state without the event (R310). -/
theorem step_of_reset {s : State} {rest : List HostEvent} (hq : s.inQ = .reset :: rest) :
    step s = .next (applyReset { s with inQ := rest }) := by
  simp only [step, takeEvent, hq]

/-- A reset that finds a packet in flight does the same: the packet goes with the event (R312). -/
theorem step_of_resetDuring {s : State} {p : Packet} {rest : List HostEvent} (hq : s.inQ = .resetDuring p :: rest) :
    step s = .next (applyReset { s with inQ := rest }) := by
  simp only [step, takeEvent, hq, abandonPacket_eq]

/-- Settles O10: both events lead to the same reset, whose registers are those of R38. -/
theorem resetEventEmptiesCore : Obligations.ResetEventEmptiesCore := by
  intro s rest hq
  have hstep : step s = .next (applyReset { s with inQ := rest }) := by
    rcases hq with hreset | ⟨p, hduring⟩
    · exact step_of_reset hreset
    · exact step_of_resetDuring hduring
  exact ⟨_, hstep, rfl, rfl, rfl, rfl, rfl, rfl, rfl, rfl, rfl, rfl, rfl⟩

/-- The build's `NB_MAX` is in the range R6 gives, whatever the free number it is made of. -/
theorem config_nbMax_bounds : 1 ≤ Config.nbMax ∧ Config.nbMax ≤ 2 ^ 21 := by
  unfold Config.nbMax
  omega

/-- With nothing listed in the descriptors and the RAM, only the bounds of `NB_MAX` remain to be met. -/
theorem resetOf_dataInv {n : Nat} (hpos : 1 ≤ n) (hle : n ≤ 2 ^ 21) : DataInv (State.resetOf n) where
  nbMax_pos := hpos
  nbMax_le := hle
  ram_wf := rfl
  ram_inside _ hc := nomatch hc
  width_wf := rfl
  width_inside _ hc := nomatch hc
  occ_wf := rfl
  occ_inside _ hc := nomatch hc

/-- Resetting a core that has just been reset changes nothing (R310). -/
theorem applyReset_resetOf (n : Nat) : applyReset (State.resetOf n) = State.resetOf n := rfl

/-- The reset state of every build that R6 allows satisfies the invariants (R311). -/
theorem resetOf_inv {n : Nat} (hpos : 1 ≤ n) (hle : n ≤ 2 ^ 21) : Inv (State.resetOf n) :=
  applyReset_resetOf n ▸ applyReset_inv (resetOf_dataInv hpos hle)

/-- Settles O12: `State.reset` is the reset state of a build within R6's bounds. -/
theorem resetSatisfiesInvariants : Obligations.ResetSatisfiesInvariants := by
  obtain ⟨hpos, hle⟩ := config_nbMax_bounds
  exact resetOf_inv hpos hle

end Sys2Proof.Machine
